-- ==== Sys2Proof/Word.lean ====
section
/-! DEFINITION. The word types of the packet engine: bytes, CRC register words, and byte memories. -/

namespace Sys2Proof

/-- A byte: an unsigned 8-bit value (00_scope.md R14). -/
abbrev Byte := BitVec 8

/-- A CRC register value. The register is `8*W` bits (R16, R120); the widest, W = 4, fills this
type, and a narrower register uses the low `8*W` bits of it (assumption 18). -/
abbrev Word := BitVec 32

/-- The contents of a byte buffer: cells (index, byte), indices strictly rising, no cell holding 0.
An index that is not listed reads 0, the reset contents of every buffer (10_state.md R24). -/
abbrev Memory := List Host.Cell

end Sys2Proof
end

