-- ==== Sys2Proof/Config.lean ====
section
/-! DEFINITION. The ten configuration parameters, latched at construction and read-only afterwards
(00_scope.md R8, 10_state.md R21). Sizes derived from them and the legality check stand in Machine/Params.lean. -/

namespace Sys2Proof

/-- The CRC width `W` in bytes: 1, 2 or 4 and nothing else (R8, R120). -/
inductive CrcWidth where
  | w1
  | w2
  | w4
deriving DecidableEq, Repr

/-- The configuration registers (R21). The spec gives them no addresses: they are named fields. -/
structure Config where
  /-- `W` -/
  width : CrcWidth
  /-- `POLYNOMIAL`, non-reversed form, top term implicit -/
  polynomial : Word
  /-- `INITIAL_VALUE` -/
  initialValue : Word
  /-- `FINAL_XOR` -/
  finalXor : Word
  /-- `START_BYTE`, default 129 -/
  startByte : Byte
  /-- `DELIMITER_BYTE`, written `D`, default 0 -/
  delimiterByte : Byte
  /-- `TIMEOUT_US`, microseconds, default 20000 -/
  timeoutUs : Nat
  /-- `ALLOW_START_BYTE_ERRORS`, default false -/
  allowStartByteErrors : Bool
  /-- `MAX_TX_PAYLOAD`, 1..254 -/
  maxTxPayload : Nat
  /-- `MAX_RX_PAYLOAD`, 1..254 -/
  maxRxPayload : Nat
deriving DecidableEq, Repr

/-- The typical configuration, CRC-16/CCITT-FALSE (R11), with the defaults of R8 and the largest
payloads: the configuration `TYP` of 95_test_vectors.md.
DESIGN CHOICE (assumption 1): the spec gives no default for six of the ten parameters; this is only
the configuration of `State.reset`, and the statements quantify over every configuration. -/
def Config.typical : Config where
  width := .w2
  polynomial := 0x1021
  initialValue := 0xFFFF
  finalXor := 0
  startByte := 129
  delimiterByte := 0
  timeoutUs := 20000
  allowStartByteErrors := false
  maxTxPayload := 254
  maxRxPayload := 254

end Sys2Proof
end

