-- ==== Sys2Proof/Machine/Params.lean ====
section
/-! DEFINITION. The constants derived from the configuration (00_scope.md R9), and which
configurations exist (R8, R10). -/

namespace Sys2Proof

/-- `W` as a number of bytes (R8). -/
def CrcWidth.bytes : CrcWidth → Nat
  | .w1 => 1
  | .w2 => 2
  | .w4 => 4

/-- The CRC register has `8*W` bits (R16). -/
def CrcWidth.bits (w : CrcWidth) : Nat := 8 * w.bytes

/-- The value fits the `8*W`-bit CRC register (R8, R83). -/
def CrcWidth.fits (w : CrcWidth) (c : Word) : Bool := decide (c.toNat < 2 ^ w.bits)

/-- `TX_BUF_SIZE = MAX_TX_PAYLOAD + 2 + W` (R9). -/
def Config.txBufSize (c : Config) : Nat := c.maxTxPayload + 2 + c.width.bytes

/-- `RX_BUF_SIZE = MAX_RX_PAYLOAD + 2 + W` (R9). -/
def Config.rxBufSize (c : Config) : Nat := c.maxRxPayload + 2 + c.width.bytes

/-- `RX_PACKET_LIMIT = RX_BUF_SIZE - W = MAX_RX_PAYLOAD + 2` (R9). -/
def Config.rxPacketLimit (c : Config) : Nat := c.maxRxPayload + 2

/-- The configurations of this hardware: the legal values of R8. `W` is legal by its type; a reversed
polynomial cannot be told from its value (93_implementation_defined.md U3). -/
def Config.legal (c : Config) : Bool :=
  decide (1 ≤ c.maxTxPayload) && decide (c.maxTxPayload ≤ 254) &&
  decide (1 ≤ c.maxRxPayload) && decide (c.maxRxPayload ≤ 254) &&
  c.width.fits c.polynomial && c.width.fits c.initialValue && c.width.fits c.finalXor

end Sys2Proof
end

