-- ==== Sys2Proof/Machine/CrcArith.lean ====
section
/-! DEFINITION. CRC register arithmetic (00_scope.md R16) and the entries of the CRC table
(41_crc.md R121). The register has `8*W` bits; values are kept in the low `8*W` bits of a Word. -/

namespace Sys2Proof.Machine

/-- `trunc_{8W}(v)` (R16). -/
def crcTrunc (w : CrcWidth) (c : Word) : Word := c &&& BitVec.ofNat 32 (2 ^ w.bits - 1)

/-- `c << k` on the CRC register: a left shift followed by truncation to `8*W` bits (R16). -/
def crcShl (w : CrcWidth) (c : Word) (k : Nat) : Word := crcTrunc w (c <<< k)

/-- `msb(c)`: bit `8*W - 1` (R16). -/
def crcMsb (w : CrcWidth) (c : Word) : Bool := c.getLsbD (w.bits - 1)

/-- One of the eight repeated steps of R121: the test reads the top bit before the shift. -/
def crcShiftStep (w : CrcWidth) (poly c : Word) : Word :=
  if crcMsb w c then crcShl w c 1 ^^^ poly else crcShl w c 1

/-- `crc_table[B]` (R121): the byte aligned to the top of the register, then eight steps. -/
def crcTableEntry (w : CrcWidth) (poly : Word) (b : Byte) : Word :=
  Nat.repeat (crcShiftStep w poly) 8 (crcShl w (b.setWidth 32) (w.bits - 8))

/-- The 256 entries of `crc_table` (R121), a function of `W` and `POLYNOMIAL` alone (10_state.md R28). -/
def crcTable (w : CrcWidth) (poly : Word) : Vector Word 256 :=
  ⟨((List.range 256).map fun b => crcTableEntry w poly (BitVec.ofNat 8 b)).toArray, by simp⟩

end Sys2Proof.Machine
end

