-- ==== Sys2Proof/Syntax.lean ====
section
/-! DEFINITION. The operations as syntax, and the command format CMD in which the host presents them
(30_encoding.md R82 to R84). -/

namespace Sys2Proof

/-- One operand presented beside the operation code: "each a natural number or a byte list" (R82). -/
inductive Operand where
  | nat (n : Nat)
  | bytes (l : List Byte)
deriving DecidableEq, Repr

/-- A command in the format CMD (R82): the 8-bit operation select code and the operands beside it. -/
structure Cmd where
  op : Byte
  operands : List Operand
deriving DecidableEq, Repr

/-- Who issues an operation: the host, or the reset sequence of 70_reset_and_hazards.md R240. -/
inductive Issuer where
  | host
  | reset
deriving DecidableEq, Repr

/-- An operation waiting to be issued. -/
structure Issue where
  issuer : Issuer
  cmd : Cmd
deriving DecidableEq, Repr

/-- The eighteen operation names of the operation map (R84). -/
inductive Opcode where
  | cobsEncode | cobsDecode
  | crcTableGen | crcCompute | crcAppend | crcExtract
  | writePayload | readPayload | resetTx | resetRx | send | receive
  | bytesInTx | bytesInRx
  | getMaxTxPayload | getMaxRxPayload | getTxBufferSize | getRxBufferSize
deriving DecidableEq, Repr

/-- The operations with their operands (R84). One constructor per row of the operation table.
`buf` is the contents of the caller's operand buffer as presented; its length is `len(buf)` (R83).
The sink `dst` of READ_PAYLOAD takes no input, so it is no operand here (assumption 7). -/
inductive Instr where
  /-- COBS_ENCODE buf, P, D (40_cobs.md R100) -/
  | cobsEncode (buf : List Byte) (p : Nat) (d : Byte)
  /-- COBS_DECODE buf, L, D (40_cobs.md R105) -/
  | cobsDecode (buf : List Byte) (l : Nat) (d : Byte)
  /-- CRC_TABLE_GEN (41_crc.md R121) -/
  | crcTableGen
  /-- CRC_COMPUTE buf, start, len (41_crc.md R123) -/
  | crcCompute (buf : List Byte) (start len : Nat)
  /-- CRC_APPEND buf, start, crc (41_crc.md R125) -/
  | crcAppend (buf : List Byte) (start : Nat) (crc : Word)
  /-- CRC_EXTRACT buf, start (41_crc.md R127) -/
  | crcExtract (buf : List Byte) (start : Nat)
  /-- WRITE_PAYLOAD src, offset, len (42_buffer_ops.md R141) -/
  | writePayload (src : List Byte) (offset len : Nat)
  /-- READ_PAYLOAD dst, offset, len (42_buffer_ops.md R143) -/
  | readPayload (offset len : Nat)
  /-- RESET_TX (42_buffer_ops.md R145) -/
  | resetTx
  /-- RESET_RX (42_buffer_ops.md R146) -/
  | resetRx
  /-- SEND (43_send.md R160) -/
  | send
  /-- RECEIVE (44_receive.md R170) -/
  | receive
  /-- BYTES_IN_TX (42_buffer_ops.md R147) -/
  | bytesInTx
  /-- BYTES_IN_RX (42_buffer_ops.md R148) -/
  | bytesInRx
  /-- GET_MAX_TX_PAYLOAD (42_buffer_ops.md R149) -/
  | getMaxTxPayload
  /-- GET_MAX_RX_PAYLOAD (42_buffer_ops.md R149) -/
  | getMaxRxPayload
  /-- GET_TX_BUFFER_SIZE (42_buffer_ops.md R149) -/
  | getTxBufferSize
  /-- GET_RX_BUFFER_SIZE (42_buffer_ops.md R149) -/
  | getRxBufferSize
deriving DecidableEq, Repr

end Sys2Proof
end

