-- ==== Sys2Proof/Machine/State.lean ====
section
/-! DEFINITION. The state of one engine instance and of its environment (10_state.md), the ways a step
can stop, and the state after construction (R36, 70_reset_and_hazards.md R240). -/

namespace Sys2Proof.Machine

/-- The status codes (30_encoding.md R80), by name; `Status.code` gives the numbers. The reserved
values of R81 have no constructor. -/
inductive Status where
  | cobsStandby
  | encodePayloadTooSmall
  | encodePayloadTooLarge
  | encodeBufferTooSmall
  | encodeAlreadyEncoded
  | payloadEncoded
  | decodePacketTooSmall
  | decodePacketTooLarge
  | decodeBufferTooSmall
  | delimiterNotFound
  | delimiterTooEarly
  | decodeAlreadyDecoded
  | payloadDecoded
  | crcStandby
  | computeBufferTooSmall
  | checksumComputed
  | appendBufferTooSmall
  | checksumAppended
  | extractBufferTooSmall
  | checksumExtracted
  | transferStandby
  | packetSent
  | packetReceived
  | noBytesToParse
  | startByteNotFound
  | packetTimeout
  | packetOutOfBufferSpace
  | postambleTimeout
  | crcCheckFailed
  | writePayloadTooSmall
  | readPayloadTooSmall
  | payloadWritten
  | payloadRead
deriving DecidableEq, Repr

/-- The three layers, each with a status-code space and a status register (R80, 10_state.md R31). -/
inductive Layer where
  | cobs
  | crc
  | transfer
deriving DecidableEq, Repr

/-- The states of the receive sequencer (10_state.md R33, 44_receive.md R172). -/
inductive Fsm where
  | idle
  | scanningForStart
  | receivingPacket
  | receivingPostamble
  | validating
  | decoded
  | error (kind : Status)
deriving DecidableEq, Repr

/-- A byte buffer: the number of its bytes and their contents. -/
structure Buffer where
  size : Nat
  cells : Memory
deriving DecidableEq, Repr

/-- The outcome triple of an operation (00_scope.md R17). `status` is `none` for the operations that
return no status (the getters, 42_buffer_ops.md R147 to R149, and CRC_TABLE_GEN, R121). -/
structure Result where
  ok : Bool
  value : Nat
  status : Option Status
deriving DecidableEq, Repr

/-- What the environment does before one poll of the inbound FIFO (R35, 60_exceptions.md R226): the
microseconds the time source advances by, and the bytes that then join the FIFO at its tail.
DESIGN CHOICE (assumption 9). -/
structure Arrival where
  elapsed : Nat
  bytes : List Byte
deriving DecidableEq, Repr

/-- The whole state: the engine (10_state.md R20), the operands and results it shares with the host,
and the environment (R35). -/
structure State where
  /-- the configuration registers (R21) -/
  cfg : Config
  /-- contents of the transmit staging buffer, of `cfg.txBufSize` bytes (R22) -/
  tx : Memory
  /-- contents of the receive staging buffer, of `cfg.rxBufSize` bytes (R23) -/
  rx : Memory
  /-- `tx_filled` (R25) -/
  txFilled : Nat
  /-- `rx_filled` (R26) -/
  rxFilled : Nat
  /-- `crc_table` (R28) -/
  crcTable : Vector Word 256
  /-- `cobs_status` (R31) -/
  cobsStatus : Status
  /-- `crc_status` (R31) -/
  crcStatus : Status
  /-- `xfer_status` (R31); it may hold a code of any layer -/
  xferStatus : Status
  /-- `fsm` (R33) -/
  fsm : Fsm
  /-- `bytes_read` (R33) -/
  bytesRead : Nat
  /-- `t_last` (R33) -/
  tLast : Nat
  /-- the operand buffer of the most recent stand-alone COBS or CRC operation (20_memory.md R50) -/
  buf : Buffer
  /-- what the sink `dst` of the most recent READ_PAYLOAD received (42_buffer_ops.md R140) -/
  dst : List Byte
  /-- the outcome of the most recent operation (R17); none before the first -/
  result : Option Result
  /-- Stream Port, the inbound FIFO: bytes arrived and not yet read, head first (R35, R226) -/
  inbound : List Byte
  /-- the environment's plan for the inbound side: what happens before each poll to come (R12, R35) -/
  arrivals : List Arrival
  /-- Stream Port, outbound: every byte `write_bytes` accepted, oldest first (R35, R226) -/
  outbound : List Byte
  /-- the time source, microseconds (R35, R224) -/
  now : Nat
  /-- the operations still to be issued, next first (00_scope.md R12) -/
  commands : List Issue
deriving DecidableEq, Repr

/-- Why the machine stops with a fault. -/
inductive Fault where
  /-- Raised by READ_PAYLOAD when the bytes asked for run past the end of `rx`, an index that does not
  exist (20_memory.md R50, R53). Safe: only states with `rx_filled` above MAX_RX_PAYLOAD reach it, and
  no run does (assumption 17). -/
  | bufferIndexOutOfRange
deriving DecidableEq, Repr

/-- Why the machine gives no next state. -/
inductive Refusal where
  /-- Raised by `exec` for an operation without a meaning in this model. Safe. -/
  | notModelled (mnemonic : String)
  /-- Raised by the step: the code selects no operation (30_encoding.md R85). Safe: the spec says
  refuse. -/
  | noSuchOperation (op : Byte)
  /-- Raised by the step: the operands beside the code are not those of the operation (R83). Safe. -/
  | operandKinds (op : Byte)
  /-- Raised by the step: CRC_TABLE_GEN issued by the host, or another operation by the reset sequence
  (41_crc.md R122, 93_implementation_defined.md V4). Safe: the spec says refuse. -/
  | notIssuable
  /-- Raised by WRITE_PAYLOAD: `src` holds fewer than `len` bytes (42_buffer_ops.md R140, U12). Safe:
  the spec says refuse. -/
  | sourceTooShort
  /-- Raised by CRC_APPEND: the value is wider than the `8*W` bits of the operand `crc` (R83). Safe. -/
  | crcOperandTooWide
  /-- Raised by the step: the configuration is none of this hardware (00_scope.md R10, U3). Safe: the
  spec says refuse. -/
  | illegalConfiguration
deriving DecidableEq, Repr

/-- The state after construction with a configuration: the table of R36. The values the spec leaves to
the environment or unspecified are those of assumptions 3, 6, 7, 8, 9, 11, 12 and 13. -/
def State.construct (cfg : Config) : State where
  cfg := cfg
  tx := []
  rx := []
  txFilled := 0
  rxFilled := 0
  crcTable := Machine.crcTable cfg.width cfg.polynomial
  cobsStatus := .cobsStandby
  crcStatus := .crcStandby
  xferStatus := .transferStandby
  fsm := .idle
  bytesRead := 0
  tLast := 0
  buf := ⟨0, []⟩
  dst := []
  result := none
  inbound := []
  arrivals := []
  outbound := []
  now := 0
  commands := []

/-- The machine right after reset, constructed with the typical configuration (assumption 1). -/
def State.reset : State := State.construct Config.typical

end Sys2Proof.Machine
end

