-- ==== Sys2Proof/Machine/Flags.lean ====
section
/-! DEFINITION. The flags of this block: the status codes (30_encoding.md R80) and the three status
registers that latch them (10_state.md R31). There are no arithmetic condition codes (R32). -/

namespace Sys2Proof.Machine

/-- The 8-bit number of each status code (R80; the numbers are the spec's decision D3). -/
def Status.code : Status → Byte
  | .cobsStandby => 11
  | .encodePayloadTooSmall => 12
  | .encodePayloadTooLarge => 13
  | .encodeBufferTooSmall => 14
  | .encodeAlreadyEncoded => 15
  | .payloadEncoded => 16
  | .decodePacketTooSmall => 17
  | .decodePacketTooLarge => 18
  | .decodeBufferTooSmall => 19
  | .delimiterNotFound => 20
  | .delimiterTooEarly => 21
  | .decodeAlreadyDecoded => 22
  | .payloadDecoded => 23
  | .crcStandby => 51
  | .computeBufferTooSmall => 52
  | .checksumComputed => 53
  | .appendBufferTooSmall => 54
  | .checksumAppended => 55
  | .extractBufferTooSmall => 56
  | .checksumExtracted => 57
  | .transferStandby => 101
  | .packetSent => 102
  | .packetReceived => 103
  | .noBytesToParse => 104
  | .startByteNotFound => 105
  | .packetTimeout => 106
  | .packetOutOfBufferSpace => 107
  | .postambleTimeout => 108
  | .crcCheckFailed => 109
  | .writePayloadTooSmall => 110
  | .readPayloadTooSmall => 111
  | .payloadWritten => 112
  | .payloadRead => 113

/-- The layer whose code space holds the status (R80). -/
def Status.layer : Status → Layer
  | .cobsStandby => .cobs
  | .encodePayloadTooSmall => .cobs
  | .encodePayloadTooLarge => .cobs
  | .encodeBufferTooSmall => .cobs
  | .encodeAlreadyEncoded => .cobs
  | .payloadEncoded => .cobs
  | .decodePacketTooSmall => .cobs
  | .decodePacketTooLarge => .cobs
  | .decodeBufferTooSmall => .cobs
  | .delimiterNotFound => .cobs
  | .delimiterTooEarly => .cobs
  | .decodeAlreadyDecoded => .cobs
  | .payloadDecoded => .cobs
  | .crcStandby => .crc
  | .computeBufferTooSmall => .crc
  | .checksumComputed => .crc
  | .appendBufferTooSmall => .crc
  | .checksumAppended => .crc
  | .extractBufferTooSmall => .crc
  | .checksumExtracted => .crc
  | .transferStandby => .transfer
  | .packetSent => .transfer
  | .packetReceived => .transfer
  | .noBytesToParse => .transfer
  | .startByteNotFound => .transfer
  | .packetTimeout => .transfer
  | .packetOutOfBufferSpace => .transfer
  | .postambleTimeout => .transfer
  | .crcCheckFailed => .transfer
  | .writePayloadTooSmall => .transfer
  | .readPayloadTooSmall => .transfer
  | .payloadWritten => .transfer
  | .payloadRead => .transfer

/-- The four kinds of failure (60_exceptions.md R201). -/
inductive FailureKind where
  | usage
  | integrity
  | timing
  | framing
deriving DecidableEq, Repr

/-- The kinds R202 gives a failure of an operation; none for a success or an idle code.
DecodePacketTooSmall is a usage error of COBS_DECODE and an integrity error when it comes from RECEIVE;
PacketOutOfBufferSpace is given both kinds there. -/
def Status.kinds (o : Opcode) : Status → List FailureKind
  | .cobsStandby => []
  | .encodePayloadTooSmall => [.usage]
  | .encodePayloadTooLarge => [.usage]
  | .encodeBufferTooSmall => [.usage]
  | .encodeAlreadyEncoded => [.usage]
  | .payloadEncoded => []
  | .decodePacketTooSmall => if o = .receive then [.integrity] else [.usage]
  | .decodePacketTooLarge => [.usage]
  | .decodeBufferTooSmall => [.usage]
  | .delimiterNotFound => [.integrity]
  | .delimiterTooEarly => [.integrity]
  | .decodeAlreadyDecoded => [.usage]
  | .payloadDecoded => []
  | .crcStandby => []
  | .computeBufferTooSmall => [.usage]
  | .checksumComputed => []
  | .appendBufferTooSmall => [.usage]
  | .checksumAppended => []
  | .extractBufferTooSmall => [.usage]
  | .checksumExtracted => []
  | .transferStandby => []
  | .packetSent => []
  | .packetReceived => []
  | .noBytesToParse => [.framing]
  | .startByteNotFound => [.framing]
  | .packetTimeout => [.timing]
  | .packetOutOfBufferSpace => [.integrity, .usage]
  | .postambleTimeout => [.timing]
  | .crcCheckFailed => [.integrity]
  | .writePayloadTooSmall => [.usage]
  | .readPayloadTooSmall => [.usage]
  | .payloadWritten => []
  | .payloadRead => []

/-- The column "Raised by" of R202: the operations that raise a failure; none for a success or an idle
code. RECEIVE raises DelimiterTooEarly and DecodeAlreadyDecoded only for `D != 0`. -/
def Status.raisers : Status → List Opcode
  | .cobsStandby => []
  | .encodePayloadTooSmall => [.cobsEncode, .send]
  | .encodePayloadTooLarge => [.cobsEncode]
  | .encodeBufferTooSmall => [.cobsEncode]
  | .encodeAlreadyEncoded => [.cobsEncode]
  | .payloadEncoded => []
  | .decodePacketTooSmall => [.cobsDecode, .receive]
  | .decodePacketTooLarge => [.cobsDecode]
  | .decodeBufferTooSmall => [.cobsDecode]
  | .delimiterNotFound => [.cobsDecode, .receive]
  | .delimiterTooEarly => [.cobsDecode, .receive]
  | .decodeAlreadyDecoded => [.cobsDecode, .receive]
  | .payloadDecoded => []
  | .crcStandby => []
  | .computeBufferTooSmall => [.crcCompute]
  | .checksumComputed => []
  | .appendBufferTooSmall => [.crcAppend]
  | .checksumAppended => []
  | .extractBufferTooSmall => [.crcExtract]
  | .checksumExtracted => []
  | .transferStandby => []
  | .packetSent => []
  | .packetReceived => []
  | .noBytesToParse => [.receive]
  | .startByteNotFound => [.receive]
  | .packetTimeout => [.receive]
  | .packetOutOfBufferSpace => [.receive]
  | .postambleTimeout => [.receive]
  | .crcCheckFailed => [.receive]
  | .writePayloadTooSmall => [.writePayload]
  | .readPayloadTooSmall => [.readPayload]
  | .payloadWritten => []
  | .payloadRead => []

/-- Latch a status code in the register of a layer (R31). The transfer register also takes the code of
a sub-layer operation that failed inside SEND or RECEIVE (60_exceptions.md R203). -/
def State.latch (s : State) (l : Layer) (st : Status) : State :=
  match l with
  | .cobs => { s with cobsStatus := st }
  | .crc => { s with crcStatus := st }
  | .transfer => { s with xferStatus := st }

/-- The status register of a layer (R31). -/
def State.statusOf (s : State) (l : Layer) : Status :=
  match l with
  | .cobs => s.cobsStatus
  | .crc => s.crcStatus
  | .transfer => s.xferStatus

end Sys2Proof.Machine
end

