-- ==== Sys2Proof/Machine/Ops.lean ====
section
/-! DEFINITION. The shared operations over memory and registers: byte memories, buffers, returning an
outcome (what this block has in place of taking an exception), and the Stream Port. -/

namespace Sys2Proof.Machine

/-! ## Byte memories -/

/-- The byte at an index; 0 where no cell is listed (10_state.md R24). -/
def Memory.read : Memory → Nat → Byte
  | [], _ => 0
  | (a, v) :: m, i => if a = i then v else Memory.read m i

/-- Drop the cell of an index. -/
def Memory.erase (m : Memory) (i : Nat) : Memory := m.filter fun c => c.1 != i

/-- Put a cell before the first cell of a higher index. -/
def Memory.insert : Memory → Nat → Byte → Memory
  | [], i, v => [(i, v)]
  | (a, w) :: m, i, v => if i < a then (i, v) :: (a, w) :: m else (a, w) :: Memory.insert m i v

/-- `buf[i] <- v` on the cells (00_scope.md R15). Writing 0, what an unlisted index reads as, leaves no
cell, so that equal contents are equal lists (assumption 14). -/
def Memory.write (m : Memory) (i : Nat) (v : Byte) : Memory :=
  if v = 0 then Memory.erase m i else Memory.insert (Memory.erase m i) i v

/-- The canonical form of the contents of a buffer of `size` bytes: indices strictly rising and below
`size`, no cell holding 0. -/
def Memory.wf (size : Nat) : Memory → Bool
  | [] => true
  | (a, v) :: m => decide (a < size) && decide (v ≠ 0) && m.all (fun c => decide (a < c.1)) && Memory.wf size m

/-! ## Buffers -/

/-- `buf[i]` (R15). The operations read only below `size`, by their bounds checks (20_memory.md R53). -/
def Buffer.get (b : Buffer) (i : Nat) : Byte := Memory.read b.cells i

/-- `buf[i] <- v` (R15). The operations write only below `size`, by their bounds checks (R53). -/
def Buffer.set (b : Buffer) (i : Nat) (v : Byte) : Buffer := { b with cells := Memory.write b.cells i v }

/-- The `n` bytes from `start` on: `buf[start..start+n)` (R15). -/
def Buffer.slice (b : Buffer) : Nat → Nat → List Byte
  | _, 0 => []
  | start, n + 1 => b.get start :: Buffer.slice b (start + 1) n

/-- Write a list of bytes from `start` on, one byte at a time in index order. -/
def Buffer.setBytes (b : Buffer) (start : Nat) : List Byte → Buffer
  | [] => b
  | v :: vs => Buffer.setBytes (b.set start v) (start + 1) vs

/-- A slice that must lie inside the buffer: none where an index does not exist (R50). -/
def Buffer.sliceChecked (b : Buffer) (start n : Nat) : Option (List Byte) :=
  if start + n ≤ b.size then some (b.slice start n) else none

/-- All bytes of a buffer, index 0 first. -/
def Buffer.toBytes (b : Buffer) : List Byte := b.slice 0 b.size

/-- `tx` as a buffer: its size is fixed by the configuration (10_state.md R22). -/
def State.txBuf (s : State) : Buffer := ⟨s.cfg.txBufSize, s.tx⟩

/-- `rx` as a buffer: its size is fixed by the configuration (10_state.md R23). -/
def State.rxBuf (s : State) : Buffer := ⟨s.cfg.rxBufSize, s.rx⟩

/-- `tx_filled <- 0 ; tx[0] <- 0`: RESET_TX without its status (42_buffer_ops.md R145), also the last
step of a successful SEND (43_send.md R160). -/
def State.clearTx (s : State) : State := { s with txFilled := 0, tx := Memory.write s.tx 0 0 }

/-- `rx_filled <- 0 ; rx[0] <- 0`: RESET_RX without its status (42_buffer_ops.md R146), also the first
step of every RECEIVE (44_receive.md R171). -/
def State.clearRx (s : State) : State := { s with rxFilled := 0, rx := Memory.write s.rx 0 0 }

/-! ## Outcomes: what stands in for taking an exception

"Trap entry" for this block is the act of returning a failure (60_exceptions.md R210): no state is
saved, control goes nowhere, and the code is latched. There is no return from it and nothing to restore
(R211). -/

/-- Hand the outcome triple to the host (00_scope.md R17). -/
def State.return (s : State) (ok : Bool) (value : Nat) (status : Option Status) : State :=
  { s with result := some ⟨ok, value, status⟩ }

/-- `fail <Name>` (R17, R200): `ok = false`, `value = 0`, the code in the layer's status register, no
further change. -/
def State.fail (s : State) (l : Layer) (st : Status) : State := (s.latch l st).return false 0 (some st)

/-- `succeed <Name>(v)` (R17): `ok = true`, `value = v`, the code in the layer's status register. -/
def State.succeed (s : State) (l : Layer) (st : Status) (v : Nat) : State :=
  (s.latch l st).return true v (some st)

/-- The outcome `(true, v, -)` of an operation that writes no status register (42_buffer_ops.md R147). -/
def State.answer (s : State) (v : Nat) : State := s.return true v none

/-- The outcome of a COBS or CRC operation on a buffer, wherever it is invoked from: the triple and the
buffer it leaves. -/
structure OpResult where
  ok : Bool
  value : Nat
  status : Status
  buf : Buffer
deriving DecidableEq, Repr

/-- A failed operation on a buffer: `value = 0` (R17) and the buffer as it then is. -/
def OpResult.failed (st : Status) (b : Buffer) : OpResult := ⟨false, 0, st, b⟩

/-- Return the outcome of a stand-alone operation to the host (R17), its buffer back with it. -/
def State.report (s : State) (l : Layer) (r : OpResult) : State :=
  if r.ok then State.succeed { s with buf := r.buf } l r.status r.value
  else State.fail { s with buf := r.buf } l r.status

/-! ## The Stream Port and the time source (60_exceptions.md R224, R226) -/

/-- The inbound side of the Stream Port, with the time source and the environment's plan. -/
structure Port where
  fifo : List Byte
  now : Nat
  arrivals : List Arrival
deriving DecidableEq, Repr

/-- The inbound side of the port of an engine. -/
def State.port (s : State) : Port := ⟨s.inbound, s.now, s.arrivals⟩

/-- The state after reads of the port. -/
def State.putPort (s : State) (p : Port) : State :=
  { s with inbound := p.fifo, now := p.now, arrivals := p.arrivals }

/-- Every byte the inbound side still holds or will bring, in order. -/
def Port.stream (p : Port) : List Byte := p.fifo ++ p.arrivals.flatMap Arrival.bytes

/-- What happens before a poll: time passes and bytes join the FIFO. When the plan has come to its end,
nothing arrives any more (assumption 10). -/
def Port.pass (p : Port) : Port :=
  match p.arrivals with
  | [] => p
  | a :: as => ⟨p.fifo ++ a.bytes, p.now + a.elapsed, as⟩

/-- What a read of the inbound side gives: a byte or none, and the port it leaves. -/
structure PortRead where
  byte : Option Byte
  port : Port
deriving DecidableEq, Repr

/-- `bytes_available()` (R226): the current length of the inbound FIFO. The engine never calls it; it is
there for the host. -/
def bytesAvailable (p : Port) : Nat := p.fifo.length

/-- `try_read_byte()` (R18, R226): never blocks; takes the byte at the head of the FIFO, if any. -/
def tryReadByte (p : Port) : PortRead :=
  match p.fifo with
  | [] => ⟨none, p⟩
  | b :: bs => ⟨some b, { p with fifo := bs }⟩

/-- One poll of the engine: what the environment does before it, then `try_read_byte()`. -/
def Port.poll (p : Port) : PortRead := tryReadByte p.pass

/-- The loop of `await_byte()` (44_receive.md R176), along the plan of arrivals: poll; a byte available is
always taken; on an empty poll the wait ends when `now_us() - t_last >= TIMEOUT_US`. At the end of the
plan nothing arrives any more, and the wait ends at the first moment that test holds (assumption 10). -/
def awaitFrom (timeout tLast : Nat) : List Arrival → List Byte → Nat → PortRead
  | [], fifo, now =>
    let r := Port.poll ⟨fifo, now, []⟩
    match r.byte with
    | some b => ⟨some b, r.port⟩
    | none =>
      if timeout ≤ r.port.now - tLast then ⟨none, r.port⟩ else ⟨none, { r.port with now := tLast + timeout }⟩
  | a :: as, fifo, now =>
    let r := Port.poll ⟨fifo, now, a :: as⟩
    match r.byte with
    | some b => ⟨some b, r.port⟩
    | none =>
      if timeout ≤ r.port.now - tLast then ⟨none, r.port⟩ else awaitFrom timeout tLast as r.port.fifo r.port.now

/-- `await_byte()` (R176); `none` is the answer Timeout. -/
def awaitByte (timeout tLast : Nat) (p : Port) : PortRead := awaitFrom timeout tLast p.arrivals p.fifo p.now

/-- `write_bytes(list)` (R18, R226): appends the list, in order; accepted at once (assumption 12). -/
def State.writeBytes (s : State) (l : List Byte) : State := { s with outbound := s.outbound ++ l }

end Sys2Proof.Machine
end

