-- ==== Sys2Proof/Machine/Operands.lean ====
section
/-! DEFINITION. The operand forms of 30_encoding.md R83 and R77: operand buffers, payload indices,
`src`, and CRC values as bytes. -/

namespace Sys2Proof.Machine

/-- Write a list of bytes into cells, from an index on. -/
def Memory.ofBytes (start : Nat) : List Byte → Memory
  | [] => []
  | v :: vs => if v = 0 then Memory.ofBytes (start + 1) vs else (start, v) :: Memory.ofBytes (start + 1) vs

/-- The operand buffer presented by the caller: `len(buf)` is the number of bytes presented (R83). -/
def Buffer.ofBytes (l : List Byte) : Buffer := ⟨l.length, Memory.ofBytes 0 l⟩

/-- Logical payload index `k` is buffer index `k + 1` (20_memory.md R55). -/
def payloadIndex (k : Nat) : Nat := k + 1

/-- The bytes WRITE_PAYLOAD uses: the first `len` of `src`; none where the host supplied fewer
(42_buffer_ops.md R140). -/
def sourceBytes (src : List Byte) (len : Nat) : Option (List Byte) :=
  if len ≤ src.length then some (src.take len) else none

/-- The operand `crc` of CRC_APPEND: an `8*W`-bit value (R83). -/
def crcOperand (w : CrcWidth) (crc : Word) : Option Word := if w.fits crc then some crc else none

/-- A CRC as its `W` bytes, most significant first: byte `k` is `trunc_8(crc >> (8*(W-1-k)))`
(R77 d, 20_memory.md R51). -/
def crcToBytes (w : CrcWidth) (crc : Word) : List Byte :=
  (List.range w.bytes).map fun k => (crc >>> (8 * (w.bytes - 1 - k))).setWidth 8

/-- A CRC from its bytes, most significant first: `c <- (c << 8) XOR zext(byte)` (R77 e,
41_crc.md R127). -/
def crcOfBytes (w : CrcWidth) (l : List Byte) : Word :=
  l.foldl (fun c b => crcShl w c 8 ^^^ b.setWidth 32) 0

end Sys2Proof.Machine
end

