-- ==== Sys2Proof/Machine/Codec.lean ====
section
/-! DEFINITION. The COBS codec (40_cobs.md) as operations on a buffer, used stand-alone and by SEND and
RECEIVE on the staging buffers. -/

namespace Sys2Proof.Machine

/-- The reverse scan of R102, in place, for indices `i, i-1, ..., 1`; `last` is the index written most
recently, 0 for none. Gives the final `last` and the buffer. -/
def encodeScan (d : Byte) (p : Nat) : Nat → Nat → Buffer → Nat × Buffer
  | 0, last, b => (last, b)
  | i + 1, last, b =>
    if b.get (i + 1) = d then
      encodeScan d p i (i + 1)
        (b.set (i + 1) (BitVec.ofNat 8 (if last = 0 then p + 1 - (i + 1) else last - (i + 1))))
    else encodeScan d p i last b

/-- COBS_ENCODE on a buffer: the preconditions of R101 in their order, then the algorithm of R102. -/
def cobsEncode (b : Buffer) (p : Nat) (d : Byte) : OpResult :=
  if p = 0 then .failed .encodePayloadTooSmall b
  else if 254 < p then .failed .encodePayloadTooLarge b
  else if b.size < p + 2 then .failed .encodeBufferTooSmall b
  else if b.get 0 ≠ 0 then .failed .encodeAlreadyEncoded b
  else
    let scanned := encodeScan d p p 0 (b.set (p + 1) d)
    ⟨true, p + 2, .payloadEncoded,
      scanned.2.set 0 (BitVec.ofNat 8 (if scanned.1 ≠ 0 then scanned.1 else p + 1))⟩

/-- The loop of R107, at most `fuel` iterations. The loop ends within `L + 1` (R108), so the case of no
fuel is never taken (assumption 23). -/
def decodeChain (d : Byte) (l : Nat) : Nat → Nat → Nat → Buffer → OpResult
  | 0, _, _, b => .failed .delimiterNotFound b
  | fuel + 1, r, n, b =>
    if r + n < l then
      if b.get (r + n) = d then
        if r + n = l - 1 then ⟨true, l - 2, .payloadDecoded, b⟩
        else .failed .delimiterTooEarly b
      else decodeChain d l fuel (r + n) (b.get (r + n)).toNat (b.set (r + n) d)
    else .failed .delimiterNotFound b

/-- COBS_DECODE on a buffer: the preconditions of R106 in their order, then the algorithm of R107. -/
def cobsDecode (b : Buffer) (l : Nat) (d : Byte) : OpResult :=
  if l < 3 then .failed .decodePacketTooSmall b
  else if 256 < l then .failed .decodePacketTooLarge b
  else if b.size < l then .failed .decodeBufferTooSmall b
  else if b.get 0 = 0 then .failed .decodeAlreadyDecoded b
  else decodeChain d l (l + 1) 0 (b.get 0).toNat (b.set 0 0)

end Sys2Proof.Machine
end

