-- ==== Sys2Proof/Machine/Cobs.lean ====
section
/-! DEFINITION. The meanings of COBS_ENCODE and COBS_DECODE issued stand-alone (40_cobs.md). -/

namespace Sys2Proof.Machine

/-- COBS_ENCODE buf, P, D (R100). -/
def execCobsEncode (buf : List Byte) (p : Nat) (d : Byte) (s : State) : Host.Outcome State Fault Refusal :=
  .next (s.report .cobs (cobsEncode (Buffer.ofBytes buf) p d))

/-- COBS_DECODE buf, L, D (R105). -/
def execCobsDecode (buf : List Byte) (l : Nat) (d : Byte) (s : State) : Host.Outcome State Fault Refusal :=
  .next (s.report .cobs (cobsDecode (Buffer.ofBytes buf) l d))

end Sys2Proof.Machine
end

