-- ==== Sys2Proof/Machine/Checksum.lean ====
section
/-! DEFINITION. The CRC engine (41_crc.md) as operations on a buffer, used stand-alone and by SEND and
RECEIVE on the staging buffers. -/

namespace Sys2Proof.Machine

/-- The index of R123: `((c >> (8*(W-1))) XOR zext(b)) & 0xFF`. -/
def crcIndex (w : CrcWidth) (c : Word) (b : Byte) : Byte :=
  ((c >>> (8 * (w.bytes - 1))) ^^^ b.setWidth 32).setWidth 8

/-- One byte of the loop of R123: `c <- (c << 8) XOR crc_table[idx]`. -/
def crcUpdate (w : CrcWidth) (table : Vector Word 256) (c : Word) (b : Byte) : Word :=
  crcShl w c 8 ^^^ table[(crcIndex w c b).toNat]'(crcIndex w c b).isLt

/-- The value of R123 over a list of bytes: from `INITIAL_VALUE`, one update a byte, and `FINAL_XOR`
once at the end. -/
def crcOver (cfg : Config) (table : Vector Word 256) (l : List Byte) : Word :=
  l.foldl (crcUpdate cfg.width table) cfg.initialValue ^^^ cfg.finalXor

/-- CRC_COMPUTE on a buffer (R123). -/
def crcCompute (cfg : Config) (table : Vector Word 256) (b : Buffer) (start len : Nat) : OpResult :=
  if b.size < start + len then .failed .computeBufferTooSmall b
  else ⟨true, (crcOver cfg table (b.slice start len)).toNat, .checksumComputed, b⟩

/-- CRC_APPEND on a buffer (R125). -/
def crcAppend (w : CrcWidth) (b : Buffer) (start : Nat) (crc : Word) : OpResult :=
  if b.size < start + w.bytes then .failed .appendBufferTooSmall b
  else ⟨true, start + w.bytes, .checksumAppended, b.setBytes start (crcToBytes w crc)⟩

/-- CRC_EXTRACT on a buffer (R127). -/
def crcExtract (w : CrcWidth) (b : Buffer) (start : Nat) : OpResult :=
  if b.size < start + w.bytes then .failed .extractBufferTooSmall b
  else ⟨true, (crcOfBytes w (b.slice start w.bytes)).toNat, .checksumExtracted, b⟩

end Sys2Proof.Machine
end

