-- ==== Sys2Proof/Machine/Crc.lean ====
section
/-! DEFINITION. The meanings of the CRC engine's operations issued stand-alone (41_crc.md). -/

namespace Sys2Proof.Machine

/-- CRC_TABLE_GEN (R121): writes all 256 entries of `crc_table` from `W` and `POLYNOMIAL`, no status
register; it cannot fail. -/
def execCrcTableGen (s : State) : Host.Outcome State Fault Refusal :=
  .next (State.answer { s with crcTable := crcTable s.cfg.width s.cfg.polynomial } 0)

/-- CRC_COMPUTE buf, start, len (R123). -/
def execCrcCompute (buf : List Byte) (start len : Nat) (s : State) : Host.Outcome State Fault Refusal :=
  .next (s.report .crc (crcCompute s.cfg s.crcTable (Buffer.ofBytes buf) start len))

/-- CRC_APPEND buf, start, crc (R125). A value of more than `8*W` bits is no operand of this operation
(30_encoding.md R83). -/
def execCrcAppend (buf : List Byte) (start : Nat) (crc : Word) (s : State) : Host.Outcome State Fault Refusal :=
  match crcOperand s.cfg.width crc with
  | none => .refused .crcOperandTooWide
  | some c => .next (s.report .crc (crcAppend s.cfg.width (Buffer.ofBytes buf) start c))

/-- CRC_EXTRACT buf, start (R127). -/
def execCrcExtract (buf : List Byte) (start : Nat) (s : State) : Host.Outcome State Fault Refusal :=
  .next (s.report .crc (crcExtract s.cfg.width (Buffer.ofBytes buf) start))

end Sys2Proof.Machine
end

