-- ==== Sys2Proof/Machine/Receive.lean ====
section
/-! DEFINITION. The receive parser: the sequencer of 44_receive.md and the meaning of RECEIVE. -/

namespace Sys2Proof.Machine

/-- The scan of a FIFO to which nothing is added any more. -/
def scanFifo (start : Byte) (now : Nat) : List Byte → PortRead
  | [] => ⟨none, ⟨[], now, []⟩⟩
  | b :: bs => if b = start then ⟨some b, ⟨bs, now, []⟩⟩ else scanFifo start now bs

/-- The scan along the plan of arrivals. -/
def scanFrom (start : Byte) : List Arrival → List Byte → Nat → PortRead
  | [], fifo, now => scanFifo start now fifo
  | a :: as, fifo, now =>
    let r := Port.poll ⟨fifo, now, a :: as⟩
    match r.byte with
    | none => ⟨none, r.port⟩
    | some b => if b = start then ⟨some b, r.port⟩ else scanFrom start as r.port.fifo r.port.now

/-- ScanningForStart (R173): take bytes until one equals START_BYTE, which is discarded, or the stream
drains: `try_read_byte()` answers none. There is no waiting in this state. -/
def scanForStart (start : Byte) (p : Port) : PortRead := scanFrom start p.arrivals p.fifo p.now

/-- What the two storing states work on. -/
structure RxLoop where
  rx : Memory
  bytesRead : Nat
  tLast : Nat
  port : Port
deriving DecidableEq, Repr

/-- How the loop of ReceivingPacket ends (R177). -/
inductive PacketEnd where
  | delimiter
  | timeout
  | full
deriving DecidableEq, Repr

/-- The delimiter scanner (R177), for `room` more bytes: each byte is stored first and compared with
`D` second, the byte at index 0 like every other (R178). -/
def storePacket (timeout : Nat) (d : Byte) : Nat → RxLoop → PacketEnd × RxLoop
  | 0, q => (.full, q)
  | room + 1, q =>
    let a := awaitByte timeout q.tLast q.port
    match a.byte with
    | none => (.timeout, { q with port := a.port })
    | some b =>
      let q' : RxLoop := ⟨Memory.write q.rx q.bytesRead b, q.bytesRead + 1, a.port.now, a.port⟩
      if b = d then (.delimiter, q') else storePacket timeout d room q'

/-- ReceivingPostamble (R179): `n` more bytes, each awaited on its own, from index
`bytes_read + k` on; `bytes_read` itself stays. True when all were stored. -/
def storePostamble (timeout : Nat) : Nat → Nat → RxLoop → Bool × RxLoop
  | 0, _, q => (true, q)
  | n + 1, k, q =>
    let a := awaitByte timeout q.tLast q.port
    match a.byte with
    | none => (false, { q with port := a.port })
    | some b =>
      storePostamble timeout n (k + 1) ⟨Memory.write q.rx (q.bytesRead + k) b, q.bytesRead, a.port.now, a.port⟩

/-- The registers the storing states work on. -/
def State.rxLoop (s : State) : RxLoop := ⟨s.rx, s.bytesRead, s.tLast, s.port⟩

/-- The registers after a storing state. -/
def State.putRxLoop (s : State) (q : RxLoop) : State :=
  { s.putPort q.port with rx := q.rx, bytesRead := q.bytesRead, tLast := q.tLast }

/-- The status of a RECEIVE that found no start byte (R173). -/
def noStartStatus (cfg : Config) : Status :=
  if cfg.allowStartByteErrors then .startByteNotFound else .noBytesToParse

/-- ScanningForStart, and the entry of ReceivingPacket: `bytes_read <- 0`, `t_last <- now_us()`
(R173, R175). -/
def State.scanStage (s : State) : State :=
  let a := scanForStart s.cfg.startByte s.port
  let s' := s.putPort a.port
  match a.byte with
  | none => { s' with fsm := .error (noStartStatus s.cfg) }
  | some _ => { s' with bytesRead := 0, tLast := a.port.now, fsm := .receivingPacket }

/-- ReceivingPacket (R177). -/
def State.packetStage (s : State) : State :=
  let r := storePacket s.cfg.timeoutUs s.cfg.delimiterByte (s.cfg.rxPacketLimit - s.bytesRead) s.rxLoop
  let s' := s.putRxLoop r.2
  match r.1 with
  | .delimiter => { s' with fsm := .receivingPostamble }
  | .timeout => { s' with fsm := .error .packetTimeout }
  | .full => { s' with fsm := .error .packetOutOfBufferSpace }

/-- ReceivingPostamble (R179). -/
def State.postambleStage (s : State) : State :=
  let r := storePostamble s.cfg.timeoutUs s.cfg.width.bytes 0 s.rxLoop
  let s' := s.putRxLoop r.2
  if r.1 then { s' with fsm := .validating } else { s' with fsm := .error .postambleTimeout }

/-- Validating (R180): CRC over packet and postamble together must be 0; an error of CRC_COMPUTE itself
is surfaced. -/
def State.validateStage (s : State) : State :=
  let c := crcCompute s.cfg s.crcTable s.rxBuf 0 (s.bytesRead + s.cfg.width.bytes)
  let s' := s.latch .crc c.status
  if c.ok then
    if c.value = 0 then { s' with fsm := .decoded } else { s' with fsm := .error .crcCheckFailed }
  else { s' with fsm := .error c.status }

/-- Decoded (R181): COBS_DECODE on the packet; on success `rx_filled` is the payload length and RECEIVE
succeeds, on failure the COBS code is surfaced. -/
def State.decodeStage (s : State) : State :=
  let r := cobsDecode s.rxBuf s.bytesRead s.cfg.delimiterByte
  let s' := State.latch { s with rx := r.buf.cells } .cobs r.status
  if r.ok then State.succeed { s' with rxFilled := r.value, fsm := .idle } .transfer .packetReceived 0
  else { s' with fsm := .error r.status }

/-- Error(kind) to Idle (R172, R182): the kind is the returned status. -/
def State.errorStage (s : State) (kind : Status) : State :=
  State.fail { s with fsm := .idle } .transfer kind

/-- One transition of the sequencer (R172). Idle stays: a RECEIVE must be issued to leave it. -/
def State.fsmStep (s : State) : State :=
  match s.fsm with
  | .idle => s
  | .scanningForStart => s.scanStage
  | .receivingPacket => s.packetStage
  | .receivingPostamble => s.postambleStage
  | .validating => s.validateStage
  | .decoded => s.decodeStage
  | .error kind => s.errorStage kind

/-- Idle to ScanningForStart (R171): RESET_RX's effect, then the scan. -/
def State.enterReceive (s : State) : State := { s.clearRx with fsm := .scanningForStart }

/-- `n` transitions of the sequencer. -/
def State.runSequencer : Nat → State → State
  | 0, s => s
  | n + 1, s => State.runSequencer n s.fsmStep

/-- RECEIVE (R170). The sequencer goes forward only (R172), through at most five states and one error
exit, so it is back in Idle after six transitions. -/
def execReceive (s : State) : Host.Outcome State Fault Refusal := .next (s.enterReceive.runSequencer 6)

end Sys2Proof.Machine
end

