-- ==== Sys2Proof/Machine/Staging.lean ====
section
/-! DEFINITION. The meanings of the staging-buffer operations and the getters (42_buffer_ops.md). -/

namespace Sys2Proof.Machine

/-- The state change of a successful WRITE_PAYLOAD (R141): the bytes into the payload region and
`tx_filled <- max(tx_filled, offset + len)`. -/
def State.stagePayload (s : State) (offset len : Nat) (bytes : List Byte) : State :=
  { s with
    tx := (s.txBuf.setBytes (payloadIndex offset) bytes).cells
    txFilled := max s.txFilled (offset + len) }

/-- WRITE_PAYLOAD src, offset, len (R141). -/
def execWritePayload (src : List Byte) (offset len : Nat) (s : State) : Host.Outcome State Fault Refusal :=
  match sourceBytes src len with
  | none => .refused .sourceTooShort
  | some bytes =>
    if s.cfg.maxTxPayload < offset + len then .next (s.fail .transfer .writePayloadTooSmall)
    else .next ((s.stagePayload offset len bytes).succeed .transfer .payloadWritten (offset + len))

/-- READ_PAYLOAD dst, offset, len (R143). On failure `dst` receives nothing (R140). -/
def execReadPayload (offset len : Nat) (s : State) : Host.Outcome State Fault Refusal :=
  if s.rxFilled < offset + len then .next (State.fail { s with dst := [] } .transfer .readPayloadTooSmall)
  else
    match s.rxBuf.sliceChecked (payloadIndex offset) len with
    | none => .fault .bufferIndexOutOfRange
    | some bytes => .next (State.succeed { s with dst := bytes } .transfer .payloadRead (offset + len))

/-- RESET_TX (R145). -/
def execResetTx (s : State) : Host.Outcome State Fault Refusal :=
  .next (s.clearTx.succeed .transfer .transferStandby 0)

/-- RESET_RX (R146). -/
def execResetRx (s : State) : Host.Outcome State Fault Refusal :=
  .next (s.clearRx.succeed .transfer .transferStandby 0)

/-- BYTES_IN_TX (R147). -/
def execBytesInTx (s : State) : Host.Outcome State Fault Refusal := .next (s.answer s.txFilled)

/-- BYTES_IN_RX (R148). -/
def execBytesInRx (s : State) : Host.Outcome State Fault Refusal := .next (s.answer s.rxFilled)

/-- GET_MAX_TX_PAYLOAD (R149). -/
def execGetMaxTxPayload (s : State) : Host.Outcome State Fault Refusal := .next (s.answer s.cfg.maxTxPayload)

/-- GET_MAX_RX_PAYLOAD (R149). -/
def execGetMaxRxPayload (s : State) : Host.Outcome State Fault Refusal := .next (s.answer s.cfg.maxRxPayload)

/-- GET_TX_BUFFER_SIZE (R149). -/
def execGetTxBufferSize (s : State) : Host.Outcome State Fault Refusal := .next (s.answer s.cfg.txBufSize)

/-- GET_RX_BUFFER_SIZE (R149). -/
def execGetRxBufferSize (s : State) : Host.Outcome State Fault Refusal := .next (s.answer s.cfg.rxBufSize)

end Sys2Proof.Machine
end

