-- ==== Sys2Proof/Machine/Transmit.lean ====
section
/-! DEFINITION. The transmit encoder: the meaning of SEND (43_send.md). -/

namespace Sys2Proof.Machine

/-- The effect of a sub-step on `tx` inside SEND: the buffer it leaves and its status in its layer's
register (R160, 10_state.md R31). -/
def State.txStep (s : State) (l : Layer) (r : OpResult) : State := State.latch { s with tx := r.buf.cells } l r.status

/-- Step (d) and (e) of R160: the preamble `[START_BYTE, P]`, then the frame bytes, then RESET_TX and
the outcome PacketSent. -/
def State.transmit (s : State) (p : Nat) (frame : List Byte) : State :=
  ((s.writeBytes [s.cfg.startByte, BitVec.ofNat 8 p]).writeBytes frame).clearTx.succeed .transfer .packetSent 0

/-- SEND (R160): COBS_ENCODE, CRC_COMPUTE and CRC_APPEND on `tx` in place, each failure surfaced
unchanged (60_exceptions.md R203), then the transmission. -/
def execSend (s : State) : Host.Outcome State Fault Refusal :=
  let e := cobsEncode s.txBuf s.txFilled s.cfg.delimiterByte
  let s1 := s.txStep .cobs e
  if e.ok then
    let c := crcCompute s.cfg s.crcTable e.buf 0 e.value
    let s2 := s1.txStep .crc c
    if c.ok then
      let a := crcAppend s.cfg.width e.buf e.value (BitVec.ofNat 32 c.value)
      let s3 := s2.txStep .crc a
      if a.ok then .next (s3.transmit s.txFilled (a.buf.slice 0 a.value))
      else .next (s3.fail .transfer a.status)
    else .next (s2.fail .transfer c.status)
  else .next (s1.fail .transfer e.status)

end Sys2Proof.Machine
end

