-- ==== Sys2Proof/Machine/Dispatch.lean ====
section
/-! DEFINITION. One operation executed to completion: the meaning of each constructor (30_encoding.md R84). -/

namespace Sys2Proof.Machine

def exec (i : Instr) (s : State) : Host.Outcome State Fault Refusal :=
  match i with
  | .cobsEncode buf p d => Sys2Proof.Machine.execCobsEncode buf p d s
  | .cobsDecode buf l d => Sys2Proof.Machine.execCobsDecode buf l d s
  | .crcTableGen => Sys2Proof.Machine.execCrcTableGen s
  | .crcCompute buf start len => Sys2Proof.Machine.execCrcCompute buf start len s
  | .crcAppend buf start crc => Sys2Proof.Machine.execCrcAppend buf start crc s
  | .crcExtract buf start => Sys2Proof.Machine.execCrcExtract buf start s
  | .writePayload src offset len => Sys2Proof.Machine.execWritePayload src offset len s
  | .readPayload offset len => Sys2Proof.Machine.execReadPayload offset len s
  | .resetTx => Sys2Proof.Machine.execResetTx s
  | .resetRx => Sys2Proof.Machine.execResetRx s
  | .send => Sys2Proof.Machine.execSend s
  | .receive => Sys2Proof.Machine.execReceive s
  | .bytesInTx => Sys2Proof.Machine.execBytesInTx s
  | .bytesInRx => Sys2Proof.Machine.execBytesInRx s
  | .getMaxTxPayload => Sys2Proof.Machine.execGetMaxTxPayload s
  | .getMaxRxPayload => Sys2Proof.Machine.execGetMaxRxPayload s
  | .getTxBufferSize => Sys2Proof.Machine.execGetTxBufferSize s
  | .getRxBufferSize => Sys2Proof.Machine.execGetRxBufferSize s

end Sys2Proof.Machine
end

