-- ==== Sys2Proof/WellFormed.lean ====
section
/-! DEFINITION. Which operations are well formed on an engine of CRC width `W`: their operands are of
the kinds of 30_encoding.md R83. An operand that only violates a precondition of its operation is NOT
ill formed: it is accepted and answered with a failure status (R85, 60_exceptions.md R201). -/

namespace Sys2Proof

/-- The operands are of their kinds (R83): `crc` is an `8*W`-bit value, `src` has at least `len`
bytes (42_buffer_ops.md R140). The other operands have no values outside their kinds. -/
def Instr.wf (w : CrcWidth) (i : Instr) : Bool :=
  match i with
  | .cobsEncode _ _ _ => true
  | .cobsDecode _ _ _ => true
  | .crcTableGen => true
  | .crcCompute _ _ _ => true
  | .crcAppend _ _ crc => w.fits crc
  | .crcExtract _ _ => true
  | .writePayload src _ len => decide (len ≤ src.length)
  | .readPayload _ _ => true
  | .resetTx => true
  | .resetRx => true
  | .send => true
  | .receive => true
  | .bytesInTx => true
  | .bytesInRx => true
  | .getMaxTxPayload => true
  | .getMaxRxPayload => true
  | .getTxBufferSize => true
  | .getRxBufferSize => true

end Sys2Proof
end

