-- ==== Sys2Proof/Decode.lean ====
section
/-! DEFINITION. Decoding a command of the format CMD (30_encoding.md R82 to R85), and the encoder,
both from the operation map of R84. -/

namespace Sys2Proof

/-- The operation select code of each operation (R84). -/
def Opcode.code : Opcode → Byte
  | .cobsEncode => 0x10
  | .cobsDecode => 0x11
  | .crcTableGen => 0x20
  | .crcCompute => 0x21
  | .crcAppend => 0x22
  | .crcExtract => 0x23
  | .writePayload => 0x30
  | .readPayload => 0x31
  | .resetTx => 0x32
  | .resetRx => 0x33
  | .send => 0x34
  | .receive => 0x35
  | .bytesInTx => 0x36
  | .bytesInRx => 0x37
  | .getMaxTxPayload => 0x38
  | .getMaxRxPayload => 0x39
  | .getTxBufferSize => 0x3A
  | .getRxBufferSize => 0x3B

/-- The operation a code selects, by high nibble (1 COBS codec, 2 CRC engine, 3 transfer engine) and
low nibble (R84); none for a reserved code (R85). -/
def Opcode.ofCode (op : Byte) : Option Opcode :=
  match op.toNat / 16, op.toNat % 16 with
  | 1, 0 => some .cobsEncode
  | 1, 1 => some .cobsDecode
  | 2, 0 => some .crcTableGen
  | 2, 1 => some .crcCompute
  | 2, 2 => some .crcAppend
  | 2, 3 => some .crcExtract
  | 3, 0 => some .writePayload
  | 3, 1 => some .readPayload
  | 3, 2 => some .resetTx
  | 3, 3 => some .resetRx
  | 3, 4 => some .send
  | 3, 5 => some .receive
  | 3, 6 => some .bytesInTx
  | 3, 7 => some .bytesInRx
  | 3, 8 => some .getMaxTxPayload
  | 3, 9 => some .getMaxRxPayload
  | 3, 10 => some .getTxBufferSize
  | 3, 11 => some .getRxBufferSize
  | _, _ => none

/-- Why a command is not an operation. -/
inductive DecodeError where
  /-- "no such operation": the code is none of R84 (R85) -/
  | noSuchOperation (op : Byte)
  /-- the operands beside the code are not of the operation's number and kinds (R83) -/
  | operandKinds (op : Byte)
deriving DecidableEq, Repr

/-- A natural number presented where the operation has a byte (`D`, R83). -/
def byteOperand (n : Nat) : Option Byte :=
  if n < 2 ^ 8 then some (BitVec.ofNat 8 n) else none

/-- A natural number presented where the operation has a CRC value (R83), of at most the widest
register; `Instr.wf` says whether it fits the engine's own width. -/
def wordOperand (n : Nat) : Option Word :=
  if n < 2 ^ 32 then some (BitVec.ofNat 32 n) else none

/-- The operands of the operation map (R84), in its order. -/
def takeOperands : Opcode → List Operand → Option Instr
  | .cobsEncode, [.bytes buf, .nat p, .nat d] => (byteOperand d).map (.cobsEncode buf p ·)
  | .cobsDecode, [.bytes buf, .nat l, .nat d] => (byteOperand d).map (.cobsDecode buf l ·)
  | .crcTableGen, [] => some .crcTableGen
  | .crcCompute, [.bytes buf, .nat start, .nat len] => some (.crcCompute buf start len)
  | .crcAppend, [.bytes buf, .nat start, .nat crc] => (wordOperand crc).map (.crcAppend buf start ·)
  | .crcExtract, [.bytes buf, .nat start] => some (.crcExtract buf start)
  | .writePayload, [.bytes src, .nat offset, .nat len] => some (.writePayload src offset len)
  | .readPayload, [.nat offset, .nat len] => some (.readPayload offset len)
  | .resetTx, [] => some .resetTx
  | .resetRx, [] => some .resetRx
  | .send, [] => some .send
  | .receive, [] => some .receive
  | .bytesInTx, [] => some .bytesInTx
  | .bytesInRx, [] => some .bytesInRx
  | .getMaxTxPayload, [] => some .getMaxTxPayload
  | .getMaxRxPayload, [] => some .getMaxRxPayload
  | .getTxBufferSize, [] => some .getTxBufferSize
  | .getRxBufferSize, [] => some .getRxBufferSize
  | _, _ => none

/-- Decoding a command, total on every code and every operand list; a command that is no operation is
rejected by name (R85). -/
def decode (c : Cmd) : Except DecodeError Instr :=
  match Opcode.ofCode c.op with
  | none => .error (.noSuchOperation c.op)
  | some o =>
    match takeOperands o c.operands with
    | none => .error (.operandKinds c.op)
    | some i => .ok i

/-- The operation of an instruction (R84). -/
def Instr.opcode : Instr → Opcode
  | .cobsEncode _ _ _ => .cobsEncode
  | .cobsDecode _ _ _ => .cobsDecode
  | .crcTableGen => .crcTableGen
  | .crcCompute _ _ _ => .crcCompute
  | .crcAppend _ _ _ => .crcAppend
  | .crcExtract _ _ => .crcExtract
  | .writePayload _ _ _ => .writePayload
  | .readPayload _ _ => .readPayload
  | .resetTx => .resetTx
  | .resetRx => .resetRx
  | .send => .send
  | .receive => .receive
  | .bytesInTx => .bytesInTx
  | .bytesInRx => .bytesInRx
  | .getMaxTxPayload => .getMaxTxPayload
  | .getMaxRxPayload => .getMaxRxPayload
  | .getTxBufferSize => .getTxBufferSize
  | .getRxBufferSize => .getRxBufferSize

/-- The operands presented beside the code (R82, R84). -/
def Instr.operands : Instr → List Operand
  | .cobsEncode buf p d => [.bytes buf, .nat p, .nat d.toNat]
  | .cobsDecode buf l d => [.bytes buf, .nat l, .nat d.toNat]
  | .crcTableGen => []
  | .crcCompute buf start len => [.bytes buf, .nat start, .nat len]
  | .crcAppend buf start crc => [.bytes buf, .nat start, .nat crc.toNat]
  | .crcExtract buf start => [.bytes buf, .nat start]
  | .writePayload src offset len => [.bytes src, .nat offset, .nat len]
  | .readPayload offset len => [.nat offset, .nat len]
  | .resetTx => []
  | .resetRx => []
  | .send => []
  | .receive => []
  | .bytesInTx => []
  | .bytesInRx => []
  | .getMaxTxPayload => []
  | .getMaxRxPayload => []
  | .getTxBufferSize => []
  | .getRxBufferSize => []

/-- The encoder: the command that presents an operation (R82, R84). -/
def encode (i : Instr) : Cmd := ⟨i.opcode.code, i.operands⟩

/-- Operands of zeros for an operation: empty byte lists and the number 0. -/
def zeroOperands : Opcode → List Operand
  | .cobsEncode => [.bytes [], .nat 0, .nat 0]
  | .cobsDecode => [.bytes [], .nat 0, .nat 0]
  | .crcTableGen => []
  | .crcCompute => [.bytes [], .nat 0, .nat 0]
  | .crcAppend => [.bytes [], .nat 0, .nat 0]
  | .crcExtract => [.bytes [], .nat 0]
  | .writePayload => [.bytes [], .nat 0, .nat 0]
  | .readPayload => [.nat 0, .nat 0]
  | .resetTx => []
  | .resetRx => []
  | .send => []
  | .receive => []
  | .bytesInTx => []
  | .bytesInRx => []
  | .getMaxTxPayload => []
  | .getMaxRxPayload => []
  | .getTxBufferSize => []
  | .getRxBufferSize => []

/-- The command whose code is `op` and whose operands are zeros. A code that selects no operation is
presented with no operand. -/
def Cmd.ofCode (op : Byte) : Cmd :=
  match Opcode.ofCode op with
  | some o => ⟨op, zeroOperands o⟩
  | none => ⟨op, []⟩

/-- The command of an opcode-table word of `nbits` bits: the table gives every row the 8 bits of the
code and no operand bits, so the word is the code and the operands are zeros. A word of another length
is no command. -/
def cmdOfTableWord (nbits w : Nat) : Option Cmd :=
  if nbits = 8 ∧ w < 2 ^ 8 then some (Cmd.ofCode (BitVec.ofNat 8 w)) else none

/-- The instruction the decoder reads from an opcode-table word. -/
def decodeTableWord (nbits w : Nat) : Option Instr :=
  match cmdOfTableWord nbits w with
  | none => none
  | some c =>
    match decode c with
    | .ok i => some i
    | .error _ => none

end Sys2Proof
end

