-- ==== Sys2Proof/Machine/Issue.lean ====
section
/-! DEFINITION. How the engine comes by its next operation: the host's queue, decoding, and who may
issue what (00_scope.md R2, R12; 41_crc.md R122). -/

namespace Sys2Proof.Machine

/-- CRC_TABLE_GEN is issued by reset and cannot be issued by the host (R122, 30_encoding.md R84, V4);
it is the one operation the reset sequence issues (70_reset_and_hazards.md R240). -/
def mayIssue : Issuer → Opcode → Bool
  | .host, o => o != .crcTableGen
  | .reset, o => o == .crcTableGen

/-- The issuer an operation belongs to. -/
def issuerOf (o : Option Opcode) : Issuer := if o = some .crcTableGen then .reset else .host

/-- What stands at the front of the queue. -/
inductive Fetched where
  /-- nothing to issue -/
  | idle
  /-- an operation, and the state in which it runs -/
  | run (i : Instr) (s : State)
  /-- no operation -/
  | stop (r : Refusal)

/-- The refusal of a command that decodes to no operation (30_encoding.md R85). -/
def refusalOf : DecodeError → Refusal
  | .noSuchOperation op => .noSuchOperation op
  | .operandKinds op => .operandKinds op

/-- Decode one queued command; `rest` is the state with the command taken off the queue. -/
def fetchIssue (q : Issue) (rest : State) : Fetched :=
  match decode q.cmd with
  | .error e => .stop (refusalOf e)
  | .ok i => if mayIssue q.issuer i.opcode then .run i rest else .stop .notIssuable

/-- The next operation. On an empty queue the engine is idle and waits (R231, R240; assumption 3). A
configuration outside the legal values is none of this hardware (00_scope.md R10). -/
def fetch (s : State) : Fetched :=
  if s.cfg.legal then
    match s.commands with
    | [] => .idle
    | q :: rest => fetchIssue q { s with commands := rest }
  else .stop .illegalConfiguration

/-- The queue with a command of zero operands put where the next operation is taken from, in place of
the one that stood there. -/
def withCommandFirst (c : Cmd) (l : List Issue) : List Issue := ⟨issuerOf (Opcode.ofCode c.op), c⟩ :: l.tail

end Sys2Proof.Machine
end

