-- ==== Sys2Proof/Machine/Step.lean ====
section
/-! DEFINITION. One step: the next operation of the queue, executed to completion (00_scope.md R2). -/

namespace Sys2Proof.Machine

/-- One step of the machine. -/
def step (s : State) : Host.Outcome State Fault Refusal :=
  match fetch s with
  | .idle => .next s
  | .run i s' => exec i s'
  | .stop r => .refused r

/-- The state with an opcode-table word as the next operation to be issued; a word that is no command
changes nothing. -/
def State.withFetchWord (s : State) (nbits w : Nat) : State :=
  match cmdOfTableWord nbits w with
  | none => s
  | some c => { s with commands := withCommandFirst c s.commands }

end Sys2Proof.Machine
end

