-- ==== Sys2Proof/Machine/Pseudo.lean ====
section
/-! DEFINITION. The pseudo-operations of 30_encoding.md R87: conveniences that expand to operations and
add no behaviour; and construction as the block's reset (70_reset_and_hazards.md R240). -/

namespace Sys2Proof.Machine

/-- The value an outcome returned with `ok`, if it did. -/
def State.okValue (s : State) : Option Nat :=
  match s.result with
  | some ⟨true, v, _⟩ => some v
  | _ => none

/-- `CRC_VERIFY buf, start, len` (R87 a): CRC_COMPUTE, then the test `value == 0`. -/
def crcVerify (buf : List Byte) (start len : Nat) (s : State) : Bool :=
  match exec (.crcCompute buf start len) s with
  | .next t => t.okValue == some 0
  | _ => false

/-- `encode(p, D)` on a byte sequence (R87 b): COBS_ENCODE of a fresh buffer, and its first P + 2
bytes; none when it fails. -/
def encodeBytes (p : List Byte) (d : Byte) : Option (List Byte) :=
  let r := cobsEncode (Buffer.ofBytes (0 :: p ++ [0])) p.length d
  if r.ok then some (r.buf.slice 0 (p.length + 2)) else none

/-- `decode(e, D)` on a byte sequence (R87 b): COBS_DECODE of a buffer holding `e`, and the bytes
1 to L - 2 of it; none when it fails. -/
def decodeBytes (e : List Byte) (d : Byte) : Option (List Byte) :=
  let r := cobsDecode (Buffer.ofBytes e) e.length d
  if r.ok then some (r.buf.slice 1 (e.length - 2)) else none

/-- Steps (1) to (3) of construction (R240): the parameters latched, the buffers zero, the trackers 0,
and the reset sequence's own CRC_TABLE_GEN next to be issued.
DESIGN CHOICE (assumption 26): at this moment `crc_table` holds 256 zeros, the three status registers
already hold their Standby codes and `fsm` is already Idle. The spec gives them only later: the table by
step (4), which overwrites every entry and reads none, the others by steps (5) and (6), which leave what
stands here (10_state.md R28, R36). -/
def State.latched (cfg : Config) : State :=
  { State.construct cfg with
    crcTable := Vector.replicate 256 0
    commands := [⟨.reset, encode .crcTableGen⟩] }

/-- `CONSTRUCT cfg` (R87 c, R240): a configuration outside the legal values is refused (R10). -/
def constructOrRefuse (cfg : Config) : Host.Outcome State Fault Refusal :=
  if cfg.legal then .next (State.construct cfg) else .refused .illegalConfiguration

end Sys2Proof.Machine
end

