-- ==== Sys2Proof/Safety.lean ====
section
/-! DEFINITION. What holds between any two operations, and what a safe run is. -/

namespace Sys2Proof.Machine

/-- The invariant of the engine between operations. -/
structure State.Inv (s : State) : Prop where
  /-- the configuration is one of this hardware (00_scope.md R8, R10) -/
  legal : s.cfg.legal = true
  /-- `tx` is in canonical form and inside its size (10_state.md R22, 20_memory.md R53) -/
  txWf : Memory.wf s.cfg.txBufSize s.tx = true
  /-- `rx` is in canonical form and inside its size (10_state.md R23, 20_memory.md R53) -/
  rxWf : Memory.wf s.cfg.rxBufSize s.rx = true
  /-- the operand buffer is in canonical form and inside its size (20_memory.md R53) -/
  bufWf : Memory.wf s.buf.size s.buf.cells = true
  /-- the range of `tx_filled` (10_state.md R25) -/
  txFilledLe : s.txFilled ≤ s.cfg.maxTxPayload
  /-- the range of `rx_filled` (10_state.md R26) -/
  rxFilledLe : s.rxFilled ≤ s.cfg.maxRxPayload
  /-- between operations `tx[0] = 0` (43_send.md R165) -/
  txOverhead : Memory.read s.tx 0 = 0
  /-- `crc_table` is the table of the configuration (10_state.md R28, 20_memory.md R64) -/
  table : s.crcTable = Machine.crcTable s.cfg.width s.cfg.polynomial
  /-- `cobs_status` holds a COBS code (10_state.md R31) -/
  cobsLayer : s.cobsStatus.layer = .cobs
  /-- `crc_status` holds a CRC code (10_state.md R31) -/
  crcLayer : s.crcStatus.layer = .crc
  /-- between operations the sequencer is idle (10_state.md R33) -/
  fsmIdle : s.fsm = .idle
  /-- the range of `bytes_read` (10_state.md R33) -/
  bytesReadLe : s.bytesRead ≤ s.cfg.rxPacketLimit
  /-- the time source is monotone, so `t_last` is in the past (60_exceptions.md R224) -/
  tLastLe : s.tLast ≤ s.now

/-- A safe step: it does not fault, and a refusal is for what the spec refuses (no operation at all,
an operand that is none, an issuer that may not issue it); never for want of a meaning. -/
def safeStep (o : Host.Outcome State Fault Refusal) : Prop :=
  match o with
  | .next t => t.Inv
  | .refused (.noSuchOperation _) => True
  | .refused (.operandKinds _) => True
  | .refused .notIssuable => True
  | .refused .sourceTooShort => True
  | .refused .crcOperandTooWide => True
  | .refused _ => False
  | .fault _ => False

/-- The jump structure of a packet (30_encoding.md R71, R72): from position `j` of a payload of `p` bytes,
given by `f`, the next position that holds `d` is `k`, or `k` is the trailing delimiter at `p + 1`. -/
def NextStop (f : Nat → Byte) (d : Byte) (p j k : Nat) : Prop :=
  j < k ∧ k ≤ p + 1 ∧ (k = p + 1 ∨ f k = d) ∧ ∀ m, j < m → m < k → f m ≠ d

/-! ## How bytes come in (10_state.md R35, 60_exceptions.md R226) -/

/-- The port gives these bytes on as many polls in a row, none of them empty. -/
inductive Available : Port → List Byte → Port → Prop where
  | done {p : Port} : Available p [] p
  | byte {p r : Port} {b : Byte} {l : List Byte} :
      p.poll.byte = some b → Available p.poll.port l r → Available p (b :: l) r

/-- The bytes trickle in: between them there may be empty polls, as long as the timer of 44_receive.md
R176, started at `tLast` and again at every byte, does not run out. -/
inductive Trickles (timeout : Nat) : Nat → Port → List Byte → Port → Prop where
  | done {tLast : Nat} {p : Port} : Trickles timeout tLast p [] p
  | byte {tLast : Nat} {p r : Port} {b : Byte} {l : List Byte} :
      p.poll.byte = some b → Trickles timeout p.poll.port.now p.poll.port l r → Trickles timeout tLast p (b :: l) r
  | wait {tLast : Nat} {p r : Port} {b : Byte} {l : List Byte} :
      p.arrivals ≠ [] → p.poll.byte = none → p.poll.port.now - tLast < timeout →
      Trickles timeout tLast p.poll.port (b :: l) r → Trickles timeout tLast p (b :: l) r

/-- The line is silent until the timer started at `tLast` has run out: every poll up to then is empty.
The last case is the end of the environment's plan (assumption 10). -/
inductive Silent (timeout tLast : Nat) : Port → Port → Prop where
  | out {p : Port} : p.poll.byte = none → timeout ≤ p.poll.port.now - tLast → Silent timeout tLast p p.poll.port
  | wait {p r : Port} :
      p.arrivals ≠ [] → p.poll.byte = none → p.poll.port.now - tLast < timeout →
      Silent timeout tLast p.poll.port r → Silent timeout tLast p r
  | ended {p : Port} :
      p.arrivals = [] → p.poll.byte = none → p.now - tLast < timeout →
      Silent timeout tLast p { p with now := tLast + timeout }

end Sys2Proof.Machine
end

