-- ==== Sys2Proof/Certificates/Slice0/Obligations.lean ====
section
/-! DEFINITION. The statements about the packet engine. Each docstring names the rules of spec/ it
formalises, and says where it rests on a decision of the spec (D<n>) or on a choice of the model. -/

open Sys2Proof Sys2Proof.Machine

namespace Sys2Proof.Claims

/-- The operation completes, and what then holds. -/
def Completes (i : Instr) (s : State) (P : State → Prop) : Prop := ∃ t, exec i s = .next t ∧ P t

/-- The loop of 40_cobs.md R107 as a relation, without a bound on its iterations: from `r`, `n` and a
buffer to the operation's answer. The success code's name is the spec's decision D3, so any stands here. -/
inductive DecodeLoop (d : Byte) (l : Nat) : Nat → Nat → Buffer → OpResult → Prop where
  | notFound {r n : Nat} {b : Buffer} : ¬ r + n < l → DecodeLoop d l r n b ⟨false, 0, .delimiterNotFound, b⟩
  | success {r n : Nat} {b : Buffer} (st : Status) : r + n < l → b.get (r + n) = d → r + n = l - 1 →
      DecodeLoop d l r n b ⟨true, l - 2, st, b⟩
  | tooEarly {r n : Nat} {b : Buffer} : r + n < l → b.get (r + n) = d → r + n ≠ l - 1 →
      DecodeLoop d l r n b ⟨false, 0, .delimiterTooEarly, b⟩
  | follow {r n : Nat} {b : Buffer} {res : OpResult} : r + n < l → b.get (r + n) ≠ d →
      DecodeLoop d l (r + n) (b.get (r + n)).toNat (b.set (r + n) d) res → DecodeLoop d l r n b res

/-- The bit-serial definition of one input byte (41_crc.md R131): XOR it into the top byte of the
register, then eight times shift left by one and XOR the polynomial when the bit shifted out was 1. -/
def bitSerialByte (w : CrcWidth) (poly : Word) (c : Word) (b : Byte) : Word :=
  Nat.repeat (crcShiftStep w poly) 8 (c ^^^ crcShl w (b.setWidth 32) (w.bits - 8))

/-- The bit-serial CRC of a list of bytes (R131). -/
def bitSerialCrc (cfg : Config) (l : List Byte) : Word :=
  l.foldl (bitSerialByte cfg.width cfg.polynomial) cfg.initialValue ^^^ cfg.finalXor

/-- The table of 44_receive.md R172, row by row: how the sequencer leaves each state, on what, and to
which. -/
inductive FsmEdge : State → State → Prop where
  | rest {s t : State} : s.fsm = .idle → t = s → FsmEdge s t
  | startFound {s t : State} (garbage : List Byte) :
      s.fsm = .scanningForStart → s.cfg.startByte ∉ garbage →
      Available s.port (garbage ++ [s.cfg.startByte]) t.port → t.fsm = .receivingPacket → FsmEdge s t
  | drained {s t : State} (garbage : List Byte) (m : Port) :
      s.fsm = .scanningForStart → s.cfg.startByte ∉ garbage → Available s.port garbage m →
      m.poll.byte = none → t.port = m.poll.port →
      t.fsm = .error (if s.cfg.allowStartByteErrors then .startByteNotFound else .noBytesToParse) → FsmEdge s t
  | delimiterStored {s t : State} :
      s.fsm = .receivingPacket → s.bytesRead < t.bytesRead →
      Trickles s.cfg.timeoutUs s.tLast s.port (t.rxBuf.slice s.bytesRead (t.bytesRead - s.bytesRead)) t.port →
      t.rxBuf.get (t.bytesRead - 1) = s.cfg.delimiterByte → t.fsm = .receivingPostamble → FsmEdge s t
  | packetTimeout {s t : State} (m : Port) :
      s.fsm = .receivingPacket →
      Trickles s.cfg.timeoutUs s.tLast s.port (t.rxBuf.slice s.bytesRead (t.bytesRead - s.bytesRead)) m →
      Silent s.cfg.timeoutUs t.tLast m t.port → t.fsm = .error .packetTimeout → FsmEdge s t
  | packetFull {s t : State} :
      s.fsm = .receivingPacket →
      Trickles s.cfg.timeoutUs s.tLast s.port (t.rxBuf.slice s.bytesRead (t.bytesRead - s.bytesRead)) t.port →
      s.cfg.maxRxPayload + 2 ≤ t.bytesRead → t.fsm = .error .packetOutOfBufferSpace → FsmEdge s t
  | postambleStored {s t : State} :
      s.fsm = .receivingPostamble → t.bytesRead = s.bytesRead →
      Trickles s.cfg.timeoutUs s.tLast s.port (t.rxBuf.slice s.bytesRead s.cfg.width.bytes) t.port →
      t.fsm = .validating → FsmEdge s t
  | postambleTimeout {s t : State} (l : List Byte) (m : Port) :
      s.fsm = .receivingPostamble → t.bytesRead = s.bytesRead → l.length < s.cfg.width.bytes →
      t.rxBuf.slice s.bytesRead l.length = l → Trickles s.cfg.timeoutUs s.tLast s.port l m →
      Silent s.cfg.timeoutUs t.tLast m t.port → t.fsm = .error .postambleTimeout → FsmEdge s t
  | crcZero {s t : State} :
      s.fsm = .validating →
      crcOver s.cfg s.crcTable (s.rxBuf.slice 0 (s.bytesRead + s.cfg.width.bytes)) = 0 →
      t.fsm = .decoded → FsmEdge s t
  | crcNotZero {s t : State} :
      s.fsm = .validating →
      crcOver s.cfg s.crcTable (s.rxBuf.slice 0 (s.bytesRead + s.cfg.width.bytes)) ≠ 0 →
      t.fsm = .error .crcCheckFailed → FsmEdge s t
  | crcPastBuffer {s t : State} :
      s.fsm = .validating → s.cfg.rxBufSize < s.bytesRead + s.cfg.width.bytes →
      t.fsm = .error .computeBufferTooSmall → FsmEdge s t
  | decoded {s t : State} :
      s.fsm = .decoded → (cobsDecode s.rxBuf s.bytesRead s.cfg.delimiterByte).ok = true → t.fsm = .idle → FsmEdge s t
  | decodeError {s t : State} (k : Status) :
      s.fsm = .decoded → (cobsDecode s.rxBuf s.bytesRead s.cfg.delimiterByte).ok = false →
      (cobsDecode s.rxBuf s.bytesRead s.cfg.delimiterByte).status = k →
      k ∈ [Status.decodePacketTooSmall, .decodeAlreadyDecoded, .delimiterTooEarly, .delimiterNotFound,
        .decodePacketTooLarge, .decodeBufferTooSmall] → t.fsm = .error k → FsmEdge s t
  | errorLeft {s t : State} (k : Status) : s.fsm = .error k → t.fsm = .idle → FsmEdge s t

/-- The order of the states within one RECEIVE (R172). -/
def stageOf : Fsm → Nat
  | .idle => 0
  | .scanningForStart => 1
  | .receivingPacket => 2
  | .receivingPostamble => 3
  | .validating => 4
  | .decoded => 5
  | .error _ => 6

/-- The failure statuses of RECEIVE (44_receive.md R184). -/
def receiveFailures : List Status :=
  [.noBytesToParse, .startByteNotFound, .packetTimeout, .packetOutOfBufferSpace, .postambleTimeout,
    .crcCheckFailed, .decodePacketTooSmall, .decodeAlreadyDecoded, .delimiterTooEarly, .delimiterNotFound]

/-- A failed RECEIVE that met the failure `st` before CRC and decoder ran: the stored bytes `l` at the
front of `rx`, everything behind them and behind index 0 as before, `rx_filled = 0`, the inbound side as
`rest`, and nothing else changed but the sequencer's own registers. -/
def ReceiveFailed (s t : State) (st : Status) (l : List Byte) (rest : Port) : Prop :=
  t = { s with rx := t.rx, rxFilled := 0, crcStatus := t.crcStatus, cobsStatus := t.cobsStatus, xferStatus := st,
               fsm := .idle, bytesRead := t.bytesRead, tLast := t.tLast, inbound := rest.fifo, now := rest.now,
               arrivals := rest.arrivals, result := some ⟨false, 0, some st⟩ } ∧
  (∀ k, k < l.length → t.rxBuf.get k = l.getD k 0) ∧
  (l = [] → t.rxBuf.get 0 = 0) ∧
  (∀ k, 1 ≤ k → l.length ≤ k → t.rxBuf.get k = s.rxBuf.get k)

/-- The same state but for registers no operation reads: the three status registers, `bytes_read` and
`t_last`, and what was last handed to the host. -/
def SameBehind (s s' : State) : Prop :=
  s' = { s with cobsStatus := s'.cobsStatus, crcStatus := s'.crcStatus, xferStatus := s'.xferStatus,
                bytesRead := s'.bytesRead, tLast := s'.tLast, buf := s'.buf, dst := s'.dst, result := s'.result }

/-- A register that may differ before, in two runs of one operation: the operation writes it, and writes
the same to both, or it leaves both as they were. -/
def SameOrKept {α : Type} (before before' after after' : α) : Prop :=
  after' = after ∨ after = before ∧ after' = before'

end Sys2Proof.Claims

open Sys2Proof.Claims

/-! ## Encodings and the step -/

/-- 30_encoding.md R82, R84 (codes and operand forms: the spec's decision D2). Decoding what the encoder
presents gives the operation back, and a command that decodes is the encoder's. -/
def Obligations.DecodeInvertsEncode : Prop :=
  (∀ i : Instr, decode (encode i) = .ok i) ∧ (∀ (c : Cmd) (i : Instr), decode c = .ok i → c = encode i)

/-- 30_encoding.md R84, R85 (decision D2). A code that is none of the eighteen selects no operation: it
is refused by name, whoever issues it and whatever stands beside it. -/
def Obligations.ReservedCodeIsRefused : Prop :=
  ∀ (op : Byte) (l : List Operand),
    op ∉ ([0x10, 0x11, 0x20, 0x21, 0x22, 0x23, 0x30, 0x31, 0x32, 0x33, 0x34, 0x35, 0x36, 0x37, 0x38, 0x39, 0x3A,
      0x3B] : List Byte) →
    decode ⟨op, l⟩ = .error (.noSuchOperation op) ∧
    ∀ (s : State) (who : Issuer) (rest : List Issue), s.cfg.legal = true → s.commands = ⟨who, ⟨op, l⟩⟩ :: rest →
      step s = .refused (.noSuchOperation op)

/-- 30_encoding.md R84 (codes: decision D2). The code of every row, with operands of zeros, decodes to
the row's operation. -/
def Obligations.TableWordsDecode : Prop :=
  [0x10, 0x11, 0x20, 0x21, 0x22, 0x23, 0x30, 0x31, 0x32, 0x33, 0x34, 0x35, 0x36, 0x37, 0x38, 0x39, 0x3A,
      0x3B].map (decodeTableWord 8) =
    [some (.cobsEncode [] 0 0), some (.cobsDecode [] 0 0), some .crcTableGen, some (.crcCompute [] 0 0),
      some (.crcAppend [] 0 0), some (.crcExtract [] 0), some (.writePayload [] 0 0), some (.readPayload 0 0),
      some .resetTx, some .resetRx, some .send, some .receive, some .bytesInTx, some .bytesInRx,
      some .getMaxTxPayload, some .getMaxRxPayload, some .getTxBufferSize, some .getRxBufferSize]

/-- 00_scope.md R2, R12 (the queue of operations is the model's, assumption 3). A step executes the
operation decoded from the front of the queue, in the state with it taken off; on an empty queue the
engine waits. -/
def Obligations.StepRunsDecodedOperation : Prop :=
  ∀ s : State, s.cfg.legal = true →
    (s.commands = [] → step s = .next s) ∧
    (∀ (q : Issue) (rest : List Issue) (i : Instr), s.commands = q :: rest → decode q.cmd = .ok i →
      mayIssue q.issuer i.opcode = true → step s = exec i { s with commands := rest })

/-- 00_scope.md R8, R10 (decision D24). A configuration outside the legal values is refused, by
construction and by the step. -/
def Obligations.IllegalConfigurationIsRefused : Prop :=
  ∀ cfg : Config,
    ¬ (1 ≤ cfg.maxTxPayload ∧ cfg.maxTxPayload ≤ 254 ∧ 1 ≤ cfg.maxRxPayload ∧ cfg.maxRxPayload ≤ 254 ∧
        cfg.polynomial.toNat < 2 ^ (8 * cfg.width.bytes) ∧ cfg.initialValue.toNat < 2 ^ (8 * cfg.width.bytes) ∧
        cfg.finalXor.toNat < 2 ^ (8 * cfg.width.bytes)) →
    constructOrRefuse cfg = .refused .illegalConfiguration ∧
    ∀ s : State, s.cfg = cfg → step s = .refused .illegalConfiguration

/-- 41_crc.md R122, 30_encoding.md R84, 93_implementation_defined.md V4 (decision D22). CRC_TABLE_GEN is
refused when the host issues it and executed when the reset sequence does; every other operation the
host may issue. -/
def Obligations.TableGenIssuedByResetOnly : Prop :=
  ∀ (s : State) (rest : List Issue), s.cfg.legal = true →
    (s.commands = ⟨.host, encode .crcTableGen⟩ :: rest → step s = .refused .notIssuable) ∧
    (s.commands = ⟨.reset, encode .crcTableGen⟩ :: rest → step s = exec .crcTableGen { s with commands := rest }) ∧
    (∀ i : Instr, i ≠ .crcTableGen → s.commands = ⟨.host, encode i⟩ :: rest →
      step s = exec i { s with commands := rest })

/-- 42_buffer_ops.md R140, 30_encoding.md R83, R85 (decisions D19; assumption 21). An operand that is
none of its kind is refused: `src` shorter than `len`, a CRC value wider than `8*W` bits. Any other
operand value is accepted: no well-formed operation is refused. -/
def Obligations.OnlyIllFormedOperandsAreRefused : Prop :=
  (∀ (src : List Byte) (offset len : Nat) (s : State), src.length < len →
    exec (.writePayload src offset len) s = .refused .sourceTooShort) ∧
  (∀ (buf : List Byte) (start : Nat) (crc : Word) (s : State), 2 ^ (8 * s.cfg.width.bytes) ≤ crc.toNat →
    exec (.crcAppend buf start crc) s = .refused .crcOperandTooWide) ∧
  (∀ (i : Instr) (s : State) (r : Refusal), i.wf s.cfg.width = true → exec i s ≠ .refused r)

/-! ## Reset -/

/-- 10_state.md R24, R36, 70_reset_and_hazards.md R240 (trackers, statuses and `fsm`: decisions D3, D4,
D15, D16). What construction leaves, for every configuration. -/
def Obligations.ConstructionState : Prop :=
  ∀ cfg : Config,
    (State.construct cfg).cfg = cfg ∧
    (∀ i, (State.construct cfg).txBuf.get i = 0) ∧ (∀ i, (State.construct cfg).rxBuf.get i = 0) ∧
    (State.construct cfg).txBuf.size = cfg.maxTxPayload + 2 + cfg.width.bytes ∧
    (State.construct cfg).rxBuf.size = cfg.maxRxPayload + 2 + cfg.width.bytes ∧
    (State.construct cfg).txFilled = 0 ∧ (State.construct cfg).rxFilled = 0 ∧
    (∀ b : Byte, (State.construct cfg).crcTable[b.toNat]'b.isLt = crcTableEntry cfg.width cfg.polynomial b) ∧
    (State.construct cfg).cobsStatus = .cobsStandby ∧ (State.construct cfg).crcStatus = .crcStandby ∧
    (State.construct cfg).xferStatus = .transferStandby ∧ (State.construct cfg).fsm = .idle

/-- 70_reset_and_hazards.md R240, 41_crc.md R122 (decision D22). Construction with a legal configuration
succeeds, and is the latched state after the reset sequence's own CRC_TABLE_GEN, the status registers set to
their Standby codes and `fsm` to Idle. CRC_TABLE_GEN keeps those four, and works whatever they and
`crc_table` held before it: the spec gives no value there, so nothing rests on the model's own (assumption
26). The outcome `(true, 0, -)` is assumption 25. -/
def Obligations.ConstructionRunsTableGen : Prop :=
  ∀ cfg : Config, cfg.legal = true →
    constructOrRefuse cfg = .next (State.construct cfg) ∧
    ∀ (table : Vector Word 256) (cobs crc xfer : Status) (fsm : Fsm), ∃ t,
      step { State.latched cfg with crcTable := table, cobsStatus := cobs, crcStatus := crc, xferStatus := xfer,
                                    fsm := fsm } = .next t ∧
      t.cobsStatus = cobs ∧ t.crcStatus = crc ∧ t.xferStatus = xfer ∧ t.fsm = fsm ∧
      { t with cobsStatus := .cobsStandby, crcStatus := .crcStandby, xferStatus := .transferStandby, fsm := .idle } =
        { State.construct cfg with result := some ⟨true, 0, none⟩ }

/-- The invariant of Safety.lean holds after construction with every legal configuration, and in the
model's own State.reset (its configuration: assumption 1; `bytes_read` and `t_last` there: assumption 13). -/
def Obligations.ResetMeetsInvariant : Prop :=
  (∀ cfg : Config, cfg.legal = true → (State.construct cfg).Inv) ∧ State.reset.Inv

/-- 20_memory.md R53, 43_send.md R165, 10_state.md R22 to R28, R33. From every state that meets the
invariant a step keeps it; no step faults, and none is refused for want of a meaning. The invariant's bounds
on `bytes_read` and `t_last` between operations rest on assumption 13. -/
def Obligations.EveryStepIsSafe : Prop := ∀ s : State, s.Inv → safeStep (step s)

/-- 00_scope.md R13, 60_exceptions.md R201. Every well-formed operation answers with a next state, in
every state that meets the invariant: irregular conditions are statuses, never a stop. That SEND ends is the
spec's exception in R13 (43_send.md R164): its `write_bytes` may block, and is assumed to return (decision
D14, assumption 12). -/
def Obligations.EveryOperationAnswers : Prop :=
  ∀ (i : Instr) (s : State), s.Inv → i.wf s.cfg.width = true → ∃ t, exec i s = .next t

/-! ## COBS codec -/

/-- 40_cobs.md R100, R101 (order: decision D6; no side effect: D7; value 0: D5; the success code and the
latched register: D3, D4). The four preconditions of COBS_ENCODE, each with its status, the operand buffer
untouched and nothing else changed; and the status when all four hold. -/
def Obligations.EncodePreconditions : Prop :=
  ∀ (buf : List Byte) (p : Nat) (d : Byte) (s : State),
    let failsWith := fun st : Status => exec (.cobsEncode buf p d) s =
      .next { s with buf := Buffer.ofBytes buf, cobsStatus := st, result := some ⟨false, 0, some st⟩ }
    (p = 0 → failsWith .encodePayloadTooSmall) ∧
    (254 < p → failsWith .encodePayloadTooLarge) ∧
    (1 ≤ p → p ≤ 254 → buf.length < p + 2 → failsWith .encodeBufferTooSmall) ∧
    (1 ≤ p → p ≤ 254 → p + 2 ≤ buf.length → buf.getD 0 0 ≠ 0 → failsWith .encodeAlreadyEncoded) ∧
    (1 ≤ p → p ≤ 254 → p + 2 ≤ buf.length → buf.getD 0 0 = 0 →
      Completes (.cobsEncode buf p d) s fun t =>
        t.cobsStatus = .payloadEncoded ∧ t.result = some ⟨true, p + 2, some .payloadEncoded⟩)

/-- 30_encoding.md R70. COBS_ENCODE of a buffer `[0][payload][any]` leaves the packet: the overhead is
the distance to the first delimiter-valued payload position or to the trailing delimiter, every payload
byte equal to `D` is replaced by its jump distance, every other one is kept, the delimiter stands at
`P + 1`; the packet length is returned; bytes behind the packet, and everything but the codec's status
register and the outcome, are unchanged. -/
def Obligations.EncodeBuildsPacket : Prop :=
  ∀ (buf : List Byte) (p : Nat) (d : Byte) (s : State),
    1 ≤ p → p ≤ 254 → p + 2 ≤ buf.length → buf.getD 0 0 = 0 →
    Completes (.cobsEncode buf p d) s fun t =>
      t = { s with buf := t.buf, cobsStatus := t.cobsStatus, result := t.result } ∧
      (∃ st, t.result = some ⟨true, p + 2, st⟩) ∧
      t.buf.size = buf.length ∧
      (∃ k, NextStop (fun j => buf.getD j 0) d p 0 k ∧ (t.buf.get 0).toNat = k) ∧
      (∀ j, 1 ≤ j → j ≤ p → buf.getD j 0 = d →
        ∃ k, NextStop (fun j => buf.getD j 0) d p j k ∧ (t.buf.get j).toNat = k - j) ∧
      (∀ j, 1 ≤ j → j ≤ p → buf.getD j 0 ≠ d → t.buf.get j = buf.getD j 0) ∧
      t.buf.get (p + 1) = d ∧
      (∀ j, p + 1 < j → t.buf.get j = buf.getD j 0)

/-- 40_cobs.md R106 (order: decision D6; no side effect: D7; value 0: D5). The four preconditions of
COBS_DECODE. -/
def Obligations.DecodePreconditions : Prop :=
  ∀ (buf : List Byte) (l : Nat) (d : Byte) (s : State),
    let failsWith := fun st : Status => exec (.cobsDecode buf l d) s =
      .next { s with buf := Buffer.ofBytes buf, cobsStatus := st, result := some ⟨false, 0, some st⟩ }
    (l < 3 → failsWith .decodePacketTooSmall) ∧
    (256 < l → failsWith .decodePacketTooLarge) ∧
    (3 ≤ l → l ≤ 256 → buf.length < l → failsWith .decodeBufferTooSmall) ∧
    (3 ≤ l → l ≤ 256 → l ≤ buf.length → buf.getD 0 0 = 0 → failsWith .decodeAlreadyDecoded)

/-- 40_cobs.md R107. Past its preconditions COBS_DECODE is the loop of the rule: index 0 set to 0 first,
then the chain from `r = 0`, `n = buf[0]`; the loop ends, the operation's answer and buffer are the
loop's, and nothing else but the codec's status register changes. -/
def Obligations.DecodeFollowsTheLoop : Prop :=
  ∀ (buf : List Byte) (l : Nat) (d : Byte) (s : State),
    3 ≤ l → l ≤ 256 → l ≤ buf.length → buf.getD 0 0 ≠ 0 →
    ∃ res, DecodeLoop d l 0 (buf.getD 0 0).toNat ((Buffer.ofBytes buf).set 0 0) res ∧
      Completes (.cobsDecode buf l d) s fun t =>
        t = { s with buf := res.buf, cobsStatus := t.cobsStatus,
                     result := some ⟨res.ok, res.value, some res.status⟩ }

/-- 40_cobs.md R105, R108, R109 h, 70_reset_and_hazards.md R252 (the success code and the latched
register: decisions D3, D4). Whatever the outcome past the preconditions: the status is latched,
index 0 is 0, bytes at `L` and above are untouched, the others keep their value or hold `D`, success
leaves `D` at `L - 1`; and a second COBS_DECODE of the buffer fails with DecodeAlreadyDecoded. -/
def Obligations.DecodeMarksTheBuffer : Prop :=
  ∀ (buf : List Byte) (l : Nat) (d : Byte) (s : State),
    3 ≤ l → l ≤ 256 → l ≤ buf.length → buf.getD 0 0 ≠ 0 →
    Completes (.cobsDecode buf l d) s fun t =>
      t.result.bind Result.status = some t.cobsStatus ∧ t.buf.size = buf.length ∧ t.buf.get 0 = 0 ∧
      (∀ j, l ≤ j → t.buf.get j = buf.getD j 0) ∧
      (∀ j, 1 ≤ j → j < l → t.buf.get j = buf.getD j 0 ∨ t.buf.get j = d) ∧
      (t.result = some ⟨true, l - 2, some .payloadDecoded⟩ ∧ t.buf.get (l - 1) = d ∨
        t.result = some ⟨false, 0, some .delimiterTooEarly⟩ ∨ t.result = some ⟨false, 0, some .delimiterNotFound⟩) ∧
      exec (.cobsDecode t.buf.toBytes l d) t =
        .next { t with cobsStatus := .decodeAlreadyDecoded, result := some ⟨false, 0, some .decodeAlreadyDecoded⟩ }

/-- 40_cobs.md R103 g, 70_reset_and_hazards.md R252. COBS_ENCODE of the buffer a successful COBS_ENCODE
left fails with EncodeAlreadyEncoded, for every delimiter and every payload length. -/
def Obligations.EncodeTwiceFails : Prop :=
  ∀ (buf : List Byte) (p : Nat) (d : Byte) (s t : State),
    exec (.cobsEncode buf p d) s = .next t → t.result = some ⟨true, p + 2, some .payloadEncoded⟩ →
    exec (.cobsEncode t.buf.toBytes p d) t =
      .next { t with cobsStatus := .encodeAlreadyEncoded, result := some ⟨false, 0, some .encodeAlreadyEncoded⟩ }

/-- 40_cobs.md R110. The codec's round trip, for every delimiter: decoding the encoded payload restores
it if and only if no byte of the encoded region equals the delimiter. -/
def Obligations.RoundTripIffNoDelimiterInside : Prop :=
  ∀ (payload : List Byte) (d : Byte), 1 ≤ payload.length → payload.length ≤ 254 →
    ∃ e, encodeBytes payload d = some e ∧ e.length = payload.length + 2 ∧
      (decodeBytes e d = some payload ↔ d ∉ (e.drop 1).take payload.length)

/-- 40_cobs.md R110, R111. With `D = 0` the packet holds no 0 before its last byte, and COBS_DECODE of it
succeeds and restores the payload and every byte of the buffer but the delimiter slot. -/
def Obligations.ZeroDelimiterRoundTrip : Prop :=
  ∀ (buf : List Byte) (p : Nat) (s : State),
    1 ≤ p → p ≤ 254 → p + 2 ≤ buf.length → buf.getD 0 0 = 0 →
    Completes (.cobsEncode buf p 0) s fun t =>
      (∀ j, j ≤ p → t.buf.get j ≠ 0) ∧ t.buf.get (p + 1) = 0 ∧
      Completes (.cobsDecode t.buf.toBytes (p + 2) 0) t fun u =>
        u = { t with buf := u.buf, cobsStatus := .payloadDecoded, result := some ⟨true, p, some .payloadDecoded⟩ } ∧
        u.buf.size = buf.length ∧ u.buf.get (p + 1) = 0 ∧
        (∀ j, j ≠ p + 1 → u.buf.get j = buf.getD j 0)

/-! ## CRC engine -/

/-- 41_crc.md R121. CRC_TABLE_GEN writes all 256 entries from `W` and `POLYNOMIAL`, each the byte at the
top of the register after eight steps, and no status register; entry 0 is 0 and entry 1 the polynomial. -/
def Obligations.TableGenWritesTheTable : Prop :=
  ∀ s : State, Completes .crcTableGen s fun t =>
    t = { s with crcTable := t.crcTable, result := some ⟨true, 0, none⟩ } ∧
    (∀ b : Byte, t.crcTable[b.toNat]'b.isLt =
      Nat.repeat (crcShiftStep s.cfg.width s.cfg.polynomial) 8
        (crcShl s.cfg.width (b.setWidth 32) (s.cfg.width.bits - 8))) ∧
    t.crcTable[0] = 0 ∧ t.crcTable[1] = s.cfg.polynomial

/-- 41_crc.md R123, R124 (value 0 on failure: decision D5; final XOR after the loop: D9). CRC_COMPUTE
over a range inside the buffer gives the CRC of just those bytes, over an empty range
`INITIAL_VALUE XOR FINAL_XOR`; a range that runs past the buffer fails; the buffer is not modified. -/
def Obligations.CrcComputeOfRange : Prop :=
  ∀ (buf : List Byte) (start len : Nat) (s : State),
    (start + len ≤ buf.length →
      exec (.crcCompute buf start len) s =
        .next { s with buf := Buffer.ofBytes buf, crcStatus := .checksumComputed,
                       result := some ⟨true, (crcOver s.cfg s.crcTable ((buf.drop start).take len)).toNat,
                         some .checksumComputed⟩ }) ∧
    (buf.length < start + len →
      exec (.crcCompute buf start len) s =
        .next { s with buf := Buffer.ofBytes buf, crcStatus := .computeBufferTooSmall,
                       result := some ⟨false, 0, some .computeBufferTooSmall⟩ }) ∧
    crcOver s.cfg s.crcTable [] = s.cfg.initialValue ^^^ s.cfg.finalXor ∧
    (Buffer.ofBytes buf).toBytes = buf

/-- 41_crc.md R131. The table-driven CRC equals the bit-serial definition, for every legal
configuration and every list of bytes. -/
def Obligations.TableDrivenIsBitSerial : Prop :=
  ∀ (cfg : Config) (l : List Byte), cfg.legal = true →
    crcOver cfg (crcTable cfg.width cfg.polynomial) l = bitSerialCrc cfg l

/-- 41_crc.md R130 (with `FINAL_XOR = 0`, 90_conflicts.md C7). The CRC of a range, appended behind it,
makes the CRC over both 0. -/
def Obligations.AppendedCrcChecksToZero : Prop :=
  ∀ (buf : List Byte) (start n : Nat) (s : State),
    s.cfg.legal = true → s.crcTable = crcTable s.cfg.width s.cfg.polynomial → s.cfg.finalXor = 0 →
    start + n + s.cfg.width.bytes ≤ buf.length →
    ∃ (v : Word) (t u w : State),
      exec (.crcCompute buf start n) s = .next t ∧ t.result = some ⟨true, v.toNat, some .checksumComputed⟩ ∧
      exec (.crcAppend buf (start + n) v) t = .next u ∧
      u.result = some ⟨true, start + n + s.cfg.width.bytes, some .checksumAppended⟩ ∧
      exec (.crcCompute u.buf.toBytes start (n + s.cfg.width.bytes)) u = .next w ∧
      w.result = some ⟨true, 0, some .checksumComputed⟩

/-- 44_receive.md R186, 93_implementation_defined.md G1: "it must be proved from R123 if wanted". With a
polynomial whose lowest bit is set, changing any one byte changes the CRC, so that a changed byte never
passes the zero check. -/
def Obligations.OneChangedByteChangesTheCrc : Prop :=
  ∀ (cfg : Config) (l : List Byte) (k : Nat) (b : Byte),
    cfg.legal = true → cfg.polynomial.getLsbD 0 = true → k < l.length → b ≠ l.getD k 0 →
    crcOver cfg (crcTable cfg.width cfg.polynomial) (l.set k b) ≠
      crcOver cfg (crcTable cfg.width cfg.polynomial) l

/-- 41_crc.md R125, 20_memory.md R51 (bound: decision D10; value 0 on failure: D5). CRC_APPEND writes
bits `8*(W-k)-1 : 8*(W-k-1)` of the value at `start + k` and nothing else; past the end of the buffer it
fails and writes nothing. -/
def Obligations.CrcAppendMostSignificantFirst : Prop :=
  ∀ (buf : List Byte) (start : Nat) (crc : Word) (s : State), crc.toNat < 2 ^ (8 * s.cfg.width.bytes) →
    (start + s.cfg.width.bytes ≤ buf.length →
      Completes (.crcAppend buf start crc) s fun t =>
        t = { s with buf := t.buf, crcStatus := .checksumAppended,
                     result := some ⟨true, start + s.cfg.width.bytes, some .checksumAppended⟩ } ∧
        t.buf.size = buf.length ∧
        (∀ k, k < s.cfg.width.bytes →
          t.buf.get (start + k) = crc.extractLsb' (8 * (s.cfg.width.bytes - k - 1)) 8) ∧
        (∀ j, j < start ∨ start + s.cfg.width.bytes ≤ j → t.buf.get j = buf.getD j 0)) ∧
    (buf.length < start + s.cfg.width.bytes →
      exec (.crcAppend buf start crc) s =
        .next { s with buf := Buffer.ofBytes buf, crcStatus := .appendBufferTooSmall,
                       result := some ⟨false, 0, some .appendBufferTooSmall⟩ })

/-- 41_crc.md R127, 30_encoding.md R77 e (bound: decision D10; value 0 on failure: D5). CRC_EXTRACT reads
the `W` bytes at `start` as one number, most significant byte first, and changes no buffer byte. -/
def Obligations.CrcExtractReadsNumber : Prop :=
  ∀ (buf : List Byte) (start : Nat) (s : State),
    (start + s.cfg.width.bytes ≤ buf.length →
      exec (.crcExtract buf start) s =
        .next { s with buf := Buffer.ofBytes buf, crcStatus := .checksumExtracted,
                       result := some ⟨true, ((buf.drop start).take s.cfg.width.bytes).foldl
                         (fun v b => v * 256 + b.toNat) 0, some .checksumExtracted⟩ }) ∧
    (buf.length < start + s.cfg.width.bytes →
      exec (.crcExtract buf start) s =
        .next { s with buf := Buffer.ofBytes buf, crcStatus := .extractBufferTooSmall,
                       result := some ⟨false, 0, some .extractBufferTooSmall⟩ })

/-- 41_crc.md R128. CRC_EXTRACT after CRC_APPEND returns the value appended; CRC_APPEND of the value
CRC_EXTRACT returned leaves the buffer as it was. -/
def Obligations.ExtractInvertsAppend : Prop :=
  ∀ (buf : List Byte) (start : Nat) (s : State), start + s.cfg.width.bytes ≤ buf.length →
    (∀ crc : Word, crc.toNat < 2 ^ (8 * s.cfg.width.bytes) →
      Completes (.crcAppend buf start crc) s fun t =>
        Completes (.crcExtract t.buf.toBytes start) t fun u =>
          u.result = some ⟨true, crc.toNat, some .checksumExtracted⟩) ∧
    (∃ v : Word, Completes (.crcExtract buf start) s fun t =>
      t.result = some ⟨true, v.toNat, some .checksumExtracted⟩ ∧
      Completes (.crcAppend buf start v) t fun u => u.buf = Buffer.ofBytes buf)

/-! ## Staging buffers -/

/-- 42_buffer_ops.md R141 (value 0 on failure: decision D5; the success code: D3). WRITE_PAYLOAD within MAX_TX_PAYLOAD writes `src` from buffer index
`offset + 1` on, raises `tx_filled`, returns `offset + len`, and changes nothing else; beyond it, it
fails with value 0 and changes no byte and no tracker. With the rule's worked example. -/
def Obligations.WritePayloadEffect : Prop :=
  (∀ (src : List Byte) (offset len : Nat) (s : State), len ≤ src.length →
    (offset + len ≤ s.cfg.maxTxPayload →
      Completes (.writePayload src offset len) s fun t =>
        t = { s with tx := t.tx, txFilled := max s.txFilled (offset + len), xferStatus := .payloadWritten,
                     result := some ⟨true, offset + len, some .payloadWritten⟩ } ∧
        (∀ k, k < len → t.txBuf.get (offset + 1 + k) = src.getD k 0) ∧
        (∀ j, j < offset + 1 ∨ offset + 1 + len ≤ j → t.txBuf.get j = s.txBuf.get j)) ∧
    (s.cfg.maxTxPayload < offset + len →
      exec (.writePayload src offset len) s =
        .next { s with xferStatus := .writePayloadTooSmall, result := some ⟨false, 0, some .writePayloadTooSmall⟩ })) ∧
  (∀ cfg : Config, 10 ≤ cfg.maxTxPayload →
    Completes (.writePayload [1, 2, 3, 0, 0, 6, 0, 8, 0, 0] 0 10) (State.construct cfg) fun t =>
      t.txBuf.slice 1 10 = [1, 2, 3, 0, 0, 6, 0, 8, 0, 0] ∧ t.txFilled = 10 ∧
      t.result = some ⟨true, 10, some .payloadWritten⟩)

/-- 42_buffer_ops.md R143, R144, 10_state.md R26 (value 0 on failure: decision D5; the sink of the failed
operation is empty: assumption 7). READ_PAYLOAD inside `rx_filled` delivers the bytes from buffer index
`offset + 1` on and changes nothing else; beyond `rx_filled` it fails; it stops only where the index does
not exist, which needs `rx_filled` above its range. -/
def Obligations.ReadPayloadEffect : Prop :=
  ∀ (offset len : Nat) (s : State),
    (offset + len ≤ s.rxFilled → s.rxFilled ≤ s.cfg.maxRxPayload →
      Completes (.readPayload offset len) s fun t =>
        t = { s with dst := t.dst, xferStatus := .payloadRead, result := some ⟨true, offset + len, some .payloadRead⟩ } ∧
        t.dst.length = len ∧ (∀ k, k < len → t.dst.getD k 0 = s.rxBuf.get (offset + 1 + k))) ∧
    (s.rxFilled < offset + len →
      exec (.readPayload offset len) s =
        .next { s with dst := [], xferStatus := .readPayloadTooSmall,
                       result := some ⟨false, 0, some .readPayloadTooSmall⟩ }) ∧
    (offset + len ≤ s.rxFilled → s.rxBuf.size < offset + 1 + len →
      exec (.readPayload offset len) s = .fault .bufferIndexOutOfRange)

/-- 42_buffer_ops.md R145, R146 (status of a stand-alone reset: decision D3). RESET_TX and RESET_RX set
their tracker and their overhead byte to 0 and leave every other byte and everything else. -/
def Obligations.ResetOperations : Prop :=
  ∀ s : State,
    (Completes .resetTx s fun t =>
      t = { s with tx := t.tx, txFilled := 0, xferStatus := .transferStandby,
                   result := some ⟨true, 0, some .transferStandby⟩ } ∧
      t.txBuf.get 0 = 0 ∧ ∀ j, 1 ≤ j → t.txBuf.get j = s.txBuf.get j) ∧
    (Completes .resetRx s fun t =>
      t = { s with rx := t.rx, rxFilled := 0, xferStatus := .transferStandby,
                   result := some ⟨true, 0, some .transferStandby⟩ } ∧
      t.rxBuf.get 0 = 0 ∧ ∀ j, 1 ≤ j → t.rxBuf.get j = s.rxBuf.get j)

/-- 42_buffer_ops.md R147, R148, R149 (which getters: decision D18; that they write no status: D23). The
six getters return their value and write no state. -/
def Obligations.GettersAnswer : Prop :=
  ∀ s : State,
    exec .bytesInTx s = .next { s with result := some ⟨true, s.txFilled, none⟩ } ∧
    exec .bytesInRx s = .next { s with result := some ⟨true, s.rxFilled, none⟩ } ∧
    exec .getMaxTxPayload s = .next { s with result := some ⟨true, s.cfg.maxTxPayload, none⟩ } ∧
    exec .getMaxRxPayload s = .next { s with result := some ⟨true, s.cfg.maxRxPayload, none⟩ } ∧
    exec .getTxBufferSize s =
      .next { s with result := some ⟨true, s.cfg.maxTxPayload + 2 + s.cfg.width.bytes, none⟩ } ∧
    exec .getRxBufferSize s =
      .next { s with result := some ⟨true, s.cfg.maxRxPayload + 2 + s.cfg.width.bytes, none⟩ }

/-! ## Transmit encoder -/

/-- 30_encoding.md R73. With a payload of `P` bytes staged, SEND writes to the stream the outbound
frame, byte for byte `[start_byte][P][overhead][encoded payload][delimiter][CRC, most significant byte
first]` of length `4 + P + W`; it empties the staging tracker and leaves packet and CRC in `tx` behind a
zero overhead byte; nothing else but the status registers and the outcome changes (43_send.md R160). That
SEND ends rests on decision D14 (43_send.md R164; assumption 12): `write_bytes` may block and is taken to
return. -/
def Obligations.SendTransmitsFrame : Prop :=
  ∀ s : State, s.Inv → 1 ≤ s.txFilled →
    ∃ (packet crc : List Byte), encodeBytes (s.txBuf.slice 1 s.txFilled) s.cfg.delimiterByte = some packet ∧
      crc = crcToBytes s.cfg.width (crcOver s.cfg s.crcTable packet) ∧
      packet.length = s.txFilled + 2 ∧ crc.length = s.cfg.width.bytes ∧
      packet.getD (s.txFilled + 1) 0 = s.cfg.delimiterByte ∧
      Completes .send s fun t =>
        t.outbound = s.outbound ++ ([s.cfg.startByte, BitVec.ofNat 8 s.txFilled] ++ packet ++ crc) ∧
        (BitVec.ofNat 8 s.txFilled).toNat = s.txFilled ∧
        t.outbound.length = s.outbound.length + (4 + s.txFilled + s.cfg.width.bytes) ∧
        t = { s with tx := t.tx, txFilled := 0, outbound := t.outbound, cobsStatus := t.cobsStatus,
                     crcStatus := t.crcStatus, xferStatus := t.xferStatus, result := t.result } ∧
        t.txBuf.get 0 = 0 ∧
        t.txBuf.slice 1 (s.txFilled + 1 + s.cfg.width.bytes) = (packet ++ crc).drop 1 ∧
        (∀ j, s.txFilled + 2 + s.cfg.width.bytes ≤ j → t.txBuf.get j = s.txBuf.get j)

/-- 43_send.md R160, R161, R162, R163, 60_exceptions.md R203 (success codes: decision D3; the latched
registers: D4; value 0: D5). What SEND reports: PacketSent in a state of the invariant with a payload
staged; with nothing staged the encoder's EncodePayloadTooSmall in both registers, and nothing else
changes. Whenever SEND fails, in any state, it has written nothing to the stream, `tx_filled` keeps its
value, and the failing layer's code stands unchanged in that layer's register and in `xfer_status`. That a
SEND which transmits ends rests on decision D14 (R164; assumption 12). -/
def Obligations.SendOutcomes : Prop :=
  ∀ s : State,
    (s.Inv → 1 ≤ s.txFilled → Completes .send s fun t =>
      t.cobsStatus = .payloadEncoded ∧ t.crcStatus = .checksumAppended ∧ t.xferStatus = .packetSent ∧
        t.result = some ⟨true, 0, some .packetSent⟩) ∧
    (s.txFilled = 0 → exec .send s =
      .next { s with cobsStatus := .encodePayloadTooSmall, xferStatus := .encodePayloadTooSmall,
                     result := some ⟨false, 0, some .encodePayloadTooSmall⟩ }) ∧
    (∀ (t : State) (v : Nat) (st : Option Status), exec .send s = .next t → t.result = some ⟨false, v, st⟩ →
      t.outbound = s.outbound ∧ t.txFilled = s.txFilled ∧ v = 0 ∧ st = some t.xferStatus ∧
        (t.cobsStatus = t.xferStatus ∨ t.crcStatus = t.xferStatus))

/-! ## Receive parser -/

/-- 44_receive.md R171. Idle to ScanningForStart: the first effect of every RECEIVE is `rx_filled <- 0`,
`rx[0] <- 0`; the rest of `rx` is kept, and nothing else changes before the scan. RECEIVE as six transitions
of the sequencer inside one step is the model's (assumption 15). -/
def Obligations.ReceiveEntry : Prop :=
  ∀ s : State,
    exec .receive s = .next (s.enterReceive.runSequencer 6) ∧
    s.enterReceive = { s with rx := s.enterReceive.rx, rxFilled := 0, fsm := .scanningForStart } ∧
    s.enterReceive.rxBuf.get 0 = 0 ∧ (∀ j, 1 ≤ j → s.enterReceive.rxBuf.get j = s.rxBuf.get j)

/-- 44_receive.md R172. RECEIVE performs RESET_RX and enters ScanningForStart; every transition of the
sequencer is one of the table's, on the table's condition; there are no backward transitions; and RECEIVE
ends in Idle. What drains the stream is decision D12, the return to Idle decision D16; RECEIVE as six
transitions inside one step is the model's (assumption 15), and so is how a wait ends when the
environment's plan has come to its end (assumption 10). -/
def Obligations.SequencerFollowsTheTable : Prop :=
  (∀ s : State, exec .receive s = .next (s.enterReceive.runSequencer 6) ∧
    s.enterReceive = { s.clearRx with fsm := .scanningForStart }) ∧
  (∀ s : State, FsmEdge s s.fsmStep) ∧
  (∀ s : State, s.fsmStep.fsm = .idle ∨ stageOf s.fsm < stageOf s.fsmStep.fsm) ∧
  (∀ s t : State, exec .receive s = .next t → t.fsm = .idle)

/-- 44_receive.md R170, R176, R183, 30_encoding.md R75, R76, R78, 60_exceptions.md R226. RECEIVE accepts an
inbound frame whose CRC over packet and postamble is 0 and whose packet decodes, behind any available
bytes that are not the start byte, its own bytes trickling in at any gaps shorter than TIMEOUT_US: the
payload stands in `rx` behind a zero overhead byte, then the delimiter and the received CRC; what the port
holds and brings behind the frame stays there. -/
def Obligations.ReceiveAcceptsFrame : Prop :=
  ∀ (s : State) (garbage body crc payload : List Byte) (m r : Port),
    s.cfg.startByte ∉ garbage → s.cfg.delimiterByte ∉ body → body.length + 1 ≤ s.cfg.maxRxPayload + 2 →
    crc.length = s.cfg.width.bytes →
    Available s.port (garbage ++ [s.cfg.startByte]) m →
    Trickles s.cfg.timeoutUs m.now m (body ++ [s.cfg.delimiterByte] ++ crc) r →
    crcOver s.cfg s.crcTable (body ++ [s.cfg.delimiterByte] ++ crc) = 0 →
    decodeBytes (body ++ [s.cfg.delimiterByte]) s.cfg.delimiterByte = some payload →
    Completes .receive s fun t =>
      t = { s with rx := t.rx, rxFilled := payload.length, cobsStatus := .payloadDecoded,
                   crcStatus := .checksumComputed, xferStatus := .packetReceived, fsm := .idle,
                   bytesRead := t.bytesRead, tLast := t.tLast, inbound := r.fifo, now := r.now,
                   arrivals := r.arrivals, result := some ⟨true, 0, some .packetReceived⟩ } ∧
      payload.length = body.length - 1 ∧
      t.rxBuf.get 0 = 0 ∧ t.rxBuf.slice 1 payload.length = payload ∧
      t.rxBuf.get (payload.length + 1) = s.cfg.delimiterByte ∧
      t.rxBuf.slice (payload.length + 2) s.cfg.width.bytes = crc ∧
      (∀ j, payload.length + 2 + s.cfg.width.bytes ≤ j → t.rxBuf.get j = s.rxBuf.get j)

/-- 44_receive.md R182, R184, R185, 10_state.md R26, 60_exceptions.md R200. RECEIVE always ends: with a
payload of 1 to MAX_RX_PAYLOAD bytes, or with one of its failures and `rx_filled = 0`; it consumes a
prefix of the inbound bytes, and touches nothing but `rx`, its tracker, the status registers, the sequencer's
registers, the stream, the time and the outcome. -/
def Obligations.ReceiveOutcomes : Prop :=
  ∀ s : State, s.cfg.legal = true →
    Completes .receive s fun t =>
      t = { s with rx := t.rx, rxFilled := t.rxFilled, cobsStatus := t.cobsStatus, crcStatus := t.crcStatus,
                   xferStatus := t.xferStatus, fsm := .idle, bytesRead := t.bytesRead, tLast := t.tLast,
                   inbound := t.inbound, now := t.now, arrivals := t.arrivals, result := t.result } ∧
      (∃ used, s.port.stream = used ++ t.port.stream) ∧
      (t.result = some ⟨true, 0, some .packetReceived⟩ ∧ t.xferStatus = .packetReceived ∧
          1 ≤ t.rxFilled ∧ t.rxFilled ≤ s.cfg.maxRxPayload ∧ t.rxBuf.get 0 = 0 ∧
          t.rxBuf.get (t.rxFilled + 1) = s.cfg.delimiterByte ∨
        ∃ st ∈ receiveFailures, t.result = some ⟨false, 0, some st⟩ ∧ t.xferStatus = st ∧ t.rxFilled = 0)

/-- 44_receive.md R173, R184, R185 (what drains the stream: decision D12). When the bytes available hold
no start byte, RECEIVE discards them and ends at once, with NoBytesToParse or StartByteNotFound by
ALLOW_START_BYTE_ERRORS; `rx` keeps all but index 0, no sub-layer status changes, and the FIFO is empty. -/
def Obligations.DrainedStreamReported : Prop :=
  ∀ (s : State) (garbage : List Byte) (m : Port),
    s.cfg.startByte ∉ garbage → Available s.port garbage m → m.poll.byte = none →
    Completes .receive s fun t =>
      ReceiveFailed s t (if s.cfg.allowStartByteErrors then .startByteNotFound else .noBytesToParse) [] m.poll.port ∧
      t.inbound = [] ∧ t.cobsStatus = s.cobsStatus ∧ t.crcStatus = s.crcStatus

/-- 44_receive.md R176, R177, R184 (expiry at `>=` and the timer's start: decision D13). When the line is
silent for TIMEOUT_US after some packet bytes without a delimiter, however they trickled in, RECEIVE ends
with PacketTimeout: the bytes received stay at the front of `rx`, what comes after the silence is still to
come. That `bytes_read` keeps the number of those bytes after RECEIVE is the model's choice (assumption 13):
the spec leaves it unspecified there (10_state.md R33, 93_implementation_defined.md U9). -/
def Obligations.SilentPacketTimesOut : Prop :=
  ∀ (s : State) (garbage body : List Byte) (a m r : Port),
    s.cfg.startByte ∉ garbage → s.cfg.delimiterByte ∉ body → body.length < s.cfg.maxRxPayload + 2 →
    Available s.port (garbage ++ [s.cfg.startByte]) a → Trickles s.cfg.timeoutUs a.now a body m →
    Silent s.cfg.timeoutUs m.now m r →
    Completes .receive s fun t =>
      ReceiveFailed s t .packetTimeout body r ∧ t.bytesRead = body.length ∧
      t.cobsStatus = s.cobsStatus ∧ t.crcStatus = s.crcStatus

/-- 44_receive.md R177, R184, R185, 70_reset_and_hazards.md R258. After RX_PACKET_LIMIT bytes without a
delimiter, however they trickled in, RECEIVE ends with PacketOutOfBufferSpace, having consumed exactly
those. -/
def Obligations.OverlongPacketRunsOutOfSpace : Prop :=
  ∀ (s : State) (garbage body : List Byte) (m r : Port),
    s.cfg.startByte ∉ garbage → s.cfg.delimiterByte ∉ body → body.length = s.cfg.maxRxPayload + 2 →
    Available s.port (garbage ++ [s.cfg.startByte]) m → Trickles s.cfg.timeoutUs m.now m body r →
    Completes .receive s fun t =>
      ReceiveFailed s t .packetOutOfBufferSpace body r ∧
      t.cobsStatus = s.cobsStatus ∧ t.crcStatus = s.crcStatus

/-- 44_receive.md R179, R184 (expiry: decision D13). When the line is silent for TIMEOUT_US before all
`W` postamble bytes have come, however the rest trickled in, RECEIVE ends with PostambleTimeout; the bytes
that came are stored behind the packet. -/
def Obligations.SilentPostambleTimesOut : Prop :=
  ∀ (s : State) (garbage body part : List Byte) (a m r : Port),
    s.cfg.startByte ∉ garbage → s.cfg.delimiterByte ∉ body → body.length + 1 ≤ s.cfg.maxRxPayload + 2 →
    part.length < s.cfg.width.bytes →
    Available s.port (garbage ++ [s.cfg.startByte]) a →
    Trickles s.cfg.timeoutUs a.now a (body ++ [s.cfg.delimiterByte] ++ part) m →
    Silent s.cfg.timeoutUs m.now m r →
    Completes .receive s fun t =>
      ReceiveFailed s t .postambleTimeout (body ++ [s.cfg.delimiterByte] ++ part) r ∧
      t.cobsStatus = s.cobsStatus ∧ t.crcStatus = s.crcStatus

/-- 44_receive.md R180, R184, R208. A frame, however it trickled in, whose CRC over packet and postamble is
not 0 ends RECEIVE with CRCCheckFailed before the packet is decoded: it stays in `rx` encoded,
`cobs_status` is untouched. -/
def Obligations.CorruptFrameFailsCrc : Prop :=
  ∀ (s : State) (garbage body crc : List Byte) (m r : Port),
    s.cfg.startByte ∉ garbage → s.cfg.delimiterByte ∉ body → body.length + 1 ≤ s.cfg.maxRxPayload + 2 →
    crc.length = s.cfg.width.bytes →
    Available s.port (garbage ++ [s.cfg.startByte]) m →
    Trickles s.cfg.timeoutUs m.now m (body ++ [s.cfg.delimiterByte] ++ crc) r →
    crcOver s.cfg s.crcTable (body ++ [s.cfg.delimiterByte] ++ crc) ≠ 0 →
    Completes .receive s fun t =>
      ReceiveFailed s t .crcCheckFailed (body ++ [s.cfg.delimiterByte] ++ crc) r ∧
      t.cobsStatus = s.cobsStatus ∧ t.crcStatus = .checksumComputed

/-- 44_receive.md R186, 93_implementation_defined.md G1 (an explanation there, which "must be proved"
from R123). Never a silent success: with a polynomial whose lowest bit is set, a frame whose CRC check
holds is rejected with CRCCheckFailed once any one byte of its packet or CRC is changed such that the first
delimiter stays where it was. -/
def Obligations.DamagedFrameIsRejected : Prop :=
  ∀ (s : State) (garbage body crc body' crc' : List Byte) (k : Nat) (b : Byte) (m r : Port),
    s.cfg.legal = true → s.crcTable = crcTable s.cfg.width s.cfg.polynomial →
    s.cfg.polynomial.getLsbD 0 = true →
    crcOver s.cfg s.crcTable (body ++ [s.cfg.delimiterByte] ++ crc) = 0 →
    body'.length = body.length → crc'.length = crc.length → k < body.length + 1 + crc.length →
    b ≠ (body ++ [s.cfg.delimiterByte] ++ crc).getD k 0 →
    body' ++ [s.cfg.delimiterByte] ++ crc' = (body ++ [s.cfg.delimiterByte] ++ crc).set k b →
    s.cfg.startByte ∉ garbage → s.cfg.delimiterByte ∉ body' → body.length + 1 ≤ s.cfg.maxRxPayload + 2 →
    crc.length = s.cfg.width.bytes →
    Available s.port (garbage ++ [s.cfg.startByte]) m →
    Trickles s.cfg.timeoutUs m.now m (body' ++ [s.cfg.delimiterByte] ++ crc') r →
    Completes .receive s fun t =>
      t.result = some ⟨false, 0, some .crcCheckFailed⟩ ∧ t.xferStatus = .crcCheckFailed ∧ t.rxFilled = 0 ∧
        t.port = r

/-- 44_receive.md R178, R181, R184, 40_cobs.md R108, 60_exceptions.md R203 (the check at `rx[0]`: decision
D11). A frame that passes the CRC but does not decode surfaces the very code COBS_DECODE gives for the
packet, in both registers; `rx_filled` stays 0; the packet in `rx` is as COBS_DECODE left it, the received
CRC behind it. A delimiter in either of the first two positions ends the packet too short to decode. -/
def Obligations.UndecodablePacketSurfaced : Prop :=
  ∀ (s : State) (garbage body crc : List Byte) (m r : Port),
    s.cfg.startByte ∉ garbage → s.cfg.delimiterByte ∉ body → body.length + 1 ≤ s.cfg.maxRxPayload + 2 →
    crc.length = s.cfg.width.bytes →
    Available s.port (garbage ++ [s.cfg.startByte]) m →
    Trickles s.cfg.timeoutUs m.now m (body ++ [s.cfg.delimiterByte] ++ crc) r →
    crcOver s.cfg s.crcTable (body ++ [s.cfg.delimiterByte] ++ crc) = 0 →
    decodeBytes (body ++ [s.cfg.delimiterByte]) s.cfg.delimiterByte = none →
    let res := cobsDecode (Buffer.ofBytes (body ++ [s.cfg.delimiterByte])) (body.length + 1) s.cfg.delimiterByte
    (body.length < 2 → res.status = .decodePacketTooSmall) ∧
    Completes .receive s fun t =>
      t = { s with rx := t.rx, rxFilled := 0, cobsStatus := res.status, crcStatus := .checksumComputed,
                   xferStatus := res.status, fsm := .idle, bytesRead := t.bytesRead, tLast := t.tLast,
                   inbound := r.fifo, now := r.now, arrivals := r.arrivals,
                   result := some ⟨false, 0, some res.status⟩ } ∧
      (∀ j, j < body.length + 1 → t.rxBuf.get j = res.buf.get j) ∧
      t.rxBuf.slice (body.length + 1) s.cfg.width.bytes = crc ∧
      (∀ j, body.length + 1 + s.cfg.width.bytes ≤ j → t.rxBuf.get j = s.rxBuf.get j)

/-- 44_receive.md R176, 60_exceptions.md R224 (poll first, `>=`: decision D13; the end of the plan:
assumption 10). `await_byte` takes a byte that is available whatever the timer says, passes over empty
polls while the timer runs, and answers Timeout only on an empty FIFO, once TIMEOUT_US have passed since
the last successful read. -/
def Obligations.AwaitByteRule : Prop :=
  ∀ (timeout tLast : Nat) (p : Port),
    (∀ b, p.poll.byte = some b → awaitByte timeout tLast p = ⟨some b, p.poll.port⟩) ∧
    (p.poll.byte = none → p.poll.port.now - tLast < timeout → p.arrivals ≠ [] →
      awaitByte timeout tLast p = awaitByte timeout tLast p.poll.port) ∧
    (p.poll.byte = none → p.poll.port.now - tLast < timeout → p.arrivals = [] →
      awaitByte timeout tLast p = ⟨none, { p with now := tLast + timeout }⟩) ∧
    (p.poll.byte = none → timeout ≤ p.poll.port.now - tLast → awaitByte timeout tLast p = ⟨none, p.poll.port⟩) ∧
    ((awaitByte timeout tLast p).byte = none →
      timeout ≤ (awaitByte timeout tLast p).port.now - tLast ∧ (awaitByte timeout tLast p).port.fifo = [])

/-- 30_encoding.md R73, R75, 40_cobs.md R110, 41_crc.md R130, 70_reset_and_hazards.md R243. What one
engine sends, another with the same CRC parameters, start byte and delimiter receives, once the size byte
is taken out, behind any bytes that are not the start byte and however its bytes trickle in: with `D = 0` and `FINAL_XOR = 0`, the payload staged on one side is the payload read on the
other, for every payload that fits the receiver. -/
def Obligations.SentPayloadIsReceived : Prop :=
  ∀ (a b t : State) (garbage : List Byte) (m r : Port), a.Inv → b.Inv →
    a.cfg.width = b.cfg.width → a.cfg.polynomial = b.cfg.polynomial → a.cfg.initialValue = b.cfg.initialValue →
    a.cfg.finalXor = 0 → b.cfg.finalXor = 0 → a.cfg.delimiterByte = 0 → b.cfg.delimiterByte = 0 →
    a.cfg.startByte = b.cfg.startByte → 1 ≤ a.txFilled → a.txFilled ≤ b.cfg.maxRxPayload →
    exec .send a = .next t →
    b.cfg.startByte ∉ garbage → Available b.port (garbage ++ [b.cfg.startByte]) m →
    Trickles b.cfg.timeoutUs m.now m (t.outbound.drop (a.outbound.length + 2)) r →
    Completes .receive b fun u =>
      u.result = some ⟨true, 0, some .packetReceived⟩ ∧ u.port = r ∧ u.rxFilled = a.txFilled ∧
      u.rxBuf.slice 1 a.txFilled = a.txBuf.slice 1 a.txFilled ∧
      Completes (.readPayload 0 a.txFilled) u fun v => v.dst = a.txBuf.slice 1 a.txFilled

/-! ## The whole machine -/

/-- 10_state.md R21, R28, 20_memory.md R64, 70_reset_and_hazards.md R240. No operation writes a
configuration register, and none but CRC_TABLE_GEN the CRC table. -/
def Obligations.ConfigurationIsImmutable : Prop :=
  ∀ (i : Instr) (s t : State), exec i s = .next t →
    t.cfg = s.cfg ∧ (i ≠ .crcTableGen → t.crcTable = s.crcTable)

/-- 10_state.md R22, R23, R35, 20_memory.md R50, R57, R61. Which operations reach which space: `tx` only
WRITE_PAYLOAD, RESET_TX and SEND; `rx` and the inbound stream only RECEIVE, and RESET_RX `rx[0]`; the
outbound stream only SEND, which appends; the operand buffer only the stand-alone codec and CRC
operations; the sink only READ_PAYLOAD. That the inbound side stands still outside RECEIVE is the
model's (assumption 9): bytes that arrive there join before the next poll; and so is that `bytes_read` and
`t_last` keep their values there (assumption 13). -/
def Obligations.SpacesHaveTheirWriters : Prop :=
  ∀ (i : Instr) (s t : State), exec i s = .next t →
    (i.opcode ∉ [.writePayload, .resetTx, .send] → t.tx = s.tx ∧ t.txFilled = s.txFilled) ∧
    (i.opcode ∉ [.receive, .resetRx] → t.rx = s.rx ∧ t.rxFilled = s.rxFilled) ∧
    (i.opcode ≠ .receive → t.inbound = s.inbound ∧ t.arrivals = s.arrivals ∧ t.now = s.now ∧ t.fsm = s.fsm ∧
      t.bytesRead = s.bytesRead ∧ t.tLast = s.tLast) ∧
    (i.opcode ≠ .send → t.outbound = s.outbound) ∧ (∃ sent, t.outbound = s.outbound ++ sent) ∧
    (i.opcode ∉ [.cobsEncode, .cobsDecode, .crcCompute, .crcAppend, .crcExtract] → t.buf = s.buf) ∧
    (i.opcode ≠ .readPayload → t.dst = s.dst) ∧ t.commands = s.commands

/-- 10_state.md R31 (the registers of the COBS and CRC layers: decision D4; the getters: D23). Which
operations write which status register: the codec's only the codec's operations, SEND and RECEIVE; the
CRC engine's only its own, SEND and RECEIVE; the transfer engine's only its own. -/
def Obligations.StatusRegistersHaveTheirWriters : Prop :=
  ∀ (i : Instr) (s t : State), exec i s = .next t →
    (i.opcode ∉ [.cobsEncode, .cobsDecode, .send, .receive] → t.cobsStatus = s.cobsStatus) ∧
    (i.opcode ∉ [.crcCompute, .crcAppend, .crcExtract, .send, .receive] → t.crcStatus = s.crcStatus) ∧
    (i.opcode ∉ [.writePayload, .readPayload, .resetTx, .resetRx, .send, .receive] → t.xferStatus = s.xferStatus)

/-- 10_state.md R31, R33, 93_implementation_defined.md U9 (the operand buffer, the sink and the outcome are
held by the model: assumptions 6 to 8). Nothing depends on a status register, on `bytes_read` or `t_last`,
or on what earlier operations handed to the host: two states that differ in nothing else give the same
outcome for every operation, hand back the same bytes, latch the same codes, and again differ in nothing
else, each of those registers being written alike in both or kept in both (that `bytes_read` and `t_last` keep
a value after RECEIVE: assumption 13). -/
def Obligations.NothingReadsTheStatusRegisters : Prop :=
  ∀ (i : Instr) (s s' : State), SameBehind s s' →
    (∀ t, exec i s = .next t → ∃ t', exec i s' = .next t' ∧ t'.result = t.result ∧ SameBehind t t' ∧
      SameOrKept s.cobsStatus s'.cobsStatus t.cobsStatus t'.cobsStatus ∧
      SameOrKept s.crcStatus s'.crcStatus t.crcStatus t'.crcStatus ∧
      SameOrKept s.xferStatus s'.xferStatus t.xferStatus t'.xferStatus ∧
      SameOrKept s.bytesRead s'.bytesRead t.bytesRead t'.bytesRead ∧
      SameOrKept s.tLast s'.tLast t.tLast t'.tLast ∧
      SameOrKept s.buf s'.buf t.buf t'.buf ∧ SameOrKept s.dst s'.dst t.dst t'.dst ∧
      (i.opcode = .readPayload → t'.dst = t.dst) ∧
      (i.opcode ∈ [.cobsEncode, .cobsDecode, .crcCompute, .crcAppend, .crcExtract] → t'.buf = t.buf) ∧
      (i.opcode ∈ [.cobsEncode, .cobsDecode, .send] → t'.cobsStatus = t.cobsStatus) ∧
      (i.opcode ∈ [.crcCompute, .crcAppend, .crcExtract] → t'.crcStatus = t.crcStatus) ∧
      (i.opcode ∈ [.writePayload, .readPayload, .resetTx, .resetRx, .send, .receive] →
        t'.xferStatus = t.xferStatus)) ∧
    (∀ r, exec i s = .refused r → exec i s' = .refused r) ∧
    (∀ f, exec i s = .fault f → exec i s' = .fault f)

/-- 00_scope.md R17, 60_exceptions.md R200, R203 (value 0 on failure: decision D5; the registers of the
COBS and CRC layers: D4). Every operation returns an outcome; a failed one has value 0 and a status that
is a failure, latched in the operation's layer, and in the failing sub-layer's register as well when it
comes from one. -/
def Obligations.FailuresReturnTheTriple : Prop :=
  ∀ (i : Instr) (s t : State), exec i s = .next t →
    ∃ r, t.result = some r ∧
      (r.ok = false → r.value = 0 ∧ ∃ st, r.status = some st ∧ st.kinds i.opcode ≠ [] ∧
        t.statusOf (match i.opcode with
          | .cobsEncode | .cobsDecode => .cobs
          | .crcCompute | .crcAppend | .crcExtract => .crc
          | _ => .transfer) = st ∧ t.statusOf st.layer = st) ∧
      (r.ok = true → ∀ st, r.status = some st → st.kinds i.opcode = [])

/-- 30_encoding.md R80, R81 (numbers: decision D3). The three code spaces are disjoint: no two statuses
share a code, and each layer's codes lie in its suggested range. -/
def Obligations.StatusCodesAreDisjoint : Prop :=
  (∀ a b : Status, a.code = b.code → a = b) ∧
  ∀ a : Status,
    (a.layer = .cobs → 11 ≤ a.code.toNat ∧ a.code.toNat ≤ 23) ∧
    (a.layer = .crc → 51 ≤ a.code.toNat ∧ a.code.toNat ≤ 57) ∧
    (a.layer = .transfer → 101 ≤ a.code.toNat ∧ a.code.toNat ≤ 113)

/-- 10_state.md R25, 42_buffer_ops.md R142 a, 70_reset_and_hazards.md R254 c. `tx_filled` grows with
writes and is lowered only to 0, by RESET_TX or a SEND that succeeded. -/
def Obligations.TxFilledOnlyDropsToZero : Prop :=
  ∀ (i : Instr) (s t : State), exec i s = .next t → t.txFilled < s.txFilled →
    t.txFilled = 0 ∧ (i = .resetTx ∨ i = .send ∧ t.result = some ⟨true, 0, some .packetSent⟩)

/-- 10_state.md R26, 42_buffer_ops.md R148, 90_conflicts.md C14. `rx_filled` is set to a non-zero value
only by a successful RECEIVE; any other change of it is to 0, by RECEIVE or RESET_RX. -/
def Obligations.RxFilledOnlyFromReceive : Prop :=
  ∀ (i : Instr) (s t : State), exec i s = .next t → t.rxFilled ≠ s.rxFilled →
    i = .receive ∧ t.result = some ⟨true, 0, some .packetReceived⟩ ∨
      t.rxFilled = 0 ∧ (i = .receive ∨ i = .resetRx)

/-- 60_exceptions.md R226 (the port's contract: decisions D12, D14; that bytes arrive before a poll:
assumption 9). `bytes_available()` is the length of the inbound FIFO, whatever is still to arrive;
`try_read_byte()` answers none exactly when it is 0, and then changes nothing; otherwise it takes the byte
at the head. Bytes that arrive join the FIFO at its tail, none lost, none added, and time never turns back.
`write_bytes` appends in order. -/
def Obligations.StreamPortContract : Prop :=
  (∀ p : Port, (tryReadByte p).byte = none ↔ bytesAvailable p = 0) ∧
  (∀ p : Port, (tryReadByte p).byte = none → (tryReadByte p).port = p) ∧
  (∀ (p : Port) (b : Byte), (tryReadByte p).byte = some b →
    p.fifo = b :: (tryReadByte p).port.fifo ∧ bytesAvailable p = bytesAvailable (tryReadByte p).port + 1 ∧
      (tryReadByte p).port = { p with fifo := (tryReadByte p).port.fifo }) ∧
  (∀ (p : Port) (later : List Arrival), bytesAvailable { p with arrivals := later } = p.fifo.length) ∧
  (∀ p : Port, p.pass.stream = p.stream ∧ p.fifo <+: p.pass.fifo ∧ p.now ≤ p.pass.now) ∧
  (∀ (s : State) (l : List Byte), s.writeBytes l = { s with outbound := s.outbound ++ l })

/-- 60_exceptions.md R202, 44_receive.md R184 (numbers and names of the idle and success codes: decision
D3). Between operations as the invariant has them, an operation fails only with a status whose row in the
table of failures names it; and a RECEIVE with `D = 0` never with DelimiterTooEarly or
DecodeAlreadyDecoded. -/
def Obligations.FailuresHaveTheirRaisers : Prop :=
  ∀ (i : Instr) (s t : State) (v : Nat) (st : Status), s.Inv → exec i s = .next t →
    t.result = some ⟨false, v, some st⟩ →
    i.opcode ∈ st.raisers ∧
      (i = .receive → s.cfg.delimiterByte = 0 → st ≠ .delimiterTooEarly ∧ st ≠ .decodeAlreadyDecoded)
end

