-- ==== Sys2Proof/Laws/Memory.lean ====
section
/-! SUPPORT. Laws of byte memories: reading after writing, and that every operation keeps the canonical
form, so that equal contents are equal data. -/

namespace Sys2Proof.Machine

@[simp] theorem Memory.read_nil (i : Nat) : Memory.read [] i = 0 := rfl

theorem Memory.read_cons (a : Nat) (v : Byte) (m : Memory) (i : Nat) :
    Memory.read ((a, v) :: m) i = if a = i then v else Memory.read m i := rfl

theorem Memory.read_erase (m : Memory) (i j : Nat) :
    Memory.read (Memory.erase m i) j = if j = i then 0 else Memory.read m j := by
  induction m with
  | nil => simp [Memory.erase]
  | cons c m ih =>
    obtain ⟨a, v⟩ := c
    simp only [Memory.erase] at ih ⊢
    by_cases hai : a = i
    · subst hai
      rw [List.filter_cons_of_neg (by simp), ih, Memory.read_cons]
      by_cases hj : j = a
      · simp [hj]
      · simp [hj, Ne.symm hj]
    · rw [List.filter_cons_of_pos (by simpa using hai), Memory.read_cons, Memory.read_cons, ih]
      by_cases hj : a = j
      · subst hj; simp [hai]
      · simp [hj]

theorem Memory.read_insert (m : Memory) (i j : Nat) (v : Byte) :
    Memory.read (Memory.insert (Memory.erase m i) i v) j = if j = i then v else Memory.read m j := by
  have key : ∀ m' : Memory, (∀ c ∈ m', c.1 ≠ i) →
      Memory.read (Memory.insert m' i v) j = if j = i then v else Memory.read m' j := by
    intro m'
    induction m' with
    | nil => intro _; simp [Memory.insert, Memory.read_cons, eq_comm]
    | cons c m' ih =>
      obtain ⟨a, w⟩ := c
      intro h
      have ha : a ≠ i := h (a, w) (by simp)
      have ih' := ih fun c hc => h c (by simp [hc])
      simp only [Memory.insert]
      split
      · rw [Memory.read_cons]
        by_cases hj : i = j
        · simp [hj]
        · simp [hj, Ne.symm hj]
      · rw [Memory.read_cons, Memory.read_cons, ih']
        by_cases hj : a = j
        · subst hj; simp [ha]
        · simp [hj]
  rw [key _ fun c hc => ?_, Memory.read_erase]
  · by_cases hj : j = i <;> simp [hj]
  · simpa using (List.mem_filter.1 hc).2

/-- The law of reading after writing, at every index. -/
@[simp] theorem Memory.read_write (m : Memory) (i j : Nat) (v : Byte) :
    Memory.read (Memory.write m i v) j = if j = i then v else Memory.read m j := by
  unfold Memory.write
  split
  · next h => rw [Memory.read_erase, h]
  · exact Memory.read_insert m i j v

theorem Memory.read_write_same (m : Memory) (i : Nat) (v : Byte) : Memory.read (Memory.write m i v) i = v := by
  simp

theorem Memory.read_write_other (m : Memory) {i j : Nat} (v : Byte) (h : j ≠ i) :
    Memory.read (Memory.write m i v) j = Memory.read m j := by
  simp [h]

/-! ## The canonical form -/

theorem Memory.wf_cons (size a : Nat) (v : Byte) (m : Memory) :
    Memory.wf size ((a, v) :: m) = true ↔
      a < size ∧ v ≠ 0 ∧ (∀ c ∈ m, a < c.1) ∧ Memory.wf size m = true := by
  simp only [Memory.wf, Bool.and_eq_true, decide_eq_true_eq, List.all_eq_true]
  tauto

@[simp] theorem Memory.wf_nil (size : Nat) : Memory.wf size [] = true := rfl

theorem Memory.erase_wf {size : Nat} {m : Memory} (i : Nat) (h : Memory.wf size m = true) :
    Memory.wf size (Memory.erase m i) = true := by
  induction m with
  | nil => rfl
  | cons c m ih =>
    obtain ⟨a, v⟩ := c
    obtain ⟨ha, hv, hall, hm⟩ := (Memory.wf_cons ..).1 h
    simp only [Memory.erase] at ih ⊢
    by_cases hai : a = i
    · rw [List.filter_cons_of_neg (by simpa using hai)]; exact ih hm
    · rw [List.filter_cons_of_pos (by simpa using hai)]
      exact (Memory.wf_cons ..).2 ⟨ha, hv, fun c hc => hall c (List.mem_filter.1 hc).1, ih hm⟩

theorem Memory.mem_insert {m : Memory} {i : Nat} {v : Byte} {c : Host.Cell}
    (h : c ∈ Memory.insert m i v) : c = (i, v) ∨ c ∈ m := by
  induction m with
  | nil => simpa [Memory.insert] using h
  | cons d m ih =>
    obtain ⟨a, w⟩ := d
    simp only [Memory.insert] at h
    split at h
    · simpa using h
    · rcases List.mem_cons.1 h with h | h
      · exact .inr (by simp [h])
      · exact (ih h).imp id fun h => by simp [h]

theorem Memory.insert_wf {size : Nat} {m : Memory} {i : Nat} {v : Byte} (h : Memory.wf size m = true)
    (hi : i < size) (hv : v ≠ 0) (hfree : ∀ c ∈ m, c.1 ≠ i) : Memory.wf size (Memory.insert m i v) = true := by
  induction m with
  | nil => exact (Memory.wf_cons ..).2 ⟨hi, hv, by simp, rfl⟩
  | cons d m ih =>
    obtain ⟨a, w⟩ := d
    obtain ⟨ha, hw, hall, hm⟩ := (Memory.wf_cons ..).1 h
    have hai : a ≠ i := hfree (a, w) (by simp)
    simp only [Memory.insert]
    split
    · next hlt =>
      refine (Memory.wf_cons ..).2 ⟨hi, hv, fun c hc => ?_, h⟩
      rcases List.mem_cons.1 hc with rfl | hc
      · exact hlt
      · exact Nat.lt_trans hlt (hall c hc)
    · next hge =>
      refine (Memory.wf_cons ..).2 ⟨ha, hw, fun c hc => ?_, ih hm fun c hc => hfree c (by simp [hc])⟩
      rcases Memory.mem_insert hc with rfl | hc
      · show a < i; omega
      · exact hall c hc

/-- A write below the size keeps the canonical form. -/
theorem Memory.write_wf {size : Nat} {m : Memory} {i : Nat} (v : Byte) (h : Memory.wf size m = true)
    (hi : i < size) : Memory.wf size (Memory.write m i v) = true := by
  unfold Memory.write
  split
  · exact Memory.erase_wf i h
  · next hv =>
    exact Memory.insert_wf (Memory.erase_wf i h) hi hv fun c hc => by simpa using (List.mem_filter.1 hc).2

/-- Writing 0 keeps the canonical form at any index: it only removes a cell. -/
theorem Memory.write_zero_wf {size : Nat} {m : Memory} (i : Nat) (h : Memory.wf size m = true) :
    Memory.wf size (Memory.write m i 0) = true := by
  simpa [Memory.write] using Memory.erase_wf i h

theorem Memory.read_eq_zero_of_lt {size : Nat} {m : Memory} {i : Nat} (h : ∀ c ∈ m, i < c.1)
    (hwf : Memory.wf size m = true) : Memory.read m i = 0 := by
  induction m with
  | nil => rfl
  | cons c m ih =>
    obtain ⟨a, v⟩ := c
    have ha : i < a := h (a, v) (by simp)
    rw [Memory.read_cons, if_neg (by omega)]
    exact ih (fun c hc => h c (by simp [hc])) ((Memory.wf_cons ..).1 hwf).2.2.2

/-- In canonical form an index past the size reads 0. -/
theorem Memory.read_past {size : Nat} {m : Memory} {i : Nat} (h : Memory.wf size m = true) (hi : size ≤ i) :
    Memory.read m i = 0 := by
  induction m with
  | nil => rfl
  | cons c m ih =>
    obtain ⟨a, v⟩ := c
    obtain ⟨ha, _, _, hm⟩ := (Memory.wf_cons ..).1 h
    rw [Memory.read_cons, if_neg (by omega)]
    exact ih hm

/-- Two memories in canonical form that read the same everywhere are the same list. -/
theorem Memory.ext_read {size : Nat} {m m' : Memory} (h : Memory.wf size m = true) (h' : Memory.wf size m' = true)
    (hr : ∀ i, Memory.read m i = Memory.read m' i) : m = m' := by
  induction m generalizing m' with
  | nil =>
    cases m' with
    | nil => rfl
    | cons c m' =>
      obtain ⟨a, v⟩ := c
      exact absurd (by simpa [Memory.read_cons] using (hr a).symm) ((Memory.wf_cons ..).1 h').2.1
  | cons c m ih =>
    obtain ⟨a, v⟩ := c
    obtain ⟨_, hv, hall, hm⟩ := (Memory.wf_cons ..).1 h
    cases m' with
    | nil => exact absurd (by simpa [Memory.read_cons] using hr a) hv
    | cons c' m' =>
      obtain ⟨a', v'⟩ := c'
      obtain ⟨_, hv', hall', hm'⟩ := (Memory.wf_cons ..).1 h'
      have haa : a = a' := by
        rcases Nat.lt_trichotomy a a' with hlt | heq | hgt
        · exfalso
          have := hr a
          rw [Memory.read_cons, if_pos rfl, Memory.read_eq_zero_of_lt (size := size) ?_ h'] at this
          · exact hv this
          · intro c hc
            rcases List.mem_cons.1 hc with rfl | hc
            · exact hlt
            · exact Nat.lt_trans hlt (hall' c hc)
        · exact heq
        · exfalso
          have := (hr a').symm
          rw [Memory.read_cons, if_pos rfl, Memory.read_eq_zero_of_lt (size := size) ?_ h] at this
          · exact hv' this
          · intro c hc
            rcases List.mem_cons.1 hc with rfl | hc
            · exact hgt
            · exact Nat.lt_trans hgt (hall c hc)
      subst haa
      have hvv : v = v' := by simpa [Memory.read_cons] using hr a
      subst hvv
      rw [ih hm hm' fun i => ?_]
      by_cases hi : a = i
      · subst hi
        rw [Memory.read_eq_zero_of_lt hall hm, Memory.read_eq_zero_of_lt hall' hm']
      · simpa [Memory.read_cons, hi] using hr i

/-! ## Presented bytes -/

theorem Memory.ofBytes_index {l : List Byte} {start : Nat} {c : Host.Cell} (h : c ∈ Memory.ofBytes start l) :
    start ≤ c.1 := by
  induction l generalizing start with
  | nil => simp [Memory.ofBytes] at h
  | cons v vs ih =>
    simp only [Memory.ofBytes] at h
    split at h
    · exact Nat.le_of_succ_le (ih h)
    · rcases List.mem_cons.1 h with rfl | h
      · exact Nat.le_refl _
      · exact Nat.le_of_succ_le (ih h)

theorem Memory.ofBytes_wf (l : List Byte) (start size : Nat) (h : start + l.length ≤ size) :
    Memory.wf size (Memory.ofBytes start l) = true := by
  induction l generalizing start with
  | nil => rfl
  | cons v vs ih =>
    rw [List.length_cons] at h
    have hv := ih (start + 1) (by omega)
    simp only [Memory.ofBytes]
    split
    · exact hv
    · next hne => exact (Memory.wf_cons ..).2 ⟨by omega, hne, fun c hc => Memory.ofBytes_index hc, hv⟩

theorem Memory.read_ofBytes (l : List Byte) (start i : Nat) :
    Memory.read (Memory.ofBytes start l) i = if start ≤ i then l.getD (i - start) 0 else 0 := by
  induction l generalizing start with
  | nil => simp [Memory.ofBytes]
  | cons v vs ih =>
    have hcons : (if start ≤ i then (v :: vs).getD (i - start) 0 else 0) =
        if start = i then v else if start + 1 ≤ i then vs.getD (i - (start + 1)) 0 else 0 := by
      by_cases h1 : start = i
      · subst h1; simp
      · by_cases h2 : start + 1 ≤ i
        · obtain ⟨k, rfl⟩ : ∃ k, i = start + 1 + k := ⟨i - (start + 1), by omega⟩
          have : start + 1 + k - start = k + 1 := by omega
          simp [h1, this, show start ≤ start + 1 + k by omega]
        · simp [h1, h2, show ¬ start ≤ i by omega]
    rw [hcons]
    simp only [Memory.ofBytes]
    split
    · next hv =>
      rw [ih]
      by_cases h1 : start = i
      · subst h1; simp [hv]
      · simp [h1]
    · rw [Memory.read_cons, ih]

end Sys2Proof.Machine
end

