-- ==== Sys2Proof/Laws/Buffer.lean ====
section
/-! SUPPORT. Laws of buffers: single bytes, slices, runs of writes, presented operand buffers. -/

namespace Sys2Proof.Machine

@[simp] theorem Buffer.get_set (b : Buffer) (i j : Nat) (v : Byte) :
    (b.set i v).get j = if j = i then v else b.get j := Memory.read_write ..

@[simp] theorem Buffer.size_set (b : Buffer) (i : Nat) (v : Byte) : (b.set i v).size = b.size := rfl

@[simp] theorem Buffer.get_mk (size : Nat) (m : Memory) (i : Nat) : Buffer.get ⟨size, m⟩ i = Memory.read m i := rfl

/-- The canonical form of a buffer: that of its cells, inside its size. -/
abbrev Buffer.wf (b : Buffer) : Prop := Memory.wf b.size b.cells = true

theorem Buffer.set_wf {b : Buffer} {i : Nat} (v : Byte) (h : b.wf) (hi : i < b.size) : (b.set i v).wf :=
  Memory.write_wf v h hi

/-- Buffers in canonical form of one size with equal bytes are equal. -/
theorem Buffer.ext_get {b b' : Buffer} (h : b.wf) (h' : b'.wf) (hs : b.size = b'.size)
    (hg : ∀ i < b.size, b.get i = b'.get i) : b = b' := by
  obtain ⟨n, m⟩ := b
  obtain ⟨n', m'⟩ := b'
  obtain rfl : n = n' := hs
  congr 1
  refine Memory.ext_read h h' fun i => ?_
  by_cases hi : i < n
  · exact hg i hi
  · rw [Memory.read_past (size := n) h (by omega), Memory.read_past (size := n) h' (by omega)]

/-! ## Slices -/

@[simp] theorem Buffer.length_slice (b : Buffer) (start n : Nat) : (b.slice start n).length = n := by
  induction n generalizing start with
  | zero => rfl
  | succ n ih => simp [Buffer.slice, ih]

theorem Buffer.getElem_slice (b : Buffer) (start n k : Nat) (h : k < (b.slice start n).length) :
    (b.slice start n)[k] = b.get (start + k) := by
  induction n generalizing start k with
  | zero => simp at h
  | succ n ih =>
    cases k with
    | zero => rfl
    | succ k =>
      have := ih (start + 1) k (by simpa using h)
      simpa [Buffer.slice, Nat.add_assoc, Nat.add_comm 1 k] using this

/-- A slice depends only on the bytes of its range. -/
theorem Buffer.slice_congr {b b' : Buffer} {start start' n : Nat}
    (h : ∀ k < n, b.get (start + k) = b'.get (start' + k)) : b.slice start n = b'.slice start' n := by
  refine List.ext_getElem (by simp) fun k h1 _ => ?_
  rw [Buffer.getElem_slice, Buffer.getElem_slice]
  exact h k (by simpa using h1)

/-- A slice is a list as soon as its bytes are. -/
theorem Buffer.slice_eq_of_get {b : Buffer} {start : Nat} {l : List Byte}
    (h : ∀ k (hk : k < l.length), b.get (start + k) = l[k]) : b.slice start l.length = l := by
  refine List.ext_getElem (by simp) fun k _ h2 => ?_
  rw [Buffer.getElem_slice]
  exact h k h2

theorem Buffer.get_of_slice_eq {b : Buffer} {start n : Nat} {l : List Byte} (h : b.slice start n = l) (k : Nat)
    (hk : k < l.length) : b.get (start + k) = l[k] := by
  subst h
  rw [Buffer.getElem_slice]

theorem Buffer.slice_append (b : Buffer) (start m n : Nat) :
    b.slice start (m + n) = b.slice start m ++ b.slice (start + m) n := by
  induction m generalizing start with
  | zero => simp [Buffer.slice]
  | succ m ih =>
    rw [show m + 1 + n = (m + n) + 1 by omega]
    simp only [Buffer.slice, List.cons_append, ih]
    rw [show start + 1 + m = start + (m + 1) by omega]

/-! ## Runs of writes -/

@[simp] theorem Buffer.size_setBytes (b : Buffer) (start : Nat) (l : List Byte) :
    (b.setBytes start l).size = b.size := by
  induction l generalizing b start with
  | nil => rfl
  | cons v vs ih => simp [Buffer.setBytes, ih]

/-- After a run of writes: the list in its range, every other byte as before. -/
theorem Buffer.get_setBytes (b : Buffer) (start : Nat) (l : List Byte) (i : Nat) :
    (b.setBytes start l).get i = if start ≤ i ∧ i < start + l.length then l.getD (i - start) 0 else b.get i := by
  induction l generalizing b start with
  | nil =>
    rw [if_neg (by simp only [List.length_nil]; omega)]; rfl
  | cons v vs ih =>
    simp only [Buffer.setBytes, ih, Buffer.get_set, List.length_cons]
    rcases Nat.lt_trichotomy i start with h | h | h
    · rw [if_neg (by omega), if_neg (by omega), if_neg (by omega)]
    · subst h
      rw [if_neg (by omega), if_pos rfl, if_pos (by omega)]; simp
    · obtain ⟨k, rfl⟩ : ∃ k, i = start + 1 + k := ⟨i - (start + 1), by omega⟩
      rw [show start + 1 + k - start = k + 1 by omega, show start + 1 + k - (start + 1) = k by omega]
      by_cases hk : k < vs.length
      · rw [if_pos (by omega), if_pos (by omega)]; simp
      · rw [if_neg (by omega), if_neg (by omega), if_neg (by omega)]

theorem Buffer.setBytes_wf {b : Buffer} {start : Nat} {l : List Byte} (h : b.wf) (hl : start + l.length ≤ b.size) :
    (b.setBytes start l).wf := by
  induction l generalizing b start with
  | nil => exact h
  | cons v vs ih =>
    rw [List.length_cons] at hl
    exact ih (b := b.set start v) (Buffer.set_wf v h (by omega)) (by simp; omega)

/-- Reading back a run of writes. -/
theorem Buffer.slice_setBytes (b : Buffer) (start : Nat) (l : List Byte) :
    (b.setBytes start l).slice start l.length = l :=
  Buffer.slice_eq_of_get fun k hk => by
    rw [Buffer.get_setBytes, if_pos (by omega), Nat.add_sub_cancel_left, List.getD_eq_getElem _ _ hk]

/-! ## Operand buffers -/

@[simp] theorem Buffer.size_ofBytes (l : List Byte) : (Buffer.ofBytes l).size = l.length := rfl

@[simp] theorem Buffer.get_ofBytes (l : List Byte) (i : Nat) : (Buffer.ofBytes l).get i = l.getD i 0 := by
  simp [Buffer.ofBytes, Memory.read_ofBytes]

theorem Buffer.ofBytes_wf (l : List Byte) : (Buffer.ofBytes l).wf := Memory.ofBytes_wf l 0 l.length (by omega)

theorem Buffer.slice_ofBytes (l : List Byte) (start n : Nat) (h : start + n ≤ l.length) :
    (Buffer.ofBytes l).slice start n = (l.drop start).take n := by
  refine List.ext_getElem (by simp; omega) fun k h1 h2 => ?_
  have hk : k < n := by simpa using h1
  rw [Buffer.getElem_slice, Buffer.get_ofBytes, List.getD_eq_getElem _ _ (by omega)]
  simp

@[simp] theorem Buffer.toBytes_ofBytes (l : List Byte) : (Buffer.ofBytes l).toBytes = l := by
  rw [Buffer.toBytes, Buffer.slice_ofBytes _ _ _ (by simp)]
  simp

@[simp] theorem Buffer.length_toBytes (b : Buffer) : b.toBytes.length = b.size := by simp [Buffer.toBytes]

/-- A canonical buffer presented again is the same buffer. -/
theorem Buffer.ofBytes_toBytes {b : Buffer} (h : b.wf) : Buffer.ofBytes b.toBytes = b := by
  refine Buffer.ext_get (Buffer.ofBytes_wf _) h (by simp) fun i hi => ?_
  have hi' : i < b.toBytes.length := by simpa using hi
  rw [Buffer.get_ofBytes, List.getD_eq_getElem _ _ hi']
  simp [Buffer.toBytes, Buffer.getElem_slice]

theorem Buffer.sliceChecked_some {b : Buffer} {start n : Nat} (h : start + n ≤ b.size) :
    b.sliceChecked start n = some (b.slice start n) := by simp [Buffer.sliceChecked, h]

theorem Buffer.sliceChecked_none {b : Buffer} {start n : Nat} (h : b.size < start + n) :
    b.sliceChecked start n = none := by simp [Buffer.sliceChecked, Nat.not_le.2 h]

end Sys2Proof.Machine
end

