-- ==== Sys2Proof/Laws/Checksum.lean ====
section
/-! SUPPORT. What the CRC engine does: register arithmetic stays inside `8*W` bits, the table's entries,
and one spec lemma for each operation on a buffer. -/

namespace Sys2Proof.Machine

/-! ## The register -/

theorem CrcWidth.bytes_pos (w : CrcWidth) : 1 ≤ w.bytes := by cases w <;> decide

theorem CrcWidth.bytes_le (w : CrcWidth) : w.bytes ≤ 4 := by cases w <;> decide

theorem CrcWidth.fits_iff {w : CrcWidth} {c : Word} : w.fits c = true ↔ c.toNat < 2 ^ w.bits := by
  simp [CrcWidth.fits]

/-- Truncation is the remainder modulo `2^(8W)` (00_scope.md R16). -/
theorem crcTrunc_toNat (w : CrcWidth) (c : Word) : (crcTrunc w c).toNat = c.toNat % 2 ^ w.bits := by
  unfold crcTrunc
  rw [BitVec.toNat_and, BitVec.toNat_ofNat, Nat.mod_eq_of_lt (by cases w <;> decide), Nat.and_two_pow_sub_one_eq_mod]

theorem crcTrunc_fits (w : CrcWidth) (c : Word) : w.fits (crcTrunc w c) = true := by
  rw [CrcWidth.fits_iff, crcTrunc_toNat]
  exact Nat.mod_lt _ (Nat.two_pow_pos _)

theorem crcTrunc_of_fits {w : CrcWidth} {c : Word} (h : w.fits c = true) : crcTrunc w c = c := by
  apply BitVec.eq_of_toNat_eq
  rw [crcTrunc_toNat, Nat.mod_eq_of_lt (CrcWidth.fits_iff.1 h)]

theorem crcTrunc_xor (w : CrcWidth) (a b : Word) : crcTrunc w (a ^^^ b) = crcTrunc w a ^^^ crcTrunc w b := by
  apply BitVec.eq_of_getLsbD_eq
  intro i _
  simp only [crcTrunc, BitVec.getLsbD_and, BitVec.getLsbD_xor]
  cases a.getLsbD i <;> cases b.getLsbD i <;> simp

theorem fits_xor {w : CrcWidth} {a b : Word} (ha : w.fits a = true) (hb : w.fits b = true) :
    w.fits (a ^^^ b) = true := by
  rw [← crcTrunc_of_fits ha, ← crcTrunc_of_fits hb, ← crcTrunc_xor]
  exact crcTrunc_fits ..

theorem crcShl_fits (w : CrcWidth) (c : Word) (k : Nat) : w.fits (crcShl w c k) = true := crcTrunc_fits ..

theorem crcShl_xor (w : CrcWidth) (a b : Word) (k : Nat) :
    crcShl w (a ^^^ b) k = crcShl w a k ^^^ crcShl w b k := by
  rw [crcShl, BitVec.shiftLeft_xor_distrib, crcTrunc_xor]; rfl

theorem crcShiftStep_fits {w : CrcWidth} {poly : Word} (hp : w.fits poly = true) (c : Word) :
    w.fits (crcShiftStep w poly c) = true := by
  unfold crcShiftStep
  split
  · exact fits_xor (crcShl_fits ..) hp
  · exact crcShl_fits ..

/-! ## The table -/

theorem crcTableEntry_fits {w : CrcWidth} {poly : Word} (hp : w.fits poly = true) (b : Byte) :
    w.fits (crcTableEntry w poly b) = true := crcShiftStep_fits hp _

/-- Reading `crc_table` at a byte gives that byte's entry (41_crc.md R121). -/
theorem crcTable_get (w : CrcWidth) (poly : Word) (b : Byte) :
    (crcTable w poly)[b.toNat]'b.isLt = crcTableEntry w poly b := by
  simp [crcTable]

theorem crcUpdate_table_fits {w : CrcWidth} {poly : Word} (hp : w.fits poly = true) (c : Word) (b : Byte) :
    w.fits (crcUpdate w (crcTable w poly) c b) = true := by
  unfold crcUpdate
  rw [crcTable_get]
  exact fits_xor (crcShl_fits ..) (crcTableEntry_fits hp _)

theorem foldl_crcUpdate_fits {w : CrcWidth} {poly : Word} (hp : w.fits poly = true) (l : List Byte) {c : Word}
    (hc : w.fits c = true) : w.fits (l.foldl (crcUpdate w (crcTable w poly)) c) = true := by
  induction l generalizing c with
  | nil => exact hc
  | cons b l ih => exact ih (crcUpdate_table_fits hp c b)

/-- A CRC value of a legal configuration fits the register. -/
theorem crcOver_fits {cfg : Config} (hl : cfg.legal = true) (l : List Byte) :
    cfg.width.fits (crcOver cfg (crcTable cfg.width cfg.polynomial) l) = true := by
  simp only [Config.legal, Bool.and_eq_true] at hl
  exact fits_xor (foldl_crcUpdate_fits hl.1.1.2 l hl.1.2) hl.2

/-! ## CRC values as bytes -/

@[simp] theorem length_crcToBytes (w : CrcWidth) (crc : Word) : (crcToBytes w crc).length = w.bytes := by
  simp [crcToBytes]

theorem getElem_crcToBytes (w : CrcWidth) (crc : Word) (k : Nat) (h : k < (crcToBytes w crc).length) :
    (crcToBytes w crc)[k] = (crc >>> (8 * (w.bytes - 1 - k))).setWidth 8 := by
  simp [crcToBytes]

/-! ## The operations on a buffer -/

theorem crcCompute_ok {cfg : Config} {table : Vector Word 256} {b : Buffer} {start len : Nat}
    (h : start + len ≤ b.size) : crcCompute cfg table b start len =
      ⟨true, (crcOver cfg table (b.slice start len)).toNat, .checksumComputed, b⟩ := by
  simp [crcCompute, Nat.not_lt.2 h]

theorem crcCompute_short {cfg : Config} {table : Vector Word 256} {b : Buffer} {start len : Nat}
    (h : b.size < start + len) : crcCompute cfg table b start len = .failed .computeBufferTooSmall b := by
  simp [crcCompute, h]

theorem crcAppend_ok {w : CrcWidth} {b : Buffer} {start : Nat} {crc : Word} (h : start + w.bytes ≤ b.size) :
    crcAppend w b start crc = ⟨true, start + w.bytes, .checksumAppended, b.setBytes start (crcToBytes w crc)⟩ := by
  simp [crcAppend, Nat.not_lt.2 h]

theorem crcAppend_short {w : CrcWidth} {b : Buffer} {start : Nat} {crc : Word} (h : b.size < start + w.bytes) :
    crcAppend w b start crc = .failed .appendBufferTooSmall b := by
  simp [crcAppend, h]

theorem crcExtract_ok {w : CrcWidth} {b : Buffer} {start : Nat} (h : start + w.bytes ≤ b.size) :
    crcExtract w b start = ⟨true, (crcOfBytes w (b.slice start w.bytes)).toNat, .checksumExtracted, b⟩ := by
  simp [crcExtract, Nat.not_lt.2 h]

theorem crcExtract_short {w : CrcWidth} {b : Buffer} {start : Nat} (h : b.size < start + w.bytes) :
    crcExtract w b start = .failed .extractBufferTooSmall b := by
  simp [crcExtract, h]

/-- CRC_APPEND keeps the canonical form, whichever way it ends. -/
theorem crcAppend_wf {w : CrcWidth} {b : Buffer} {start : Nat} {crc : Word} (h : b.wf) :
    (crcAppend w b start crc).buf.wf := by
  by_cases hs : start + w.bytes ≤ b.size
  · rw [crcAppend_ok hs]; exact Buffer.setBytes_wf h (by simpa using hs)
  · rw [crcAppend_short (by omega)]; exact h

end Sys2Proof.Machine
end

