-- ==== Sys2Proof/Laws/Codec.lean ====
section
/-! SUPPORT. What the COBS codec does: one spec lemma for the encoder's scan and for the encoder, one for
the decoder's loop and for the decoder, and that the loop's fuel never runs out. -/

namespace Sys2Proof.Machine

/-! ## The encoder -/

/-- The stop that `last` stands for in the scan of R102: the trailing delimiter when nothing was
written yet. -/
def stopOf (p last : Nat) : Nat := if last = 0 then p + 1 else last

/-- The reverse scan, from index `i` down: the stops it leaves behind. `f` are the bytes before
encoding. -/
theorem encodeScan_spec (f : Nat → Byte) (d : Byte) (p : Nat) :
    ∀ (i last : Nat) (b : Buffer), i ≤ p → last ≤ p → (∀ j, 1 ≤ j → j ≤ i → b.get j = f j) →
      NextStop f d p i (stopOf p last) →
      (encodeScan d p i last b).1 ≤ p ∧
      NextStop f d p 0 (stopOf p (encodeScan d p i last b).1) ∧
      (∀ j, 1 ≤ j → j ≤ i → f j = d →
        ∃ k, NextStop f d p j k ∧ (encodeScan d p i last b).2.get j = BitVec.ofNat 8 (k - j)) ∧
      (∀ j, ¬ (1 ≤ j ∧ j ≤ i ∧ f j = d) → (encodeScan d p i last b).2.get j = b.get j) := by
  intro i
  induction i with
  | zero =>
    intro last b _ hlast _ hstop
    exact ⟨hlast, hstop, fun j h1 h2 => by omega, fun j _ => rfl⟩
  | succ i ih =>
    intro last b hi hlast hb hstop
    simp only [encodeScan]
    have hbi : b.get (i + 1) = f (i + 1) := hb _ (by omega) (by omega)
    rw [hbi]
    by_cases hd : f (i + 1) = d
    · rw [if_pos hd]
      have hnew : NextStop f d p i (stopOf p (i + 1)) := by
        refine ⟨by simp [stopOf], by simp [stopOf]; omega, .inr (by simpa [stopOf] using hd), ?_⟩
        intro m h1 h2
        simp only [stopOf, Nat.add_one_ne_zero, if_false] at h2
        omega
      obtain ⟨h1, h2, h3, h4⟩ := ih (i + 1)
        (b.set (i + 1) (BitVec.ofNat 8 (if last = 0 then p + 1 - (i + 1) else last - (i + 1))))
        (by omega) hi (fun j hj1 hj2 => by rw [Buffer.get_set, if_neg (by omega)]; exact hb j hj1 (by omega)) hnew
      refine ⟨h1, h2, fun j hj1 hj2 hjd => ?_, fun j hj => ?_⟩
      · rcases Nat.lt_or_ge j (i + 1) with hlt | hge
        · exact h3 j hj1 (by omega) hjd
        · obtain rfl : j = i + 1 := by omega
          refine ⟨stopOf p last, hstop, ?_⟩
          rw [h4 _ (by omega), Buffer.get_set, if_pos rfl]
          unfold stopOf
          split <;> rfl
      · rw [h4 j fun ⟨a, _, c⟩ => hj ⟨a, by omega, c⟩, Buffer.get_set,
          if_neg fun h => hj ⟨by omega, by omega, by rw [h]; exact hd⟩]
    · rw [if_neg hd]
      have hnew : NextStop f d p i (stopOf p last) := by
        refine ⟨by have := hstop.1; omega, hstop.2.1, hstop.2.2.1, fun m h1 h2 => ?_⟩
        rcases Nat.lt_or_ge (i + 1) m with h | h
        · exact hstop.2.2.2 m h h2
        · obtain rfl : m = i + 1 := by omega
          exact hd
      obtain ⟨h1, h2, h3, h4⟩ := ih last b (by omega) hlast (fun j hj1 hj2 => hb j hj1 (by omega)) hnew
      refine ⟨h1, h2, fun j hj1 hj2 hjd => ?_, fun j hj => h4 j fun ⟨a, b', c⟩ => hj ⟨a, by omega, c⟩⟩
      rcases Nat.lt_or_ge j (i + 1) with hlt | hge
      · exact h3 j hj1 (by omega) hjd
      · obtain rfl : j = i + 1 := by omega
        exact absurd hjd hd

@[simp] theorem encodeScan_size (d : Byte) (p i last : Nat) (b : Buffer) :
    (encodeScan d p i last b).2.size = b.size := by
  induction i generalizing last b with
  | zero => rfl
  | succ i ih => simp only [encodeScan]; split <;> simp [ih]

theorem encodeScan_wf (d : Byte) (p : Nat) {i : Nat} {b : Buffer} (h : b.wf) (hi : i < b.size) (last : Nat) :
    (encodeScan d p i last b).2.wf := by
  induction i generalizing last b with
  | zero => exact h
  | succ i ih =>
    simp only [encodeScan]
    split
    · exact ih (Buffer.set_wf _ h hi) (by simp; omega) _
    · exact ih h (by omega) _

/-- The preconditions of COBS_ENCODE (R101). -/
def EncodePre (b : Buffer) (p : Nat) : Prop := 1 ≤ p ∧ p ≤ 254 ∧ p + 2 ≤ b.size ∧ b.get 0 = 0

/-- COBS_ENCODE when its preconditions hold: the packet's layout, and every other byte as before. -/
theorem cobsEncode_ok {b : Buffer} {p : Nat} (d : Byte) (h : EncodePre b p) :
    ∃ b', cobsEncode b p d = ⟨true, p + 2, .payloadEncoded, b'⟩ ∧ b'.size = b.size ∧ (b.wf → b'.wf) ∧
      b'.get (p + 1) = d ∧
      (∃ k, NextStop b.get d p 0 k ∧ b'.get 0 = BitVec.ofNat 8 k) ∧
      (∀ j, 1 ≤ j → j ≤ p → b.get j = d → ∃ k, NextStop b.get d p j k ∧ b'.get j = BitVec.ofNat 8 (k - j)) ∧
      (∀ j, 1 ≤ j → j ≤ p → b.get j ≠ d → b'.get j = b.get j) ∧
      (∀ j, p + 1 < j → b'.get j = b.get j) := by
  obtain ⟨h1, h2, h3, h4⟩ := h
  have hstart : NextStop b.get d p p (stopOf p 0) :=
    ⟨by simp [stopOf], by simp [stopOf], .inl rfl, fun m hm1 hm2 => by simp [stopOf] at hm2; omega⟩
  obtain ⟨hle, hov, hin, hout⟩ := encodeScan_spec b.get d p p 0 (b.set (p + 1) d) (Nat.le_refl _) (by omega)
    (fun j _ hj => by rw [Buffer.get_set, if_neg (by omega)]) hstart
  refine ⟨_, by simp only [cobsEncode]; rw [if_neg (by omega), if_neg (by omega), if_neg (by omega),
    if_neg (by simpa using h4)], by simp, fun hwf => ?_, ?_, ⟨_, hov, ?_⟩, fun j hj1 hj2 hjd => ?_,
    fun j hj1 hj2 hjd => ?_, fun j hj => ?_⟩
  · refine Buffer.set_wf _ (encodeScan_wf d p (Buffer.set_wf _ hwf (by omega)) ?_ _) ?_ <;> simp <;> omega
  · rw [Buffer.get_set, if_neg (by omega), hout _ (by omega)]; simp
  · rw [Buffer.get_set, if_pos rfl]
    unfold stopOf
    split <;> simp_all
  · rw [Buffer.get_set, if_neg (by omega)]; exact hin j hj1 hj2 hjd
  · rw [Buffer.get_set, if_neg (by omega), hout j fun h => hjd h.2.2, Buffer.get_set, if_neg (by omega)]
  · rw [Buffer.get_set, if_neg (by omega), hout j (by omega), Buffer.get_set, if_neg (by omega)]

/-- Everything COBS_ENCODE can answer: a failed precondition and the buffer untouched, or the packet. -/
theorem cobsEncode_cases (b : Buffer) (p : Nat) (d : Byte) :
    (¬ EncodePre b p ∧ ∃ st, cobsEncode b p d = .failed st b ∧
      (st = .encodePayloadTooSmall ∧ p = 0 ∨ st = .encodePayloadTooLarge ∧ 254 < p ∨
        st = .encodeBufferTooSmall ∧ b.size < p + 2 ∨ st = .encodeAlreadyEncoded ∧ b.get 0 ≠ 0)) ∨
    EncodePre b p := by
  by_cases h : EncodePre b p
  · exact .inr h
  · refine .inl ⟨h, ?_⟩
    unfold cobsEncode
    split
    · exact ⟨_, rfl, .inl ⟨rfl, ‹_›⟩⟩
    · split
      · exact ⟨_, rfl, .inr (.inl ⟨rfl, ‹_›⟩)⟩
      · split
        · exact ⟨_, rfl, .inr (.inr (.inl ⟨rfl, ‹_›⟩))⟩
        · split
          · exact ⟨_, rfl, .inr (.inr (.inr ⟨rfl, ‹_›⟩))⟩
          · exact absurd ⟨by omega, by omega, by omega, by simp_all⟩ h

/-! ## The decoder -/

/-- Everything the loop of R107 can answer, and what it leaves of the buffer: only visited positions
are rewritten, to `d`; success leaves `d` at `L - 1`. -/
theorem decodeChain_spec (d : Byte) (l : Nat) :
    ∀ (fuel r n : Nat) (b : Buffer),
      (decodeChain d l fuel r n b).buf.size = b.size ∧
      (b.wf → l ≤ b.size → (decodeChain d l fuel r n b).buf.wf) ∧
      (∀ j, (decodeChain d l fuel r n b).buf.get j = b.get j ∨
        r + n ≤ j ∧ j < l ∧ (decodeChain d l fuel r n b).buf.get j = d) ∧
      ((decodeChain d l fuel r n b).ok = true ∧ (decodeChain d l fuel r n b).value = l - 2 ∧
          (decodeChain d l fuel r n b).status = .payloadDecoded ∧
          (decodeChain d l fuel r n b).buf.get (l - 1) = d ∨
        (decodeChain d l fuel r n b).ok = false ∧ (decodeChain d l fuel r n b).value = 0 ∧
          ((decodeChain d l fuel r n b).status = .delimiterNotFound ∨
            (decodeChain d l fuel r n b).status = .delimiterTooEarly)) := by
  intro fuel
  induction fuel with
  | zero => intro r n b; exact ⟨rfl, fun h _ => h, fun j => .inl rfl, .inr ⟨rfl, rfl, .inl rfl⟩⟩
  | succ fuel ih =>
    intro r n b
    simp only [decodeChain]
    split
    · next hlt =>
      split
      · next hd =>
        split
        · next hend => exact ⟨rfl, fun h _ => h, fun j => .inl rfl, .inl ⟨rfl, rfl, rfl, by rw [← hend]; exact hd⟩⟩
        · exact ⟨rfl, fun h _ => h, fun j => .inl rfl, .inr ⟨rfl, rfl, .inr rfl⟩⟩
      · obtain ⟨hs, hw, hg, ho⟩ := ih (r + n) (b.get (r + n)).toNat (b.set (r + n) d)
        refine ⟨by simpa using hs, fun h hl => hw (Buffer.set_wf _ h (by omega)) (by simpa using hl), fun j => ?_, ho⟩
        rcases hg j with h | ⟨h1, h2, h3⟩
        · by_cases hj : j = r + n
          · exact .inr ⟨by omega, by omega, by rw [h, Buffer.get_set, if_pos hj]⟩
          · exact .inl (by rw [h, Buffer.get_set, if_neg hj])
        · exact .inr ⟨by omega, h2, h3⟩
    · exact ⟨rfl, fun h _ => h, fun j => .inl rfl, .inr ⟨rfl, rfl, .inl rfl⟩⟩

/-- One iteration of the loop of R107. -/
theorem decodeChain_succ (d : Byte) (l fuel r n : Nat) (b : Buffer) :
    decodeChain d l (fuel + 1) r n b =
      if r + n < l then
        if b.get (r + n) = d then
          if r + n = l - 1 then ⟨true, l - 2, .payloadDecoded, b⟩ else .failed .delimiterTooEarly b
        else decodeChain d l fuel (r + n) (b.get (r + n)).toNat (b.set (r + n) d)
      else .failed .delimiterNotFound b := rfl

/-- The loop of R107 ends before its fuel does (R108): with `L - r` iterations left, one more changes
nothing. A zero jump can only follow a position that now holds `d`, and ends the loop. -/
theorem decodeChain_fuel (d : Byte) (l : Nat) :
    ∀ (fuel r n : Nat) (b : Buffer), 1 ≤ fuel → l ≤ r + fuel → (n = 0 → b.get r = d) →
      decodeChain d l (fuel + 1) r n b = decodeChain d l fuel r n b := by
  intro fuel
  induction fuel with
  | zero => intro r n b h; omega
  | succ fuel ih =>
    intro r n b _ hl hz
    rw [decodeChain_succ d l (fuel + 1), decodeChain_succ d l fuel r n b]
    by_cases hlt : r + n < l
    · rw [if_pos hlt, if_pos hlt]
      by_cases hd : b.get (r + n) = d
      · rw [if_pos hd, if_pos hd]
      · rw [if_neg hd, if_neg hd]
        have hn : n ≠ 0 := fun h => hd (by subst h; exact hz rfl)
        exact ih _ _ _ (by omega) (by omega) fun _ => by simp
    · rw [if_neg hlt, if_neg hlt]

/-- The preconditions of COBS_DECODE (R106). -/
def DecodePre (b : Buffer) (l : Nat) : Prop := 3 ≤ l ∧ l ≤ 256 ∧ l ≤ b.size ∧ b.get 0 ≠ 0

theorem cobsDecode_of_pre {b : Buffer} {l : Nat} (d : Byte) (h : DecodePre b l) :
    cobsDecode b l d = decodeChain d l (l + 1) 0 (b.get 0).toNat (b.set 0 0) := by
  obtain ⟨h1, h2, h3, h4⟩ := h
  simp only [cobsDecode]
  rw [if_neg (by omega), if_neg (by omega), if_neg (by omega), if_neg h4]

/-- Everything COBS_DECODE can answer: a failed precondition and the buffer untouched, or the loop. -/
theorem cobsDecode_cases (b : Buffer) (l : Nat) (d : Byte) :
    (¬ DecodePre b l ∧ ∃ st, cobsDecode b l d = .failed st b ∧
      (st = .decodePacketTooSmall ∧ l < 3 ∨ st = .decodePacketTooLarge ∧ 256 < l ∨
        st = .decodeBufferTooSmall ∧ b.size < l ∨ st = .decodeAlreadyDecoded ∧ b.get 0 = 0)) ∨
    DecodePre b l := by
  by_cases h : DecodePre b l
  · exact .inr h
  · refine .inl ⟨h, ?_⟩
    unfold cobsDecode
    split
    · exact ⟨_, rfl, .inl ⟨rfl, ‹_›⟩⟩
    · split
      · exact ⟨_, rfl, .inr (.inl ⟨rfl, ‹_›⟩)⟩
      · split
        · exact ⟨_, rfl, .inr (.inr (.inl ⟨rfl, ‹_›⟩))⟩
        · split
          · exact ⟨_, rfl, .inr (.inr (.inr ⟨rfl, ‹_›⟩))⟩
          · exact absurd ⟨by omega, by omega, by omega, ‹_›⟩ h

/-- COBS_DECODE past its preconditions: index 0 is 0 on every path (R107), bytes at `L` and above are
untouched, the others keep their value or become `d`. -/
theorem cobsDecode_ok {b : Buffer} {l : Nat} (d : Byte) (h : DecodePre b l) :
    (cobsDecode b l d).buf.size = b.size ∧
    (b.wf → (cobsDecode b l d).buf.wf) ∧
    (cobsDecode b l d).buf.get 0 = 0 ∧
    (∀ j, l ≤ j → (cobsDecode b l d).buf.get j = b.get j) ∧
    (∀ j, 1 ≤ j → (cobsDecode b l d).buf.get j = b.get j ∨ (cobsDecode b l d).buf.get j = d) ∧
    ((cobsDecode b l d).ok = true ∧ (cobsDecode b l d).value = l - 2 ∧
        (cobsDecode b l d).status = .payloadDecoded ∧ (cobsDecode b l d).buf.get (l - 1) = d ∨
      (cobsDecode b l d).ok = false ∧ (cobsDecode b l d).value = 0 ∧
        ((cobsDecode b l d).status = .delimiterNotFound ∨ (cobsDecode b l d).status = .delimiterTooEarly)) := by
  have hn : 1 ≤ (b.get 0).toNat := by
    have h4 := h.2.2.2
    rcases Nat.eq_zero_or_pos (b.get 0).toNat with h0 | h0
    · exact absurd (BitVec.eq_of_toNat_eq (by simpa using h0)) h4
    · exact h0
  obtain ⟨h1, h2, h3, h4⟩ := h
  rw [cobsDecode_of_pre d ⟨h1, h2, h3, h4⟩]
  obtain ⟨hs, hw, hg, ho⟩ := decodeChain_spec d l (l + 1) 0 (b.get 0).toNat (b.set 0 0)
  refine ⟨by simpa using hs, fun hwf => hw (Buffer.set_wf _ hwf (by omega)) (by simpa using h3), ?_,
    fun j hj => ?_, fun j hj => ?_, ho⟩
  · rcases hg 0 with h | ⟨h, _⟩
    · simpa using h
    · omega
  · rcases hg j with h | ⟨_, h, _⟩
    · rw [h, Buffer.get_set, if_neg (by omega)]
    · omega
  · rcases hg j with h | ⟨_, _, h⟩
    · exact .inl (by rw [h, Buffer.get_set, if_neg (by omega)])
    · exact .inr h

end Sys2Proof.Machine
end

