-- ==== Sys2Proof/Laws/Decode.lean ====
section
/-! SUPPORT. Laws of the operation codes and operands. -/

namespace Sys2Proof

/-- Every code selects the operation it belongs to. -/
@[simp] theorem Opcode.ofCode_code (o : Opcode) : Opcode.ofCode o.code = some o := by cases o <;> rfl

/-- A code that selects an operation is that operation's code. -/
theorem Opcode.code_of_ofCode {op : Byte} {o : Opcode} (h : Opcode.ofCode op = some o) : o.code = op := by
  revert o
  revert op
  decide +kernel

/-- The operand `D` as presented is read back. -/
@[simp] theorem byteOperand_toNat (d : Byte) : byteOperand d.toNat = some d := by
  simp [byteOperand, d.isLt]

/-- The operand `crc` as presented is read back. -/
@[simp] theorem wordOperand_toNat (c : Word) : wordOperand c.toNat = some c := by
  simp [wordOperand, c.isLt]

theorem byteOperand_some {n : Nat} {d : Byte} (h : byteOperand n = some d) : d.toNat = n := by
  unfold byteOperand at h
  split at h
  · next hn => rw [← Option.some.inj h, BitVec.toNat_ofNat, Nat.mod_eq_of_lt hn]
  · cases h

theorem wordOperand_some {n : Nat} {c : Word} (h : wordOperand n = some c) : c.toNat = n := by
  unfold wordOperand at h
  split at h
  · next hn => rw [← Option.some.inj h, BitVec.toNat_ofNat, Nat.mod_eq_of_lt hn]
  · cases h

/-- What decoding a command amounts to: its code selects an operation that takes its operands. -/
theorem decode_ok_iff {c : Cmd} {i : Instr} :
    decode c = .ok i ↔ ∃ o, Opcode.ofCode c.op = some o ∧ takeOperands o c.operands = some i := by
  unfold decode
  split
  · next h => simp [h]
  · next o h =>
    split
    · next h' => simp [h, h']
    · next j h' => simp [h, h', Except.ok.injEq]

/-- A code that selects no operation is rejected by name, whatever stands beside it. -/
theorem decode_reserved {op : Byte} (h : Opcode.ofCode op = none) (l : List Operand) :
    decode ⟨op, l⟩ = .error (.noSuchOperation op) := by simp [decode, h]

end Sys2Proof
end

