-- ==== Sys2Proof/Laws/PerInstr.lean ====
section
/-! SUPPORT. The family of per-instruction lemmas about the encoding of each constructor (30_encoding.md
R82, R84): the code presented selects the operation, with as many operands as the operation map gives it. -/

namespace Sys2Proof.Laws.Encoding

/-- The code of the command that presents `i` selects `i`'s operation, and the command carries as many
operands as the operation map gives that operation. -/
def Statement (i : Instr) : Prop :=
  Opcode.ofCode (encode i).op = some i.opcode ∧ (encode i).operands.length = (zeroOperands i.opcode).length

theorem cobsEncode (buf : List Byte) (p : Nat) (d : Byte) : Statement (.cobsEncode buf p d) := ⟨Opcode.ofCode_code .cobsEncode, rfl⟩
theorem cobsDecode (buf : List Byte) (l : Nat) (d : Byte) : Statement (.cobsDecode buf l d) := ⟨Opcode.ofCode_code .cobsDecode, rfl⟩
theorem crcTableGen : Statement (.crcTableGen) := ⟨Opcode.ofCode_code .crcTableGen, rfl⟩
theorem crcCompute (buf : List Byte) (start : Nat) (len : Nat) : Statement (.crcCompute buf start len) := ⟨Opcode.ofCode_code .crcCompute, rfl⟩
theorem crcAppend (buf : List Byte) (start : Nat) (crc : Word) : Statement (.crcAppend buf start crc) := ⟨Opcode.ofCode_code .crcAppend, rfl⟩
theorem crcExtract (buf : List Byte) (start : Nat) : Statement (.crcExtract buf start) := ⟨Opcode.ofCode_code .crcExtract, rfl⟩
theorem writePayload (src : List Byte) (offset : Nat) (len : Nat) : Statement (.writePayload src offset len) := ⟨Opcode.ofCode_code .writePayload, rfl⟩
theorem readPayload (offset : Nat) (len : Nat) : Statement (.readPayload offset len) := ⟨Opcode.ofCode_code .readPayload, rfl⟩
theorem resetTx : Statement (.resetTx) := ⟨Opcode.ofCode_code .resetTx, rfl⟩
theorem resetRx : Statement (.resetRx) := ⟨Opcode.ofCode_code .resetRx, rfl⟩
theorem send : Statement (.send) := ⟨Opcode.ofCode_code .send, rfl⟩
theorem receive : Statement (.receive) := ⟨Opcode.ofCode_code .receive, rfl⟩
theorem bytesInTx : Statement (.bytesInTx) := ⟨Opcode.ofCode_code .bytesInTx, rfl⟩
theorem bytesInRx : Statement (.bytesInRx) := ⟨Opcode.ofCode_code .bytesInRx, rfl⟩
theorem getMaxTxPayload : Statement (.getMaxTxPayload) := ⟨Opcode.ofCode_code .getMaxTxPayload, rfl⟩
theorem getMaxRxPayload : Statement (.getMaxRxPayload) := ⟨Opcode.ofCode_code .getMaxRxPayload, rfl⟩
theorem getTxBufferSize : Statement (.getTxBufferSize) := ⟨Opcode.ofCode_code .getTxBufferSize, rfl⟩
theorem getRxBufferSize : Statement (.getRxBufferSize) := ⟨Opcode.ofCode_code .getRxBufferSize, rfl⟩

end Sys2Proof.Laws.Encoding
end

