-- ==== Sys2Proof/Laws/Port.lean ====
section
/-! SUPPORT. The Stream Port's reads: what a poll does, what the loops over polls answer and consume, and
that they follow the ways bytes come in. -/

namespace Sys2Proof.Machine

/-! ## One poll -/

/-- What the environment does before a poll adds nothing to the stream and takes nothing from it. -/
@[simp] theorem Port.stream_pass (p : Port) : p.pass.stream = p.stream := by
  obtain ⟨fifo, now, _ | ⟨a, as⟩⟩ := p <;> simp [Port.pass, Port.stream]

theorem Port.now_le_pass (p : Port) : p.now ≤ p.pass.now := by
  obtain ⟨fifo, now, _ | ⟨a, as⟩⟩ := p <;> simp [Port.pass]

/-- `try_read_byte()` answers none exactly when `bytes_available()` is 0 (60_exceptions.md R226). -/
theorem tryReadByte_none_iff (p : Port) : (tryReadByte p).byte = none ↔ bytesAvailable p = 0 := by
  obtain ⟨_ | ⟨b, bs⟩, now, as⟩ := p <;> simp [tryReadByte, bytesAvailable]

/-- Everything `try_read_byte()` can do: nothing, on an empty FIFO; or take the byte at its head. -/
theorem tryReadByte_cases (p : Port) :
    p.fifo = [] ∧ tryReadByte p = ⟨none, p⟩ ∨
      ∃ b bs, p.fifo = b :: bs ∧ tryReadByte p = ⟨some b, { p with fifo := bs }⟩ := by
  obtain ⟨_ | ⟨b, bs⟩, now, as⟩ := p
  · exact .inl ⟨rfl, rfl⟩
  · exact .inr ⟨b, bs, rfl, rfl⟩

/-- A poll only takes the byte it answers off the stream (20_memory.md R61), never turns time back, and
takes one entry off the plan. -/
theorem Port.poll_spec (p : Port) :
    p.now ≤ p.poll.port.now ∧ p.stream = p.poll.byte.toList ++ p.poll.port.stream ∧
      (p.poll.byte = none → p.poll.port.fifo = []) ∧ p.poll.port.arrivals = p.arrivals.tail := by
  have ha : p.pass.arrivals = p.arrivals.tail := by
    obtain ⟨fifo, now, _ | ⟨a, as⟩⟩ := p <;> rfl
  obtain ⟨h, h'⟩ | ⟨b, bs, h, h'⟩ := tryReadByte_cases p.pass <;> rw [Port.poll, h']
  · exact ⟨p.now_le_pass, by simp, fun _ => h, ha⟩
  · exact ⟨p.now_le_pass, by rw [← p.stream_pass]; simp [Port.stream, h], by simp, ha⟩

theorem Port.poll_arrivals {p : Port} {a : Arrival} {as : List Arrival} (h : p.arrivals = a :: as) :
    p.poll.port.arrivals = as := by rw [p.poll_spec.2.2.2, h, List.tail_cons]

/-! ## await_byte -/

/-- The loop of 44_receive.md R176, one iteration: a byte that is available is taken; on an empty poll the
wait ends when the timer has run out; else it goes on, or, past the end of the plan, until then. -/
theorem awaitByte_eq (timeout tLast : Nat) (p : Port) :
    awaitByte timeout tLast p =
      match p.poll.byte with
      | some b => ⟨some b, p.poll.port⟩
      | none =>
        if timeout ≤ p.poll.port.now - tLast then ⟨none, p.poll.port⟩
        else if p.arrivals = [] then ⟨none, { p with now := tLast + timeout }⟩
        else awaitByte timeout tLast p.poll.port := by
  obtain ⟨fifo, now, _ | ⟨a, as⟩⟩ := p
  · obtain _ | ⟨b, bs⟩ := fifo
    · rw [if_pos rfl]; rfl
    · rfl
  · rw [if_neg (List.cons_ne_nil a as)]
    obtain ⟨_, h'⟩ | ⟨b, bs, _, h'⟩ := tryReadByte_cases (Port.pass ⟨fifo, now, a :: as⟩) <;>
      simp only [Port.pass] at h' <;> simp [awaitByte, awaitFrom, Port.poll, Port.pass, h']

/-- Everything `await_byte` can answer (R176): a byte, or Timeout only once the timer has run out; and
it only takes the byte it answers off the stream. -/
theorem awaitByte_cases (timeout tLast : Nat) (p : Port) :
    p.now ≤ (awaitByte timeout tLast p).port.now ∧
    p.stream = (awaitByte timeout tLast p).byte.toList ++ (awaitByte timeout tLast p).port.stream ∧
    ((∃ b, (awaitByte timeout tLast p).byte = some b) ∨
      (awaitByte timeout tLast p).byte = none ∧ timeout ≤ (awaitByte timeout tLast p).port.now - tLast) := by
  induction has : p.arrivals generalizing p <;> rw [awaitByte_eq] <;>
    obtain ⟨hnow, hst, _, _⟩ := p.poll_spec <;> cases hb : p.poll.byte <;> simp only [hb] at hst ⊢
  case nil.none =>
    split
    · next h => exact ⟨hnow, hst, .inr ⟨rfl, h⟩⟩
    · exact ⟨by simp only; omega, rfl, .inr ⟨rfl, by simp only; omega⟩⟩
  case cons.none a as ih _ _ =>
    split
    · next h => exact ⟨hnow, hst, .inr ⟨rfl, h⟩⟩
    · obtain ⟨h1, h2, h3⟩ := ih p.poll.port (Port.poll_arrivals has)
      rw [if_neg (by simp [has])]
      exact ⟨Nat.le_trans hnow h1, hst.trans h2, h3⟩
  all_goals exact ⟨hnow, hst, .inl ⟨_, rfl⟩⟩

/-- Bytes trickle in exactly when `await_byte` answers them one after the other. -/
theorem trickles_cons_iff {timeout tLast : Nat} {p r : Port} {b : Byte} {l : List Byte} :
    Trickles timeout tLast p (b :: l) r ↔
      (awaitByte timeout tLast p).byte = some b ∧
        Trickles timeout (awaitByte timeout tLast p).port.now (awaitByte timeout tLast p).port l r := by
  constructor
  · intro h
    generalize hl : b :: l = bl at h
    induction h with
    | done => cases hl
    | byte hb ht _ => cases hl; rw [awaitByte_eq, hb]; exact ⟨rfl, ht⟩
    | wait ha hn ht _ ih =>
      rw [awaitByte_eq, hn]
      simp only [if_neg (Nat.not_le.2 ht), if_neg ha]
      exact ih hl
  · rintro ⟨hb, ht⟩
    induction has : p.arrivals generalizing p <;> rw [awaitByte_eq] at hb ht <;> cases hp : p.poll.byte <;>
      simp only [hp, Option.some.injEq] at hb ht
    case nil.none => simp only [has, if_true] at hb; split at hb <;> simp at hb
    case cons.none a as ih =>
      have hne : p.arrivals ≠ [] := by simp [has]
      split at hb
      · simp at hb
      · next hlt =>
        rw [if_neg hlt, if_neg hne] at ht
        exact .wait hne hp (Nat.not_le.1 hlt) (ih hb ht (Port.poll_arrivals has))
    all_goals exact .byte (by rw [hp, hb]) ht

/-- Behind a byte the timer runs from the last byte taken. -/
theorem Trickles.tLast_eq {timeout : Nat} {p m : Port} {l : List Byte} (h : Trickles timeout p.now p l m) :
    (if l = [] then p.now else m.now) = m.now := by
  obtain rfl | hne := eq_or_ne l []
  · cases h; rfl
  · rw [if_neg hne]

/-- A stretch that trickles in can be cut anywhere: the timer goes on from the last byte taken. -/
theorem trickles_append {timeout tLast : Nat} {p r : Port} {l l' : List Byte} :
    Trickles timeout tLast p (l ++ l') r ↔
      ∃ m, Trickles timeout tLast p l m ∧ Trickles timeout (if l = [] then tLast else m.now) m l' r := by
  induction l generalizing tLast p with
  | nil => exact ⟨fun h => ⟨p, .done, h⟩, fun ⟨m, hm, h⟩ => by cases hm; exact h⟩
  | cons b l ih =>
    simp only [List.cons_append, trickles_cons_iff, ih, and_assoc, exists_and_left, reduceCtorEq, if_false]
    refine and_congr_right fun _ => exists_congr fun m => and_congr_right fun hm => ?_
    rw [hm.tLast_eq]

/-- The line is silent exactly when `await_byte` answers Timeout. -/
theorem silent_iff {timeout tLast : Nat} {p r : Port} :
    Silent timeout tLast p r ↔ awaitByte timeout tLast p = ⟨none, r⟩ := by
  constructor
  · intro h
    induction h with
    | out hn ht => rw [awaitByte_eq, hn]; simp [ht]
    | wait ha hn ht _ ih => rw [awaitByte_eq, hn]; simpa [Nat.not_le.2 ht, ha] using ih
    | @ended p ha hn ht =>
      have hp : p.poll.port.now = p.now := by simp only [Port.poll, Port.pass, ha, tryReadByte]; split <;> rfl
      rw [awaitByte_eq, hn]
      simp [hp, Nat.not_le.2 ht, ha]
  · intro h
    induction has : p.arrivals generalizing p <;> rw [awaitByte_eq] at h <;> cases hp : p.poll.byte <;>
      simp only [hp] at h
    case nil.none =>
      have hnow : p.poll.port.now = p.now := by simp only [Port.poll, Port.pass, has, tryReadByte]; split <;> rfl
      split at h
      · next ht => cases h; exact .out hp ht
      · next ht => cases h; exact .ended has hp (by omega)
    case cons.none a as ih =>
      have hne : p.arrivals ≠ [] := by simp [has]
      split at h
      · next ht => cases h; exact .out hp ht
      · next ht => exact .wait hne hp (Nat.not_le.1 ht) (ih h (Port.poll_arrivals has))
    all_goals simp at h

/-! ## The scan for a start byte -/

/-- The loop of ScanningForStart (R173), one iteration. -/
theorem scanForStart_eq (start : Byte) (p : Port) :
    scanForStart start p =
      match p.poll.byte with
      | none => ⟨none, p.poll.port⟩
      | some b => if b = start then ⟨some b, p.poll.port⟩ else scanForStart start p.poll.port := by
  obtain ⟨fifo, now, _ | ⟨a, as⟩⟩ := p
  · obtain _ | ⟨b, bs⟩ := fifo <;> simp [scanForStart, scanFrom, scanFifo, Port.poll, Port.pass, tryReadByte]
  · obtain ⟨_, h'⟩ | ⟨b, bs, _, h'⟩ := tryReadByte_cases (Port.pass ⟨fifo, now, a :: as⟩) <;>
      simp only [Port.pass] at h' <;> simp [scanForStart, scanFrom, Port.poll, Port.pass, h']

/-- The scan ends at the first start byte of an unbroken stretch, with everything before it discarded. -/
theorem scanForStart_found {start : Byte} {p r : Port} {garbage : List Byte} (hg : start ∉ garbage)
    (h : Available p (garbage ++ [start]) r) : scanForStart start p = ⟨some start, r⟩ := by
  induction garbage generalizing p with
  | nil =>
    obtain _ | ⟨hb, hr⟩ := h
    cases hr
    rw [scanForStart_eq, hb]
    simp
  | cons g garbage ih =>
    obtain _ | ⟨hb, hr⟩ := h
    rw [scanForStart_eq, hb]
    simp only [List.mem_cons, not_or] at hg
    simp only [if_neg (Ne.symm hg.1)]
    exact ih hg.2 hr

/-- The scan ends when the stream drains first. -/
theorem scanForStart_drained {start : Byte} {p r : Port} {garbage : List Byte} (hg : start ∉ garbage)
    (h : Available p garbage r) (hn : r.poll.byte = none) : scanForStart start p = ⟨none, r.poll.port⟩ := by
  induction h with
  | done => rw [scanForStart_eq, hn]
  | byte hb _ ih =>
    simp only [List.mem_cons, not_or] at hg
    rw [scanForStart_eq, hb]
    simp only [if_neg (Ne.symm hg.1)]
    exact ih hg.2 hn

/-- Everything the scan can do (R173): it finds the start byte in an unbroken stretch, or the stream
drains behind one that does not hold it. -/
theorem scanForStart_cases (start : Byte) (p : Port) :
    (∃ garbage, start ∉ garbage ∧ Available p (garbage ++ [start]) (scanForStart start p).port ∧
        (scanForStart start p).byte = some start) ∨
      ∃ garbage r, start ∉ garbage ∧ Available p garbage r ∧ r.poll.byte = none ∧
        scanForStart start p = ⟨none, r.poll.port⟩ := by
  induction h : p.stream.length using Nat.strong_induction_on generalizing p with
  | _ n ih =>
    obtain ⟨_, hst, _, _⟩ := p.poll_spec
    cases hb : p.poll.byte with
    | none => exact .inr ⟨[], p, by simp, .done, hb, by rw [scanForStart_eq, hb]⟩
    | some b =>
      rw [scanForStart_eq, hb]
      by_cases hs : b = start
      · subst hs
        exact .inl ⟨[], by simp, .byte hb (by simpa using .done), by simp⟩
      · simp only [if_neg hs]
        have hlt : p.poll.port.stream.length < n := by rw [← h, hst, hb]; simp
        obtain ⟨g, hg, ha, hf⟩ | ⟨g, r, hg, ha, hn, hf⟩ := ih _ hlt p.poll.port rfl
        · exact .inl ⟨b :: g, by simp [hg, Ne.symm hs], .byte hb ha, hf⟩
        · exact .inr ⟨b :: g, r, by simp [hg, Ne.symm hs], .byte hb ha, hn, hf⟩

/-- An unbroken stretch is taken off the stream, and time never turns back. -/
theorem Available.spec {p r : Port} {l : List Byte} (h : Available p l r) :
    p.stream = l ++ r.stream ∧ p.now ≤ r.now := by
  induction h with
  | done => exact ⟨rfl, Nat.le_refl _⟩
  | @byte p r b l hb _ ih =>
    obtain ⟨hnow, hst, _, _⟩ := p.poll_spec
    exact ⟨by rw [hst, hb, ih.1]; rfl, Nat.le_trans hnow ih.2⟩

/-- A stretch that trickles in is taken off the stream, and time never turns back. -/
theorem Trickles.spec {timeout tLast : Nat} {p r : Port} {l : List Byte} (h : Trickles timeout tLast p l r) :
    p.stream = l ++ r.stream ∧ p.now ≤ r.now := by
  induction h with
  | done => exact ⟨rfl, Nat.le_refl _⟩
  | @byte _ p r b l hb _ ih =>
    obtain ⟨hnow, hst, _, _⟩ := p.poll_spec
    exact ⟨by rw [hst, hb, ih.1]; rfl, Nat.le_trans hnow ih.2⟩
  | @wait _ p r b l _ hn _ _ ih =>
    obtain ⟨hnow, hst, _, _⟩ := p.poll_spec
    exact ⟨by rw [hst, hn]; exact ih.1, Nat.le_trans hnow ih.2⟩

end Sys2Proof.Machine
end

