-- ==== Sys2Proof/Laws/State.lean ====
section
/-! SUPPORT. What each update of the state leaves in each field, one lemma a field, so that no later
proof unfolds a record update. -/

namespace Sys2Proof.Machine

variable (s : State)

/-! ## latch -/

@[simp] theorem State.latch_cfg (l : Layer) (st : Status) : (s.latch l st).cfg = s.cfg := by cases l <;> rfl
@[simp] theorem State.latch_tx (l : Layer) (st : Status) : (s.latch l st).tx = s.tx := by cases l <;> rfl
@[simp] theorem State.latch_rx (l : Layer) (st : Status) : (s.latch l st).rx = s.rx := by cases l <;> rfl
@[simp] theorem State.latch_txFilled (l : Layer) (st : Status) : (s.latch l st).txFilled = s.txFilled := by cases l <;> rfl
@[simp] theorem State.latch_rxFilled (l : Layer) (st : Status) : (s.latch l st).rxFilled = s.rxFilled := by cases l <;> rfl
@[simp] theorem State.latch_crcTable (l : Layer) (st : Status) : (s.latch l st).crcTable = s.crcTable := by cases l <;> rfl
@[simp] theorem State.latch_cobsStatus (l : Layer) (st : Status) : (s.latch l st).cobsStatus = if l = .cobs then st else s.cobsStatus := by cases l <;> rfl
@[simp] theorem State.latch_crcStatus (l : Layer) (st : Status) : (s.latch l st).crcStatus = if l = .crc then st else s.crcStatus := by cases l <;> rfl
@[simp] theorem State.latch_xferStatus (l : Layer) (st : Status) : (s.latch l st).xferStatus = if l = .transfer then st else s.xferStatus := by cases l <;> rfl
@[simp] theorem State.latch_fsm (l : Layer) (st : Status) : (s.latch l st).fsm = s.fsm := by cases l <;> rfl
@[simp] theorem State.latch_bytesRead (l : Layer) (st : Status) : (s.latch l st).bytesRead = s.bytesRead := by cases l <;> rfl
@[simp] theorem State.latch_tLast (l : Layer) (st : Status) : (s.latch l st).tLast = s.tLast := by cases l <;> rfl
@[simp] theorem State.latch_buf (l : Layer) (st : Status) : (s.latch l st).buf = s.buf := by cases l <;> rfl
@[simp] theorem State.latch_dst (l : Layer) (st : Status) : (s.latch l st).dst = s.dst := by cases l <;> rfl
@[simp] theorem State.latch_result (l : Layer) (st : Status) : (s.latch l st).result = s.result := by cases l <;> rfl
@[simp] theorem State.latch_inbound (l : Layer) (st : Status) : (s.latch l st).inbound = s.inbound := by cases l <;> rfl
@[simp] theorem State.latch_arrivals (l : Layer) (st : Status) : (s.latch l st).arrivals = s.arrivals := by cases l <;> rfl
@[simp] theorem State.latch_outbound (l : Layer) (st : Status) : (s.latch l st).outbound = s.outbound := by cases l <;> rfl
@[simp] theorem State.latch_now (l : Layer) (st : Status) : (s.latch l st).now = s.now := by cases l <;> rfl
@[simp] theorem State.latch_commands (l : Layer) (st : Status) : (s.latch l st).commands = s.commands := by cases l <;> rfl

/-! ## return -/

@[simp] theorem State.return_cfg (ok : Bool) (v : Nat) (st : Option Status) : (s.return ok v st).cfg = s.cfg := rfl
@[simp] theorem State.return_tx (ok : Bool) (v : Nat) (st : Option Status) : (s.return ok v st).tx = s.tx := rfl
@[simp] theorem State.return_rx (ok : Bool) (v : Nat) (st : Option Status) : (s.return ok v st).rx = s.rx := rfl
@[simp] theorem State.return_txFilled (ok : Bool) (v : Nat) (st : Option Status) : (s.return ok v st).txFilled = s.txFilled := rfl
@[simp] theorem State.return_rxFilled (ok : Bool) (v : Nat) (st : Option Status) : (s.return ok v st).rxFilled = s.rxFilled := rfl
@[simp] theorem State.return_crcTable (ok : Bool) (v : Nat) (st : Option Status) : (s.return ok v st).crcTable = s.crcTable := rfl
@[simp] theorem State.return_cobsStatus (ok : Bool) (v : Nat) (st : Option Status) : (s.return ok v st).cobsStatus = s.cobsStatus := rfl
@[simp] theorem State.return_crcStatus (ok : Bool) (v : Nat) (st : Option Status) : (s.return ok v st).crcStatus = s.crcStatus := rfl
@[simp] theorem State.return_xferStatus (ok : Bool) (v : Nat) (st : Option Status) : (s.return ok v st).xferStatus = s.xferStatus := rfl
@[simp] theorem State.return_fsm (ok : Bool) (v : Nat) (st : Option Status) : (s.return ok v st).fsm = s.fsm := rfl
@[simp] theorem State.return_bytesRead (ok : Bool) (v : Nat) (st : Option Status) : (s.return ok v st).bytesRead = s.bytesRead := rfl
@[simp] theorem State.return_tLast (ok : Bool) (v : Nat) (st : Option Status) : (s.return ok v st).tLast = s.tLast := rfl
@[simp] theorem State.return_buf (ok : Bool) (v : Nat) (st : Option Status) : (s.return ok v st).buf = s.buf := rfl
@[simp] theorem State.return_dst (ok : Bool) (v : Nat) (st : Option Status) : (s.return ok v st).dst = s.dst := rfl
@[simp] theorem State.return_result (ok : Bool) (v : Nat) (st : Option Status) : (s.return ok v st).result = some ⟨ok, v, st⟩ := rfl
@[simp] theorem State.return_inbound (ok : Bool) (v : Nat) (st : Option Status) : (s.return ok v st).inbound = s.inbound := rfl
@[simp] theorem State.return_arrivals (ok : Bool) (v : Nat) (st : Option Status) : (s.return ok v st).arrivals = s.arrivals := rfl
@[simp] theorem State.return_outbound (ok : Bool) (v : Nat) (st : Option Status) : (s.return ok v st).outbound = s.outbound := rfl
@[simp] theorem State.return_now (ok : Bool) (v : Nat) (st : Option Status) : (s.return ok v st).now = s.now := rfl
@[simp] theorem State.return_commands (ok : Bool) (v : Nat) (st : Option Status) : (s.return ok v st).commands = s.commands := rfl

/-! ## fail -/

@[simp] theorem State.fail_cfg (l : Layer) (st : Status) : (s.fail l st).cfg = s.cfg := by cases l <;> rfl
@[simp] theorem State.fail_tx (l : Layer) (st : Status) : (s.fail l st).tx = s.tx := by cases l <;> rfl
@[simp] theorem State.fail_rx (l : Layer) (st : Status) : (s.fail l st).rx = s.rx := by cases l <;> rfl
@[simp] theorem State.fail_txFilled (l : Layer) (st : Status) : (s.fail l st).txFilled = s.txFilled := by cases l <;> rfl
@[simp] theorem State.fail_rxFilled (l : Layer) (st : Status) : (s.fail l st).rxFilled = s.rxFilled := by cases l <;> rfl
@[simp] theorem State.fail_crcTable (l : Layer) (st : Status) : (s.fail l st).crcTable = s.crcTable := by cases l <;> rfl
@[simp] theorem State.fail_cobsStatus (l : Layer) (st : Status) : (s.fail l st).cobsStatus = if l = .cobs then st else s.cobsStatus := by cases l <;> rfl
@[simp] theorem State.fail_crcStatus (l : Layer) (st : Status) : (s.fail l st).crcStatus = if l = .crc then st else s.crcStatus := by cases l <;> rfl
@[simp] theorem State.fail_xferStatus (l : Layer) (st : Status) : (s.fail l st).xferStatus = if l = .transfer then st else s.xferStatus := by cases l <;> rfl
@[simp] theorem State.fail_fsm (l : Layer) (st : Status) : (s.fail l st).fsm = s.fsm := by cases l <;> rfl
@[simp] theorem State.fail_bytesRead (l : Layer) (st : Status) : (s.fail l st).bytesRead = s.bytesRead := by cases l <;> rfl
@[simp] theorem State.fail_tLast (l : Layer) (st : Status) : (s.fail l st).tLast = s.tLast := by cases l <;> rfl
@[simp] theorem State.fail_buf (l : Layer) (st : Status) : (s.fail l st).buf = s.buf := by cases l <;> rfl
@[simp] theorem State.fail_dst (l : Layer) (st : Status) : (s.fail l st).dst = s.dst := by cases l <;> rfl
@[simp] theorem State.fail_result (l : Layer) (st : Status) : (s.fail l st).result = some ⟨false, 0, some st⟩ := by cases l <;> rfl
@[simp] theorem State.fail_inbound (l : Layer) (st : Status) : (s.fail l st).inbound = s.inbound := by cases l <;> rfl
@[simp] theorem State.fail_arrivals (l : Layer) (st : Status) : (s.fail l st).arrivals = s.arrivals := by cases l <;> rfl
@[simp] theorem State.fail_outbound (l : Layer) (st : Status) : (s.fail l st).outbound = s.outbound := by cases l <;> rfl
@[simp] theorem State.fail_now (l : Layer) (st : Status) : (s.fail l st).now = s.now := by cases l <;> rfl
@[simp] theorem State.fail_commands (l : Layer) (st : Status) : (s.fail l st).commands = s.commands := by cases l <;> rfl

/-! ## succeed -/

@[simp] theorem State.succeed_cfg (l : Layer) (st : Status) (v : Nat) : (s.succeed l st v).cfg = s.cfg := by cases l <;> rfl
@[simp] theorem State.succeed_tx (l : Layer) (st : Status) (v : Nat) : (s.succeed l st v).tx = s.tx := by cases l <;> rfl
@[simp] theorem State.succeed_rx (l : Layer) (st : Status) (v : Nat) : (s.succeed l st v).rx = s.rx := by cases l <;> rfl
@[simp] theorem State.succeed_txFilled (l : Layer) (st : Status) (v : Nat) : (s.succeed l st v).txFilled = s.txFilled := by cases l <;> rfl
@[simp] theorem State.succeed_rxFilled (l : Layer) (st : Status) (v : Nat) : (s.succeed l st v).rxFilled = s.rxFilled := by cases l <;> rfl
@[simp] theorem State.succeed_crcTable (l : Layer) (st : Status) (v : Nat) : (s.succeed l st v).crcTable = s.crcTable := by cases l <;> rfl
@[simp] theorem State.succeed_cobsStatus (l : Layer) (st : Status) (v : Nat) : (s.succeed l st v).cobsStatus = if l = .cobs then st else s.cobsStatus := by cases l <;> rfl
@[simp] theorem State.succeed_crcStatus (l : Layer) (st : Status) (v : Nat) : (s.succeed l st v).crcStatus = if l = .crc then st else s.crcStatus := by cases l <;> rfl
@[simp] theorem State.succeed_xferStatus (l : Layer) (st : Status) (v : Nat) : (s.succeed l st v).xferStatus = if l = .transfer then st else s.xferStatus := by cases l <;> rfl
@[simp] theorem State.succeed_fsm (l : Layer) (st : Status) (v : Nat) : (s.succeed l st v).fsm = s.fsm := by cases l <;> rfl
@[simp] theorem State.succeed_bytesRead (l : Layer) (st : Status) (v : Nat) : (s.succeed l st v).bytesRead = s.bytesRead := by cases l <;> rfl
@[simp] theorem State.succeed_tLast (l : Layer) (st : Status) (v : Nat) : (s.succeed l st v).tLast = s.tLast := by cases l <;> rfl
@[simp] theorem State.succeed_buf (l : Layer) (st : Status) (v : Nat) : (s.succeed l st v).buf = s.buf := by cases l <;> rfl
@[simp] theorem State.succeed_dst (l : Layer) (st : Status) (v : Nat) : (s.succeed l st v).dst = s.dst := by cases l <;> rfl
@[simp] theorem State.succeed_result (l : Layer) (st : Status) (v : Nat) : (s.succeed l st v).result = some ⟨true, v, some st⟩ := by cases l <;> rfl
@[simp] theorem State.succeed_inbound (l : Layer) (st : Status) (v : Nat) : (s.succeed l st v).inbound = s.inbound := by cases l <;> rfl
@[simp] theorem State.succeed_arrivals (l : Layer) (st : Status) (v : Nat) : (s.succeed l st v).arrivals = s.arrivals := by cases l <;> rfl
@[simp] theorem State.succeed_outbound (l : Layer) (st : Status) (v : Nat) : (s.succeed l st v).outbound = s.outbound := by cases l <;> rfl
@[simp] theorem State.succeed_now (l : Layer) (st : Status) (v : Nat) : (s.succeed l st v).now = s.now := by cases l <;> rfl
@[simp] theorem State.succeed_commands (l : Layer) (st : Status) (v : Nat) : (s.succeed l st v).commands = s.commands := by cases l <;> rfl

/-! ## answer -/

@[simp] theorem State.answer_cfg (v : Nat) : (s.answer v).cfg = s.cfg := rfl
@[simp] theorem State.answer_tx (v : Nat) : (s.answer v).tx = s.tx := rfl
@[simp] theorem State.answer_rx (v : Nat) : (s.answer v).rx = s.rx := rfl
@[simp] theorem State.answer_txFilled (v : Nat) : (s.answer v).txFilled = s.txFilled := rfl
@[simp] theorem State.answer_rxFilled (v : Nat) : (s.answer v).rxFilled = s.rxFilled := rfl
@[simp] theorem State.answer_crcTable (v : Nat) : (s.answer v).crcTable = s.crcTable := rfl
@[simp] theorem State.answer_cobsStatus (v : Nat) : (s.answer v).cobsStatus = s.cobsStatus := rfl
@[simp] theorem State.answer_crcStatus (v : Nat) : (s.answer v).crcStatus = s.crcStatus := rfl
@[simp] theorem State.answer_xferStatus (v : Nat) : (s.answer v).xferStatus = s.xferStatus := rfl
@[simp] theorem State.answer_fsm (v : Nat) : (s.answer v).fsm = s.fsm := rfl
@[simp] theorem State.answer_bytesRead (v : Nat) : (s.answer v).bytesRead = s.bytesRead := rfl
@[simp] theorem State.answer_tLast (v : Nat) : (s.answer v).tLast = s.tLast := rfl
@[simp] theorem State.answer_buf (v : Nat) : (s.answer v).buf = s.buf := rfl
@[simp] theorem State.answer_dst (v : Nat) : (s.answer v).dst = s.dst := rfl
@[simp] theorem State.answer_result (v : Nat) : (s.answer v).result = some ⟨true, v, none⟩ := rfl
@[simp] theorem State.answer_inbound (v : Nat) : (s.answer v).inbound = s.inbound := rfl
@[simp] theorem State.answer_arrivals (v : Nat) : (s.answer v).arrivals = s.arrivals := rfl
@[simp] theorem State.answer_outbound (v : Nat) : (s.answer v).outbound = s.outbound := rfl
@[simp] theorem State.answer_now (v : Nat) : (s.answer v).now = s.now := rfl
@[simp] theorem State.answer_commands (v : Nat) : (s.answer v).commands = s.commands := rfl

/-! ## clearTx -/

@[simp] theorem State.clearTx_cfg : (s.clearTx).cfg = s.cfg := rfl
@[simp] theorem State.clearTx_tx : (s.clearTx).tx = Memory.write s.tx 0 0 := rfl
@[simp] theorem State.clearTx_rx : (s.clearTx).rx = s.rx := rfl
@[simp] theorem State.clearTx_txFilled : (s.clearTx).txFilled = 0 := rfl
@[simp] theorem State.clearTx_rxFilled : (s.clearTx).rxFilled = s.rxFilled := rfl
@[simp] theorem State.clearTx_crcTable : (s.clearTx).crcTable = s.crcTable := rfl
@[simp] theorem State.clearTx_cobsStatus : (s.clearTx).cobsStatus = s.cobsStatus := rfl
@[simp] theorem State.clearTx_crcStatus : (s.clearTx).crcStatus = s.crcStatus := rfl
@[simp] theorem State.clearTx_xferStatus : (s.clearTx).xferStatus = s.xferStatus := rfl
@[simp] theorem State.clearTx_fsm : (s.clearTx).fsm = s.fsm := rfl
@[simp] theorem State.clearTx_bytesRead : (s.clearTx).bytesRead = s.bytesRead := rfl
@[simp] theorem State.clearTx_tLast : (s.clearTx).tLast = s.tLast := rfl
@[simp] theorem State.clearTx_buf : (s.clearTx).buf = s.buf := rfl
@[simp] theorem State.clearTx_dst : (s.clearTx).dst = s.dst := rfl
@[simp] theorem State.clearTx_result : (s.clearTx).result = s.result := rfl
@[simp] theorem State.clearTx_inbound : (s.clearTx).inbound = s.inbound := rfl
@[simp] theorem State.clearTx_arrivals : (s.clearTx).arrivals = s.arrivals := rfl
@[simp] theorem State.clearTx_outbound : (s.clearTx).outbound = s.outbound := rfl
@[simp] theorem State.clearTx_now : (s.clearTx).now = s.now := rfl
@[simp] theorem State.clearTx_commands : (s.clearTx).commands = s.commands := rfl

/-! ## clearRx -/

@[simp] theorem State.clearRx_cfg : (s.clearRx).cfg = s.cfg := rfl
@[simp] theorem State.clearRx_tx : (s.clearRx).tx = s.tx := rfl
@[simp] theorem State.clearRx_rx : (s.clearRx).rx = Memory.write s.rx 0 0 := rfl
@[simp] theorem State.clearRx_txFilled : (s.clearRx).txFilled = s.txFilled := rfl
@[simp] theorem State.clearRx_rxFilled : (s.clearRx).rxFilled = 0 := rfl
@[simp] theorem State.clearRx_crcTable : (s.clearRx).crcTable = s.crcTable := rfl
@[simp] theorem State.clearRx_cobsStatus : (s.clearRx).cobsStatus = s.cobsStatus := rfl
@[simp] theorem State.clearRx_crcStatus : (s.clearRx).crcStatus = s.crcStatus := rfl
@[simp] theorem State.clearRx_xferStatus : (s.clearRx).xferStatus = s.xferStatus := rfl
@[simp] theorem State.clearRx_fsm : (s.clearRx).fsm = s.fsm := rfl
@[simp] theorem State.clearRx_bytesRead : (s.clearRx).bytesRead = s.bytesRead := rfl
@[simp] theorem State.clearRx_tLast : (s.clearRx).tLast = s.tLast := rfl
@[simp] theorem State.clearRx_buf : (s.clearRx).buf = s.buf := rfl
@[simp] theorem State.clearRx_dst : (s.clearRx).dst = s.dst := rfl
@[simp] theorem State.clearRx_result : (s.clearRx).result = s.result := rfl
@[simp] theorem State.clearRx_inbound : (s.clearRx).inbound = s.inbound := rfl
@[simp] theorem State.clearRx_arrivals : (s.clearRx).arrivals = s.arrivals := rfl
@[simp] theorem State.clearRx_outbound : (s.clearRx).outbound = s.outbound := rfl
@[simp] theorem State.clearRx_now : (s.clearRx).now = s.now := rfl
@[simp] theorem State.clearRx_commands : (s.clearRx).commands = s.commands := rfl

/-! ## writeBytes -/

@[simp] theorem State.writeBytes_cfg (l : List Byte) : (s.writeBytes l).cfg = s.cfg := rfl
@[simp] theorem State.writeBytes_tx (l : List Byte) : (s.writeBytes l).tx = s.tx := rfl
@[simp] theorem State.writeBytes_rx (l : List Byte) : (s.writeBytes l).rx = s.rx := rfl
@[simp] theorem State.writeBytes_txFilled (l : List Byte) : (s.writeBytes l).txFilled = s.txFilled := rfl
@[simp] theorem State.writeBytes_rxFilled (l : List Byte) : (s.writeBytes l).rxFilled = s.rxFilled := rfl
@[simp] theorem State.writeBytes_crcTable (l : List Byte) : (s.writeBytes l).crcTable = s.crcTable := rfl
@[simp] theorem State.writeBytes_cobsStatus (l : List Byte) : (s.writeBytes l).cobsStatus = s.cobsStatus := rfl
@[simp] theorem State.writeBytes_crcStatus (l : List Byte) : (s.writeBytes l).crcStatus = s.crcStatus := rfl
@[simp] theorem State.writeBytes_xferStatus (l : List Byte) : (s.writeBytes l).xferStatus = s.xferStatus := rfl
@[simp] theorem State.writeBytes_fsm (l : List Byte) : (s.writeBytes l).fsm = s.fsm := rfl
@[simp] theorem State.writeBytes_bytesRead (l : List Byte) : (s.writeBytes l).bytesRead = s.bytesRead := rfl
@[simp] theorem State.writeBytes_tLast (l : List Byte) : (s.writeBytes l).tLast = s.tLast := rfl
@[simp] theorem State.writeBytes_buf (l : List Byte) : (s.writeBytes l).buf = s.buf := rfl
@[simp] theorem State.writeBytes_dst (l : List Byte) : (s.writeBytes l).dst = s.dst := rfl
@[simp] theorem State.writeBytes_result (l : List Byte) : (s.writeBytes l).result = s.result := rfl
@[simp] theorem State.writeBytes_inbound (l : List Byte) : (s.writeBytes l).inbound = s.inbound := rfl
@[simp] theorem State.writeBytes_arrivals (l : List Byte) : (s.writeBytes l).arrivals = s.arrivals := rfl
@[simp] theorem State.writeBytes_outbound (l : List Byte) : (s.writeBytes l).outbound = s.outbound ++ l := rfl
@[simp] theorem State.writeBytes_now (l : List Byte) : (s.writeBytes l).now = s.now := rfl
@[simp] theorem State.writeBytes_commands (l : List Byte) : (s.writeBytes l).commands = s.commands := rfl

/-! ## stagePayload -/

@[simp] theorem State.stagePayload_cfg (offset len : Nat) (bytes : List Byte) : (s.stagePayload offset len bytes).cfg = s.cfg := rfl
@[simp] theorem State.stagePayload_tx (offset len : Nat) (bytes : List Byte) : (s.stagePayload offset len bytes).tx = (s.txBuf.setBytes (payloadIndex offset) bytes).cells := rfl
@[simp] theorem State.stagePayload_rx (offset len : Nat) (bytes : List Byte) : (s.stagePayload offset len bytes).rx = s.rx := rfl
@[simp] theorem State.stagePayload_txFilled (offset len : Nat) (bytes : List Byte) : (s.stagePayload offset len bytes).txFilled = max s.txFilled (offset + len) := rfl
@[simp] theorem State.stagePayload_rxFilled (offset len : Nat) (bytes : List Byte) : (s.stagePayload offset len bytes).rxFilled = s.rxFilled := rfl
@[simp] theorem State.stagePayload_crcTable (offset len : Nat) (bytes : List Byte) : (s.stagePayload offset len bytes).crcTable = s.crcTable := rfl
@[simp] theorem State.stagePayload_cobsStatus (offset len : Nat) (bytes : List Byte) : (s.stagePayload offset len bytes).cobsStatus = s.cobsStatus := rfl
@[simp] theorem State.stagePayload_crcStatus (offset len : Nat) (bytes : List Byte) : (s.stagePayload offset len bytes).crcStatus = s.crcStatus := rfl
@[simp] theorem State.stagePayload_xferStatus (offset len : Nat) (bytes : List Byte) : (s.stagePayload offset len bytes).xferStatus = s.xferStatus := rfl
@[simp] theorem State.stagePayload_fsm (offset len : Nat) (bytes : List Byte) : (s.stagePayload offset len bytes).fsm = s.fsm := rfl
@[simp] theorem State.stagePayload_bytesRead (offset len : Nat) (bytes : List Byte) : (s.stagePayload offset len bytes).bytesRead = s.bytesRead := rfl
@[simp] theorem State.stagePayload_tLast (offset len : Nat) (bytes : List Byte) : (s.stagePayload offset len bytes).tLast = s.tLast := rfl
@[simp] theorem State.stagePayload_buf (offset len : Nat) (bytes : List Byte) : (s.stagePayload offset len bytes).buf = s.buf := rfl
@[simp] theorem State.stagePayload_dst (offset len : Nat) (bytes : List Byte) : (s.stagePayload offset len bytes).dst = s.dst := rfl
@[simp] theorem State.stagePayload_result (offset len : Nat) (bytes : List Byte) : (s.stagePayload offset len bytes).result = s.result := rfl
@[simp] theorem State.stagePayload_inbound (offset len : Nat) (bytes : List Byte) : (s.stagePayload offset len bytes).inbound = s.inbound := rfl
@[simp] theorem State.stagePayload_arrivals (offset len : Nat) (bytes : List Byte) : (s.stagePayload offset len bytes).arrivals = s.arrivals := rfl
@[simp] theorem State.stagePayload_outbound (offset len : Nat) (bytes : List Byte) : (s.stagePayload offset len bytes).outbound = s.outbound := rfl
@[simp] theorem State.stagePayload_now (offset len : Nat) (bytes : List Byte) : (s.stagePayload offset len bytes).now = s.now := rfl
@[simp] theorem State.stagePayload_commands (offset len : Nat) (bytes : List Byte) : (s.stagePayload offset len bytes).commands = s.commands := rfl

/-! ## txStep -/

@[simp] theorem State.txStep_cfg (l : Layer) (r : OpResult) : (s.txStep l r).cfg = s.cfg := by cases l <;> rfl
@[simp] theorem State.txStep_tx (l : Layer) (r : OpResult) : (s.txStep l r).tx = r.buf.cells := by cases l <;> rfl
@[simp] theorem State.txStep_rx (l : Layer) (r : OpResult) : (s.txStep l r).rx = s.rx := by cases l <;> rfl
@[simp] theorem State.txStep_txFilled (l : Layer) (r : OpResult) : (s.txStep l r).txFilled = s.txFilled := by cases l <;> rfl
@[simp] theorem State.txStep_rxFilled (l : Layer) (r : OpResult) : (s.txStep l r).rxFilled = s.rxFilled := by cases l <;> rfl
@[simp] theorem State.txStep_crcTable (l : Layer) (r : OpResult) : (s.txStep l r).crcTable = s.crcTable := by cases l <;> rfl
@[simp] theorem State.txStep_cobsStatus (l : Layer) (r : OpResult) : (s.txStep l r).cobsStatus = if l = .cobs then r.status else s.cobsStatus := by cases l <;> rfl
@[simp] theorem State.txStep_crcStatus (l : Layer) (r : OpResult) : (s.txStep l r).crcStatus = if l = .crc then r.status else s.crcStatus := by cases l <;> rfl
@[simp] theorem State.txStep_xferStatus (l : Layer) (r : OpResult) : (s.txStep l r).xferStatus = if l = .transfer then r.status else s.xferStatus := by cases l <;> rfl
@[simp] theorem State.txStep_fsm (l : Layer) (r : OpResult) : (s.txStep l r).fsm = s.fsm := by cases l <;> rfl
@[simp] theorem State.txStep_bytesRead (l : Layer) (r : OpResult) : (s.txStep l r).bytesRead = s.bytesRead := by cases l <;> rfl
@[simp] theorem State.txStep_tLast (l : Layer) (r : OpResult) : (s.txStep l r).tLast = s.tLast := by cases l <;> rfl
@[simp] theorem State.txStep_buf (l : Layer) (r : OpResult) : (s.txStep l r).buf = s.buf := by cases l <;> rfl
@[simp] theorem State.txStep_dst (l : Layer) (r : OpResult) : (s.txStep l r).dst = s.dst := by cases l <;> rfl
@[simp] theorem State.txStep_result (l : Layer) (r : OpResult) : (s.txStep l r).result = s.result := by cases l <;> rfl
@[simp] theorem State.txStep_inbound (l : Layer) (r : OpResult) : (s.txStep l r).inbound = s.inbound := by cases l <;> rfl
@[simp] theorem State.txStep_arrivals (l : Layer) (r : OpResult) : (s.txStep l r).arrivals = s.arrivals := by cases l <;> rfl
@[simp] theorem State.txStep_outbound (l : Layer) (r : OpResult) : (s.txStep l r).outbound = s.outbound := by cases l <;> rfl
@[simp] theorem State.txStep_now (l : Layer) (r : OpResult) : (s.txStep l r).now = s.now := by cases l <;> rfl
@[simp] theorem State.txStep_commands (l : Layer) (r : OpResult) : (s.txStep l r).commands = s.commands := by cases l <;> rfl

/-! ## transmit -/

@[simp] theorem State.transmit_cfg (p : Nat) (frame : List Byte) : (s.transmit p frame).cfg = s.cfg := rfl
@[simp] theorem State.transmit_tx (p : Nat) (frame : List Byte) : (s.transmit p frame).tx = Memory.write s.tx 0 0 := rfl
@[simp] theorem State.transmit_rx (p : Nat) (frame : List Byte) : (s.transmit p frame).rx = s.rx := rfl
@[simp] theorem State.transmit_txFilled (p : Nat) (frame : List Byte) : (s.transmit p frame).txFilled = 0 := rfl
@[simp] theorem State.transmit_rxFilled (p : Nat) (frame : List Byte) : (s.transmit p frame).rxFilled = s.rxFilled := rfl
@[simp] theorem State.transmit_crcTable (p : Nat) (frame : List Byte) : (s.transmit p frame).crcTable = s.crcTable := rfl
@[simp] theorem State.transmit_cobsStatus (p : Nat) (frame : List Byte) : (s.transmit p frame).cobsStatus = s.cobsStatus := rfl
@[simp] theorem State.transmit_crcStatus (p : Nat) (frame : List Byte) : (s.transmit p frame).crcStatus = s.crcStatus := rfl
@[simp] theorem State.transmit_xferStatus (p : Nat) (frame : List Byte) : (s.transmit p frame).xferStatus = .packetSent := rfl
@[simp] theorem State.transmit_fsm (p : Nat) (frame : List Byte) : (s.transmit p frame).fsm = s.fsm := rfl
@[simp] theorem State.transmit_bytesRead (p : Nat) (frame : List Byte) : (s.transmit p frame).bytesRead = s.bytesRead := rfl
@[simp] theorem State.transmit_tLast (p : Nat) (frame : List Byte) : (s.transmit p frame).tLast = s.tLast := rfl
@[simp] theorem State.transmit_buf (p : Nat) (frame : List Byte) : (s.transmit p frame).buf = s.buf := rfl
@[simp] theorem State.transmit_dst (p : Nat) (frame : List Byte) : (s.transmit p frame).dst = s.dst := rfl
@[simp] theorem State.transmit_result (p : Nat) (frame : List Byte) : (s.transmit p frame).result = some ⟨true, 0, some .packetSent⟩ := rfl
@[simp] theorem State.transmit_inbound (p : Nat) (frame : List Byte) : (s.transmit p frame).inbound = s.inbound := rfl
@[simp] theorem State.transmit_arrivals (p : Nat) (frame : List Byte) : (s.transmit p frame).arrivals = s.arrivals := rfl
@[simp] theorem State.transmit_outbound (p : Nat) (frame : List Byte) : (s.transmit p frame).outbound = s.outbound ++ [s.cfg.startByte, BitVec.ofNat 8 p] ++ frame := rfl
@[simp] theorem State.transmit_now (p : Nat) (frame : List Byte) : (s.transmit p frame).now = s.now := rfl
@[simp] theorem State.transmit_commands (p : Nat) (frame : List Byte) : (s.transmit p frame).commands = s.commands := rfl

/-! ## putRxLoop -/

@[simp] theorem State.putRxLoop_cfg (q : RxLoop) : (s.putRxLoop q).cfg = s.cfg := rfl
@[simp] theorem State.putRxLoop_tx (q : RxLoop) : (s.putRxLoop q).tx = s.tx := rfl
@[simp] theorem State.putRxLoop_rx (q : RxLoop) : (s.putRxLoop q).rx = q.rx := rfl
@[simp] theorem State.putRxLoop_txFilled (q : RxLoop) : (s.putRxLoop q).txFilled = s.txFilled := rfl
@[simp] theorem State.putRxLoop_rxFilled (q : RxLoop) : (s.putRxLoop q).rxFilled = s.rxFilled := rfl
@[simp] theorem State.putRxLoop_crcTable (q : RxLoop) : (s.putRxLoop q).crcTable = s.crcTable := rfl
@[simp] theorem State.putRxLoop_cobsStatus (q : RxLoop) : (s.putRxLoop q).cobsStatus = s.cobsStatus := rfl
@[simp] theorem State.putRxLoop_crcStatus (q : RxLoop) : (s.putRxLoop q).crcStatus = s.crcStatus := rfl
@[simp] theorem State.putRxLoop_xferStatus (q : RxLoop) : (s.putRxLoop q).xferStatus = s.xferStatus := rfl
@[simp] theorem State.putRxLoop_fsm (q : RxLoop) : (s.putRxLoop q).fsm = s.fsm := rfl
@[simp] theorem State.putRxLoop_bytesRead (q : RxLoop) : (s.putRxLoop q).bytesRead = q.bytesRead := rfl
@[simp] theorem State.putRxLoop_tLast (q : RxLoop) : (s.putRxLoop q).tLast = q.tLast := rfl
@[simp] theorem State.putRxLoop_buf (q : RxLoop) : (s.putRxLoop q).buf = s.buf := rfl
@[simp] theorem State.putRxLoop_dst (q : RxLoop) : (s.putRxLoop q).dst = s.dst := rfl
@[simp] theorem State.putRxLoop_result (q : RxLoop) : (s.putRxLoop q).result = s.result := rfl
@[simp] theorem State.putRxLoop_inbound (q : RxLoop) : (s.putRxLoop q).inbound = q.port.fifo := rfl
@[simp] theorem State.putRxLoop_arrivals (q : RxLoop) : (s.putRxLoop q).arrivals = q.port.arrivals := rfl
@[simp] theorem State.putRxLoop_outbound (q : RxLoop) : (s.putRxLoop q).outbound = s.outbound := rfl
@[simp] theorem State.putRxLoop_now (q : RxLoop) : (s.putRxLoop q).now = q.port.now := rfl
@[simp] theorem State.putRxLoop_commands (q : RxLoop) : (s.putRxLoop q).commands = s.commands := rfl

/-! ## putPort -/

@[simp] theorem State.putPort_cfg (p : Port) : (s.putPort p).cfg = s.cfg := rfl
@[simp] theorem State.putPort_tx (p : Port) : (s.putPort p).tx = s.tx := rfl
@[simp] theorem State.putPort_rx (p : Port) : (s.putPort p).rx = s.rx := rfl
@[simp] theorem State.putPort_txFilled (p : Port) : (s.putPort p).txFilled = s.txFilled := rfl
@[simp] theorem State.putPort_rxFilled (p : Port) : (s.putPort p).rxFilled = s.rxFilled := rfl
@[simp] theorem State.putPort_crcTable (p : Port) : (s.putPort p).crcTable = s.crcTable := rfl
@[simp] theorem State.putPort_cobsStatus (p : Port) : (s.putPort p).cobsStatus = s.cobsStatus := rfl
@[simp] theorem State.putPort_crcStatus (p : Port) : (s.putPort p).crcStatus = s.crcStatus := rfl
@[simp] theorem State.putPort_xferStatus (p : Port) : (s.putPort p).xferStatus = s.xferStatus := rfl
@[simp] theorem State.putPort_fsm (p : Port) : (s.putPort p).fsm = s.fsm := rfl
@[simp] theorem State.putPort_bytesRead (p : Port) : (s.putPort p).bytesRead = s.bytesRead := rfl
@[simp] theorem State.putPort_tLast (p : Port) : (s.putPort p).tLast = s.tLast := rfl
@[simp] theorem State.putPort_buf (p : Port) : (s.putPort p).buf = s.buf := rfl
@[simp] theorem State.putPort_dst (p : Port) : (s.putPort p).dst = s.dst := rfl
@[simp] theorem State.putPort_result (p : Port) : (s.putPort p).result = s.result := rfl
@[simp] theorem State.putPort_inbound (p : Port) : (s.putPort p).inbound = p.fifo := rfl
@[simp] theorem State.putPort_arrivals (p : Port) : (s.putPort p).arrivals = p.arrivals := rfl
@[simp] theorem State.putPort_outbound (p : Port) : (s.putPort p).outbound = s.outbound := rfl
@[simp] theorem State.putPort_now (p : Port) : (s.putPort p).now = p.now := rfl
@[simp] theorem State.putPort_commands (p : Port) : (s.putPort p).commands = s.commands := rfl

/-! ## report -/

@[simp] theorem State.report_cfg (l : Layer) (r : OpResult) : (s.report l r).cfg = s.cfg := by unfold State.report; split <;> simp_all
@[simp] theorem State.report_tx (l : Layer) (r : OpResult) : (s.report l r).tx = s.tx := by unfold State.report; split <;> simp_all
@[simp] theorem State.report_rx (l : Layer) (r : OpResult) : (s.report l r).rx = s.rx := by unfold State.report; split <;> simp_all
@[simp] theorem State.report_txFilled (l : Layer) (r : OpResult) : (s.report l r).txFilled = s.txFilled := by unfold State.report; split <;> simp_all
@[simp] theorem State.report_rxFilled (l : Layer) (r : OpResult) : (s.report l r).rxFilled = s.rxFilled := by unfold State.report; split <;> simp_all
@[simp] theorem State.report_crcTable (l : Layer) (r : OpResult) : (s.report l r).crcTable = s.crcTable := by unfold State.report; split <;> simp_all
@[simp] theorem State.report_cobsStatus (l : Layer) (r : OpResult) : (s.report l r).cobsStatus = if l = .cobs then r.status else s.cobsStatus := by unfold State.report; split <;> simp_all
@[simp] theorem State.report_crcStatus (l : Layer) (r : OpResult) : (s.report l r).crcStatus = if l = .crc then r.status else s.crcStatus := by unfold State.report; split <;> simp_all
@[simp] theorem State.report_xferStatus (l : Layer) (r : OpResult) : (s.report l r).xferStatus = if l = .transfer then r.status else s.xferStatus := by unfold State.report; split <;> simp_all
@[simp] theorem State.report_fsm (l : Layer) (r : OpResult) : (s.report l r).fsm = s.fsm := by unfold State.report; split <;> simp_all
@[simp] theorem State.report_bytesRead (l : Layer) (r : OpResult) : (s.report l r).bytesRead = s.bytesRead := by unfold State.report; split <;> simp_all
@[simp] theorem State.report_tLast (l : Layer) (r : OpResult) : (s.report l r).tLast = s.tLast := by unfold State.report; split <;> simp_all
@[simp] theorem State.report_buf (l : Layer) (r : OpResult) : (s.report l r).buf = r.buf := by unfold State.report; split <;> simp_all
@[simp] theorem State.report_dst (l : Layer) (r : OpResult) : (s.report l r).dst = s.dst := by unfold State.report; split <;> simp_all
@[simp] theorem State.report_result (l : Layer) (r : OpResult) : (s.report l r).result = some ⟨r.ok, if r.ok then r.value else 0, some r.status⟩ := by unfold State.report; split <;> simp_all
@[simp] theorem State.report_inbound (l : Layer) (r : OpResult) : (s.report l r).inbound = s.inbound := by unfold State.report; split <;> simp_all
@[simp] theorem State.report_arrivals (l : Layer) (r : OpResult) : (s.report l r).arrivals = s.arrivals := by unfold State.report; split <;> simp_all
@[simp] theorem State.report_outbound (l : Layer) (r : OpResult) : (s.report l r).outbound = s.outbound := by unfold State.report; split <;> simp_all
@[simp] theorem State.report_now (l : Layer) (r : OpResult) : (s.report l r).now = s.now := by unfold State.report; split <;> simp_all
@[simp] theorem State.report_commands (l : Layer) (r : OpResult) : (s.report l r).commands = s.commands := by unfold State.report; split <;> simp_all

/-! ## enterReceive -/

@[simp] theorem State.enterReceive_cfg : (s.enterReceive).cfg = s.cfg := rfl
@[simp] theorem State.enterReceive_tx : (s.enterReceive).tx = s.tx := rfl
@[simp] theorem State.enterReceive_rx : (s.enterReceive).rx = Memory.write s.rx 0 0 := rfl
@[simp] theorem State.enterReceive_txFilled : (s.enterReceive).txFilled = s.txFilled := rfl
@[simp] theorem State.enterReceive_rxFilled : (s.enterReceive).rxFilled = 0 := rfl
@[simp] theorem State.enterReceive_crcTable : (s.enterReceive).crcTable = s.crcTable := rfl
@[simp] theorem State.enterReceive_cobsStatus : (s.enterReceive).cobsStatus = s.cobsStatus := rfl
@[simp] theorem State.enterReceive_crcStatus : (s.enterReceive).crcStatus = s.crcStatus := rfl
@[simp] theorem State.enterReceive_xferStatus : (s.enterReceive).xferStatus = s.xferStatus := rfl
@[simp] theorem State.enterReceive_fsm : (s.enterReceive).fsm = .scanningForStart := rfl
@[simp] theorem State.enterReceive_bytesRead : (s.enterReceive).bytesRead = s.bytesRead := rfl
@[simp] theorem State.enterReceive_tLast : (s.enterReceive).tLast = s.tLast := rfl
@[simp] theorem State.enterReceive_buf : (s.enterReceive).buf = s.buf := rfl
@[simp] theorem State.enterReceive_dst : (s.enterReceive).dst = s.dst := rfl
@[simp] theorem State.enterReceive_result : (s.enterReceive).result = s.result := rfl
@[simp] theorem State.enterReceive_inbound : (s.enterReceive).inbound = s.inbound := rfl
@[simp] theorem State.enterReceive_arrivals : (s.enterReceive).arrivals = s.arrivals := rfl
@[simp] theorem State.enterReceive_outbound : (s.enterReceive).outbound = s.outbound := rfl
@[simp] theorem State.enterReceive_now : (s.enterReceive).now = s.now := rfl
@[simp] theorem State.enterReceive_commands : (s.enterReceive).commands = s.commands := rfl

/-! ## errorStage -/

@[simp] theorem State.errorStage_cfg (kind : Status) : (s.errorStage kind).cfg = s.cfg := rfl
@[simp] theorem State.errorStage_tx (kind : Status) : (s.errorStage kind).tx = s.tx := rfl
@[simp] theorem State.errorStage_rx (kind : Status) : (s.errorStage kind).rx = s.rx := rfl
@[simp] theorem State.errorStage_txFilled (kind : Status) : (s.errorStage kind).txFilled = s.txFilled := rfl
@[simp] theorem State.errorStage_rxFilled (kind : Status) : (s.errorStage kind).rxFilled = s.rxFilled := rfl
@[simp] theorem State.errorStage_crcTable (kind : Status) : (s.errorStage kind).crcTable = s.crcTable := rfl
@[simp] theorem State.errorStage_cobsStatus (kind : Status) : (s.errorStage kind).cobsStatus = s.cobsStatus := rfl
@[simp] theorem State.errorStage_crcStatus (kind : Status) : (s.errorStage kind).crcStatus = s.crcStatus := rfl
@[simp] theorem State.errorStage_xferStatus (kind : Status) : (s.errorStage kind).xferStatus = kind := rfl
@[simp] theorem State.errorStage_fsm (kind : Status) : (s.errorStage kind).fsm = .idle := rfl
@[simp] theorem State.errorStage_bytesRead (kind : Status) : (s.errorStage kind).bytesRead = s.bytesRead := rfl
@[simp] theorem State.errorStage_tLast (kind : Status) : (s.errorStage kind).tLast = s.tLast := rfl
@[simp] theorem State.errorStage_buf (kind : Status) : (s.errorStage kind).buf = s.buf := rfl
@[simp] theorem State.errorStage_dst (kind : Status) : (s.errorStage kind).dst = s.dst := rfl
@[simp] theorem State.errorStage_result (kind : Status) : (s.errorStage kind).result = some ⟨false, 0, some kind⟩ := rfl
@[simp] theorem State.errorStage_inbound (kind : Status) : (s.errorStage kind).inbound = s.inbound := rfl
@[simp] theorem State.errorStage_arrivals (kind : Status) : (s.errorStage kind).arrivals = s.arrivals := rfl
@[simp] theorem State.errorStage_outbound (kind : Status) : (s.errorStage kind).outbound = s.outbound := rfl
@[simp] theorem State.errorStage_now (kind : Status) : (s.errorStage kind).now = s.now := rfl
@[simp] theorem State.errorStage_commands (kind : Status) : (s.errorStage kind).commands = s.commands := rfl

/-! ## Buffers seen through the state -/

@[simp] theorem State.txBuf_size : s.txBuf.size = s.cfg.txBufSize := rfl
@[simp] theorem State.rxBuf_size : s.rxBuf.size = s.cfg.rxBufSize := rfl
@[simp] theorem State.txBuf_cells : s.txBuf.cells = s.tx := rfl
@[simp] theorem State.rxBuf_cells : s.rxBuf.cells = s.rx := rfl
@[simp] theorem State.txBuf_get (i : Nat) : s.txBuf.get i = Memory.read s.tx i := rfl
@[simp] theorem State.rxBuf_get (i : Nat) : s.rxBuf.get i = Memory.read s.rx i := rfl
@[simp] theorem State.rxLoop_rx : s.rxLoop.rx = s.rx := rfl
@[simp] theorem State.rxLoop_bytesRead : s.rxLoop.bytesRead = s.bytesRead := rfl
@[simp] theorem State.rxLoop_tLast : s.rxLoop.tLast = s.tLast := rfl
@[simp] theorem State.rxLoop_port : s.rxLoop.port = s.port := rfl
@[simp] theorem State.port_fifo : s.port.fifo = s.inbound := rfl
@[simp] theorem State.port_now : s.port.now = s.now := rfl
@[simp] theorem State.port_arrivals : s.port.arrivals = s.arrivals := rfl
@[simp] theorem State.putPort_port (p : Port) : (s.putPort p).port = p := rfl
@[simp] theorem State.putPort_self : s.putPort s.port = s := rfl

end Sys2Proof.Machine
end

