-- ==== Sys2Proof/Laws/Receive.lean ====
section
/-! SUPPORT. What the receive sequencer does: one spec lemma for each storing loop, the transitions of
each state, and what no transition touches. -/

namespace Sys2Proof.Machine

/-! ## The storing loops -/

/-- The delimiter scanner (44_receive.md R177): the bytes it may write, the bounds it keeps, and how
each ending leaves the packet. -/
theorem storePacket_spec (timeout : Nat) (d : Byte) (room : Nat) (q : RxLoop) :
    q.bytesRead ≤ (storePacket timeout d room q).2.bytesRead ∧
    (storePacket timeout d room q).2.bytesRead ≤ q.bytesRead + room ∧
    q.port.now ≤ (storePacket timeout d room q).2.port.now ∧
    (q.tLast ≤ q.port.now → (storePacket timeout d room q).2.tLast ≤ (storePacket timeout d room q).2.port.now) ∧
    (∃ used, q.port.stream = used ++ (storePacket timeout d room q).2.port.stream) ∧
    (∀ size, q.bytesRead + room ≤ size → Memory.wf size q.rx = true →
      Memory.wf size (storePacket timeout d room q).2.rx = true) ∧
    (∀ j, j < q.bytesRead ∨ (storePacket timeout d room q).2.bytesRead ≤ j →
      Memory.read (storePacket timeout d room q).2.rx j = Memory.read q.rx j) ∧
    (∀ j, q.bytesRead ≤ j → j + 1 < (storePacket timeout d room q).2.bytesRead →
      Memory.read (storePacket timeout d room q).2.rx j ≠ d) ∧
    ((storePacket timeout d room q).1 = .delimiter →
      q.bytesRead < (storePacket timeout d room q).2.bytesRead ∧
        Memory.read (storePacket timeout d room q).2.rx ((storePacket timeout d room q).2.bytesRead - 1) = d) ∧
    ((storePacket timeout d room q).1 = .full →
      (storePacket timeout d room q).2.bytesRead = q.bytesRead + room) := by
  induction room generalizing q with
  | zero =>
    exact ⟨Nat.le_refl _, Nat.le_refl _, Nat.le_refl _, id, ⟨[], rfl⟩, fun _ _ h => h, fun _ _ => rfl,
      fun j h1 h2 => by simp only [storePacket] at h2; omega, fun h => by simp [storePacket] at h, fun _ => rfl⟩
  | succ room ih =>
    obtain ⟨hnow, hused, _⟩ := awaitByte_cases timeout q.tLast q.port
    cases hb : (awaitByte timeout q.tLast q.port).byte with
    | none =>
      simp only [storePacket, hb]
      exact ⟨Nat.le_refl _, by omega, hnow, fun h => Nat.le_trans h hnow, ⟨_, hused⟩, fun _ _ h => h,
        fun _ _ => trivial, fun j h1 h2 => by omega, by simp, by simp⟩
    | some b =>
      simp only [storePacket, hb]
      split
      · next hd =>
        refine ⟨by simp, by simp, hnow, fun _ => Nat.le_refl _, ⟨_, hused⟩,
          fun size hs h => Memory.write_wf _ h (by omega), fun j hj => ?_, fun j h1 h2 => ?_, fun _ => ?_,
          fun h => by cases h⟩
        · rw [Memory.read_write, if_neg (by simp only at hj; omega)]
        · simp only at h2; omega
        · simp [hd]
      · next hd =>
        obtain ⟨h1, h2, h3, h4, ⟨used', h5⟩, h6, h7, h8, h9, h10⟩ := ih ⟨Memory.write q.rx q.bytesRead b,
          q.bytesRead + 1, (awaitByte timeout q.tLast q.port).port.now, (awaitByte timeout q.tLast q.port).port⟩
        simp only at h1 h2 h3 h4 h5 h6 h7 h8 h9 h10
        refine ⟨by omega, by omega, by omega, fun _ => h4 (Nat.le_refl _), ⟨b :: used', ?_⟩,
          fun size hs h => h6 size (by omega) (Memory.write_wf _ h (by omega)), fun j hj => ?_, fun j hj1 hj2 => ?_,
          fun h => ⟨by have := (h9 h).1; omega, (h9 h).2⟩, fun h => by rw [h10 h]; omega⟩
        · rw [hused, hb, List.cons_append, ← h5]; rfl
        · rw [h7 j (by omega), Memory.read_write, if_neg (by omega)]
        · rcases Nat.lt_or_ge q.bytesRead j with hlt | hge
          · exact h8 j (by omega) hj2
          · obtain rfl : j = q.bytesRead := by omega
            rw [h7 q.bytesRead (by omega), Memory.read_write, if_pos rfl]
            exact hd

/-- ReceivingPostamble (R179): `bytes_read` stays, and only the `n` bytes awaited are written. -/
theorem storePostamble_spec (timeout n k : Nat) (q : RxLoop) :
    (storePostamble timeout n k q).2.bytesRead = q.bytesRead ∧
    q.port.now ≤ (storePostamble timeout n k q).2.port.now ∧
    (q.tLast ≤ q.port.now → (storePostamble timeout n k q).2.tLast ≤ (storePostamble timeout n k q).2.port.now) ∧
    (∃ used, q.port.stream = used ++ (storePostamble timeout n k q).2.port.stream) ∧
    (∀ size, q.bytesRead + k + n ≤ size → Memory.wf size q.rx = true →
      Memory.wf size (storePostamble timeout n k q).2.rx = true) ∧
    (∀ j, j < q.bytesRead + k ∨ q.bytesRead + k + n ≤ j →
      Memory.read (storePostamble timeout n k q).2.rx j = Memory.read q.rx j) := by
  induction n generalizing k q with
  | zero => exact ⟨rfl, Nat.le_refl _, id, ⟨[], rfl⟩, fun _ _ h => h, fun _ _ => rfl⟩
  | succ n ih =>
    obtain ⟨hnow, hused, _⟩ := awaitByte_cases timeout q.tLast q.port
    cases hb : (awaitByte timeout q.tLast q.port).byte with
    | none =>
      simp only [storePostamble, hb]
      exact ⟨trivial, hnow, fun h => Nat.le_trans h hnow, ⟨_, hused⟩, fun _ _ h => h, fun _ _ => trivial⟩
    | some b =>
      simp only [storePostamble, hb]
      obtain ⟨h1, h2, h3, ⟨used', h4⟩, h5, h6⟩ := ih (k + 1) ⟨Memory.write q.rx (q.bytesRead + k) b,
        q.bytesRead, (awaitByte timeout q.tLast q.port).port.now, (awaitByte timeout q.tLast q.port).port⟩
      simp only at h1 h2 h3 h4 h5 h6
      refine ⟨h1, by omega, fun _ => h3 (Nat.le_refl _), ⟨b :: used', ?_⟩,
        fun size hs h => h5 size (by omega) (Memory.write_wf _ h (by omega)), fun j hj => ?_⟩
      · rw [hused, hb, List.cons_append, ← h4]; rfl
      · rw [h6 j (by omega), Memory.read_write, if_neg (by omega)]

/-! ## The storing loops along the ways bytes come in -/

/-- The registers of a storing loop after the bytes `l` were stored from index `i` on, the port then `m`. -/
def RxLoop.stored (q : RxLoop) (i : Nat) (l : List Byte) (bytesRead : Nat) (m : Port) : RxLoop :=
  ⟨((⟨0, q.rx⟩ : Buffer).setBytes i l).cells, bytesRead, if l = [] then q.tLast else m.now, m⟩

theorem RxLoop.stored_cons {timeout : Nat} {p m : Port} {l : List Byte} (h : Trickles timeout p.now p l m)
    (q : RxLoop) (i k n : Nat) (b : Byte) :
    RxLoop.stored ⟨Memory.write q.rx i b, k, p.now, p⟩ (i + 1) l n m = q.stored i (b :: l) n m := by
  simp only [RxLoop.stored, h.tLast_eq, reduceCtorEq, if_false]; rfl

/-- The delimiter scanner takes packet bytes that trickle in, one after the other. -/
theorem storePacket_trickles {timeout : Nat} {d : Byte} {room : Nat} {q : RxLoop} {body : List Byte} {r : Port}
    (hd : d ∉ body) (hl : body.length ≤ room) (h : Trickles timeout q.tLast q.port body r) :
    storePacket timeout d room q =
      storePacket timeout d (room - body.length) (q.stored q.bytesRead body (q.bytesRead + body.length) r) := by
  induction body generalizing room q with
  | nil => cases h; rfl
  | cons b body ih =>
    obtain ⟨room, rfl⟩ : ∃ n, room = n + 1 := ⟨room - 1, by simp only [List.length_cons] at hl; omega⟩
    obtain ⟨hb, ht⟩ := trickles_cons_iff.1 h
    simp only [List.mem_cons, not_or] at hd
    simp only [storePacket, hb, if_neg (Ne.symm hd.1)]
    rw [ih (q := ⟨_, _, _, _⟩) hd.2 (by simpa using hl) ht]
    rw [RxLoop.stored_cons ht, List.length_cons, Nat.add_sub_add_right, Nat.add_assoc, Nat.add_comm 1]

/-- Everything the delimiter scanner can do (44_receive.md R177), along the ways bytes come in. -/
theorem storePacket_cases (timeout : Nat) (d : Byte) (room : Nat) (q : RxLoop) :
    ∃ l m, Trickles timeout q.tLast q.port l m ∧
      (d ∉ l ∧ l.length < room ∧ (∃ r, Silent timeout (if l = [] then q.tLast else m.now) m r ∧
          storePacket timeout d room q =
            (.timeout, { q.stored q.bytesRead l (q.bytesRead + l.length) m with port := r })) ∨
        d ∉ l ∧ l.length = room ∧
          storePacket timeout d room q = (.full, q.stored q.bytesRead l (q.bytesRead + l.length) m) ∨
        (∃ body, l = body ++ [d] ∧ d ∉ body) ∧ l.length ≤ room ∧
          storePacket timeout d room q = (.delimiter, q.stored q.bytesRead l (q.bytesRead + l.length) m)) := by
  induction room generalizing q with
  | zero => exact ⟨[], q.port, .done, .inr (.inl ⟨by simp, rfl, rfl⟩)⟩
  | succ room ih =>
    cases hb : (awaitByte timeout q.tLast q.port).byte with
    | none =>
      have hs : Silent timeout q.tLast q.port (awaitByte timeout q.tLast q.port).port :=
        silent_iff.2 (by rw [← hb])
      exact ⟨[], q.port, .done, .inl ⟨by simp, Nat.succ_pos _, _, hs, by simp only [storePacket, hb]; rfl⟩⟩
    | some b =>
      by_cases hbd : b = d
      · subst hbd
        refine ⟨[b], _, trickles_cons_iff.2 ⟨hb, .done⟩, .inr (.inr ⟨⟨[], rfl, by simp⟩, by simp, ?_⟩)⟩
        simp [storePacket, hb, RxLoop.stored, Buffer.setBytes, Buffer.set]
      · have hq : storePacket timeout d (room + 1) q = storePacket timeout d room ⟨Memory.write q.rx q.bytesRead b,
            q.bytesRead + 1, (awaitByte timeout q.tLast q.port).port.now, (awaitByte timeout q.tLast q.port).port⟩ := by
          simp only [storePacket, hb, if_neg hbd]
        obtain ⟨l, m, ht, h⟩ := ih ⟨Memory.write q.rx q.bytesRead b,
          q.bytesRead + 1, (awaitByte timeout q.tLast q.port).port.now, (awaitByte timeout q.tLast q.port).port⟩
        refine ⟨b :: l, m, trickles_cons_iff.2 ⟨hb, ht⟩, ?_⟩
        rw [hq, if_neg (List.cons_ne_nil b l), List.length_cons, Nat.add_comm l.length, ← Nat.add_assoc]
        simp only [ht.tLast_eq, RxLoop.stored_cons ht] at h
        obtain ⟨hd, hl, r, hr, h⟩ | ⟨hd, hl, h⟩ | ⟨⟨body, rfl, hd⟩, hl, h⟩ := h
        · exact .inl ⟨by simp [hd, Ne.symm hbd], by omega, r, hr, h⟩
        · exact .inr (.inl ⟨by simp [hd, Ne.symm hbd], by omega, h⟩)
        · exact .inr (.inr ⟨⟨b :: body, rfl, by simp [hd, Ne.symm hbd]⟩, by omega, h⟩)

/-- ReceivingPostamble takes bytes that trickle in, one after the other. -/
theorem storePostamble_trickles {timeout n k : Nat} {q : RxLoop} {part : List Byte} {r : Port}
    (hl : part.length ≤ n) (h : Trickles timeout q.tLast q.port part r) :
    storePostamble timeout n k q = storePostamble timeout (n - part.length) (k + part.length)
      (q.stored (q.bytesRead + k) part q.bytesRead r) := by
  induction part generalizing n k q with
  | nil => cases h; rfl
  | cons b part ih =>
    obtain ⟨n, rfl⟩ : ∃ m, n = m + 1 := ⟨n - 1, by simp only [List.length_cons] at hl; omega⟩
    obtain ⟨hb, ht⟩ := trickles_cons_iff.1 h
    simp only [storePostamble, hb]
    rw [ih (q := ⟨_, _, _, _⟩) (by simpa using hl) ht, ← Nat.add_assoc, RxLoop.stored_cons ht, List.length_cons,
      Nat.add_sub_add_right, Nat.add_assoc k, Nat.add_comm 1]

/-- Everything ReceivingPostamble can do (44_receive.md R179), along the ways bytes come in: all `n` bytes
are stored, or the line falls silent after fewer. -/
theorem storePostamble_cases (timeout n k : Nat) (q : RxLoop) :
    ∃ l m, Trickles timeout q.tLast q.port l m ∧
      (l.length < n ∧ (∃ r, Silent timeout (if l = [] then q.tLast else m.now) m r ∧
          storePostamble timeout n k q = (false, { q.stored (q.bytesRead + k) l q.bytesRead m with port := r })) ∨
        l.length = n ∧ storePostamble timeout n k q = (true, q.stored (q.bytesRead + k) l q.bytesRead m)) := by
  induction n generalizing k q with
  | zero => exact ⟨[], q.port, .done, .inr ⟨rfl, rfl⟩⟩
  | succ n ih =>
    cases hb : (awaitByte timeout q.tLast q.port).byte with
    | none =>
      have hs : Silent timeout q.tLast q.port (awaitByte timeout q.tLast q.port).port :=
        silent_iff.2 (by rw [← hb])
      exact ⟨[], q.port, .done, .inl ⟨Nat.succ_pos _, _, hs, by simp only [storePostamble, hb]; rfl⟩⟩
    | some b =>
      obtain ⟨l, m, ht, h⟩ := ih (k + 1) ⟨Memory.write q.rx (q.bytesRead + k) b,
        q.bytesRead, (awaitByte timeout q.tLast q.port).port.now, (awaitByte timeout q.tLast q.port).port⟩
      refine ⟨b :: l, m, trickles_cons_iff.2 ⟨hb, ht⟩, ?_⟩
      simp only [ht.tLast_eq, ← Nat.add_assoc, RxLoop.stored_cons ht] at h
      simp only [List.length_cons, reduceCtorEq, if_false, storePostamble, hb]
      obtain ⟨hl, r, hr, h⟩ | ⟨hl, h⟩ := h
      · exact .inl ⟨by omega, r, hr, h⟩
      · exact .inr ⟨by omega, h⟩

/-! ## The sequencer -/

theorem State.fsmStep_scanning {s : State} (h : s.fsm = .scanningForStart) : s.fsmStep = s.scanStage := by
  simp [State.fsmStep, h]

theorem State.fsmStep_packet {s : State} (h : s.fsm = .receivingPacket) : s.fsmStep = s.packetStage := by
  simp [State.fsmStep, h]

theorem State.fsmStep_postamble {s : State} (h : s.fsm = .receivingPostamble) : s.fsmStep = s.postambleStage := by
  simp [State.fsmStep, h]

theorem State.fsmStep_validating {s : State} (h : s.fsm = .validating) : s.fsmStep = s.validateStage := by
  simp [State.fsmStep, h]

theorem State.fsmStep_decoded {s : State} (h : s.fsm = .decoded) : s.fsmStep = s.decodeStage := by
  simp [State.fsmStep, h]

theorem State.fsmStep_error {s : State} {kind : Status} (h : s.fsm = .error kind) :
    s.fsmStep = s.errorStage kind := by simp [State.fsmStep, h]

theorem State.fsmStep_idle {s : State} (h : s.fsm = .idle) : s.fsmStep = s := by simp [State.fsmStep, h]

theorem State.runSequencer_succ (n : Nat) (s : State) :
    s.runSequencer (n + 1) = s.fsmStep.runSequencer n := rfl

theorem State.runSequencer_idle {s : State} (h : s.fsm = .idle) (n : Nat) : s.runSequencer n = s := by
  induction n with
  | zero => rfl
  | succ n ih => rw [State.runSequencer_succ, State.fsmStep_idle h, ih]

/-- An error state is left at once, with its kind as the status (R172, R182). -/
theorem State.runSequencer_error {s : State} {kind : Status} (h : s.fsm = .error kind) (n : Nat) :
    s.runSequencer (n + 1) = s.errorStage kind := by
  rw [State.runSequencer_succ, State.fsmStep_error h, State.runSequencer_idle (by simp)]

/-- How each state is left (R172). -/
theorem State.scanStage_fsm (s : State) :
    s.scanStage.fsm = .receivingPacket ∨ s.scanStage.fsm = .error (noStartStatus s.cfg) := by
  simp only [State.scanStage]; split <;> simp

theorem State.packetStage_fsm (s : State) :
    s.packetStage.fsm = .receivingPostamble ∨ s.packetStage.fsm = .error .packetTimeout ∨
      s.packetStage.fsm = .error .packetOutOfBufferSpace := by
  simp only [State.packetStage]; split <;> simp

theorem State.postambleStage_fsm (s : State) :
    s.postambleStage.fsm = .validating ∨ s.postambleStage.fsm = .error .postambleTimeout := by
  simp only [State.postambleStage]; split <;> simp

theorem State.validateStage_fsm (s : State) :
    s.validateStage.fsm = .decoded ∨ s.validateStage.fsm = .error .crcCheckFailed ∨
      s.validateStage.fsm = .error .computeBufferTooSmall := by
  simp only [State.validateStage, crcCompute]
  split
  · simp [OpResult.failed]
  · simp only [if_true]; split <;> simp

theorem State.decodeStage_fsm (s : State) :
    s.decodeStage.fsm = .idle ∨
      ∃ kind, s.decodeStage.fsm = .error kind ∧
        kind = (cobsDecode s.rxBuf s.bytesRead s.cfg.delimiterByte).status := by
  simp only [State.decodeStage]; split
  · exact .inl (by simp)
  · exact .inr ⟨_, rfl, rfl⟩

/-! ## What the sequencer does not touch -/

/-- The parts of the state that no transition of the receive sequencer touches. -/
structure State.RxSame (s t : State) : Prop where
  cfg : t.cfg = s.cfg
  tx : t.tx = s.tx
  txFilled : t.txFilled = s.txFilled
  crcTable : t.crcTable = s.crcTable
  buf : t.buf = s.buf
  dst : t.dst = s.dst
  outbound : t.outbound = s.outbound
  commands : t.commands = s.commands

theorem State.RxSame.trans {s t u : State} (h : s.RxSame t) (h' : t.RxSame u) : s.RxSame u :=
  ⟨h'.cfg.trans h.cfg, h'.tx.trans h.tx, h'.txFilled.trans h.txFilled, h'.crcTable.trans h.crcTable,
    h'.buf.trans h.buf, h'.dst.trans h.dst, h'.outbound.trans h.outbound, h'.commands.trans h.commands⟩

theorem State.rxSame_refl (s : State) : s.RxSame s := ⟨rfl, rfl, rfl, rfl, rfl, rfl, rfl, rfl⟩

theorem State.scanStage_same (s : State) : s.RxSame s.scanStage := by
  simp only [State.scanStage]; split <;> exact ⟨rfl, rfl, rfl, rfl, rfl, rfl, rfl, rfl⟩

theorem State.packetStage_same (s : State) : s.RxSame s.packetStage := by
  simp only [State.packetStage]; split <;> exact ⟨rfl, rfl, rfl, rfl, rfl, rfl, rfl, rfl⟩

theorem State.postambleStage_same (s : State) : s.RxSame s.postambleStage := by
  simp only [State.postambleStage]; split <;> exact ⟨rfl, rfl, rfl, rfl, rfl, rfl, rfl, rfl⟩

theorem State.validateStage_same (s : State) : s.RxSame s.validateStage := by
  simp only [State.validateStage]; split
  · split <;> exact ⟨rfl, rfl, rfl, rfl, rfl, rfl, rfl, rfl⟩
  · exact ⟨rfl, rfl, rfl, rfl, rfl, rfl, rfl, rfl⟩

theorem State.decodeStage_same (s : State) : s.RxSame s.decodeStage := by
  simp only [State.decodeStage]; split <;> exact ⟨rfl, rfl, rfl, rfl, rfl, rfl, rfl, rfl⟩

theorem State.fsmStep_same (s : State) : s.RxSame s.fsmStep := by
  simp only [State.fsmStep]
  split
  · exact s.rxSame_refl
  · exact s.scanStage_same
  · exact s.packetStage_same
  · exact s.postambleStage_same
  · exact s.validateStage_same
  · exact s.decodeStage_same
  · exact ⟨rfl, rfl, rfl, rfl, rfl, rfl, rfl, rfl⟩

theorem State.runSequencer_same (n : Nat) (s : State) : s.RxSame (s.runSequencer n) := by
  induction n generalizing s with
  | zero => exact s.rxSame_refl
  | succ n ih => exact s.fsmStep_same.trans (ih _)

/-- RECEIVE touches none of those parts (44_receive.md R170). -/
theorem State.receive_same (s : State) : s.RxSame (s.enterReceive.runSequencer 6) :=
  State.RxSame.trans (t := s.enterReceive) ⟨rfl, rfl, rfl, rfl, rfl, rfl, rfl, rfl⟩
    (State.runSequencer_same 6 s.enterReceive)

end Sys2Proof.Machine
end

