-- ==== Sys2Proof/Laws/Step.lean ====
section
/-! SUPPORT. What a step can do. -/

namespace Sys2Proof.Machine

/-- Everything a step that goes on can be: the engine idle on an empty queue, or one operation that its
issuer may issue, executed in the state with the command taken off the queue. -/
theorem step_next_cases {s t : State} (h : step s = .next t) :
    s.cfg.legal = true ∧
      (s.commands = [] ∧ t = s ∨
        ∃ q rest i, s.commands = q :: rest ∧ decode q.cmd = .ok i ∧ mayIssue q.issuer i.opcode = true ∧
          exec i { s with commands := rest } = .next t) := by
  simp only [step, fetch] at h
  by_cases hl : s.cfg.legal = true
  · refine ⟨hl, ?_⟩
    rw [if_pos hl] at h
    cases hc : s.commands with
    | nil => simp only [hc] at h; exact .inl ⟨rfl, by simpa using h.symm⟩
    | cons q rest =>
      simp only [hc, fetchIssue] at h
      cases hd : decode q.cmd with
      | error e => simp [hd] at h
      | ok i =>
        by_cases hm : mayIssue q.issuer i.opcode = true
        · simp only [hd, hm, if_true] at h; exact .inr ⟨q, rest, i, rfl, hd, hm, h⟩
        · simp [hd, hm] at h
  · simp [hl] at h

/-- A step faults only as the operation it runs does. -/
theorem step_fault_cases {s : State} {f : Fault} (h : step s = .fault f) :
    ∃ q rest i, s.commands = q :: rest ∧ decode q.cmd = .ok i ∧
      exec i { s with commands := rest } = .fault f := by
  simp only [step, fetch] at h
  by_cases hl : s.cfg.legal = true
  · rw [if_pos hl] at h
    cases hc : s.commands with
    | nil => simp [hc] at h
    | cons q rest =>
      simp only [hc, fetchIssue] at h
      cases hd : decode q.cmd with
      | error e => simp [hd] at h
      | ok i =>
        by_cases hm : mayIssue q.issuer i.opcode = true
        · simp only [hd, hm, if_true] at h; exact ⟨q, rest, i, rfl, hd, h⟩
        · simp [hd, hm] at h
  · simp [hl] at h

end Sys2Proof.Machine
end

