-- ==== Sys2Proof/Tests/Slice0.lean ====
section
/-! SUPPORT. The model's own tests: the checks of WellFormed, the decoding of every row of the operation
map, one operation each on vectors of 95_test_vectors.md, and for every obligation with hypotheses a
concrete state and operands that meet them. -/

open Sys2Proof Sys2Proof.Machine Sys2Proof.Claims

namespace Sys2Proof.Tests

/-! ## Helpers -/

/-- `TYP(mtx=3, mrx=3)` of the vectors V-S7 and V-R10. -/
def small : Config := { Config.typical with maxTxPayload := 3, maxRxPayload := 3 }

/-- The CRC-8 engine of section 5 of the vectors (V-B). -/
def c8 : Config :=
  { Config.typical with width := .w1, polynomial := 0x07, initialValue := 0, maxTxPayload := 8, maxRxPayload := 8 }

/-- The CRC-32 parameter set of the vectors (V-C13, V-S6). -/
def c32 : Config :=
  { Config.typical with width := .w4, polynomial := 0x04C11DB7, initialValue := 0xFFFFFFFF, maxTxPayload := 4,
                        maxRxPayload := 4 }

/-- A fresh engine with bytes waiting in its inbound FIFO and a plan of what is to come. -/
def online (cfg : Config) (fifo : List Byte) (plan : List Arrival) : State :=
  { State.construct cfg with inbound := fifo, arrivals := plan }

/-- So many polls before which nothing happens. -/
def quiet (n : Nat) : List Arrival := List.replicate n ⟨0, []⟩

/-- A silence of the length of the default TIMEOUT_US. -/
def stall : Arrival := ⟨20000, []⟩

/-- The payload `[9,0,7]` staged, as WRITE_PAYLOAD leaves it (V-S7). -/
def staged : State := { State.construct small with tx := [(1, 9), (3, 7)], txFilled := 3 }

/-- The operation completes, and a check holds of what it leaves. -/
def answers (i : Instr) (s : State) (check : State → Bool) : Bool :=
  match exec i s with
  | .next t => check t
  | _ => false

/-- The outcome triple returned. -/
def returned (t : State) (ok : Bool) (value : Nat) (st : Status) : Bool := t.result == some ⟨ok, value, some st⟩

/-- The operation is refused with this reason. -/
def refuses (o : Host.Outcome State Fault Refusal) (r : Refusal) : Bool :=
  match o with
  | .refused r' => r' == r
  | _ => false

/-- The step goes on. -/
def goesOn (o : Host.Outcome State Fault Refusal) : Bool :=
  match o with
  | .next _ => true
  | _ => false

/-! ## WellFormed: an ill-formed term for each check -/

theorem test_wf_crc_wider_than_one_byte : Instr.wf .w1 (.crcAppend [0] 0 0x100) = false := by decide

theorem test_wf_crc_wider_than_two_bytes : Instr.wf .w2 (.crcAppend [0, 0] 0 0x10000) = false := by decide

theorem test_wf_source_shorter_than_len : Instr.wf .w2 (.writePayload [1, 2] 0 3) = false := by decide

theorem test_ill_formed_crc_refused :
    refuses (exec (.crcAppend [0] 0 0x100) (State.construct c8)) .crcOperandTooWide = true := by decide +kernel

theorem test_ill_formed_source_refused :
    refuses (exec (.writePayload [1, 2] 0 3) (State.construct c8)) .sourceTooShort = true := by decide +kernel

theorem test_wf_limits :
    Instr.wf .w1 (.crcAppend [0] 0 0xFF) = true ∧ Instr.wf .w4 (.crcAppend [0] 0 0xFFFFFFFF) = true ∧
      Instr.wf .w2 (.writePayload [1, 2] 0 2) = true := by decide

/-! ## Decoding: codes and operands written out from 30_encoding.md R84 -/

theorem test_decode_cobs :
    decode ⟨0b00010000#8, [.bytes [0, 5, 9], .nat 1, .nat 0]⟩ = .ok (.cobsEncode [0, 5, 9] 1 0) ∧
    decode ⟨0b00010001#8, [.bytes [2, 5, 255], .nat 3, .nat 255]⟩ = .ok (.cobsDecode [2, 5, 255] 3 255) :=
  ⟨rfl, rfl⟩

theorem test_decode_crc :
    decode ⟨0b00100000#8, []⟩ = .ok .crcTableGen ∧
    decode ⟨0b00100001#8, [.bytes [1, 2, 3], .nat 1, .nat 2]⟩ = .ok (.crcCompute [1, 2, 3] 1 2) ∧
    decode ⟨0b00100010#8, [.bytes [1, 2, 3], .nat 1, .nat 0xF54E]⟩ = .ok (.crcAppend [1, 2, 3] 1 0xF54E) ∧
    decode ⟨0b00100011#8, [.bytes [1, 2, 3], .nat 1]⟩ = .ok (.crcExtract [1, 2, 3] 1) :=
  ⟨rfl, rfl, rfl, rfl⟩

theorem test_decode_staging :
    decode ⟨0b00110000#8, [.bytes [1, 2, 3], .nat 4, .nat 3]⟩ = .ok (.writePayload [1, 2, 3] 4 3) ∧
    decode ⟨0b00110001#8, [.nat 4, .nat 3]⟩ = .ok (.readPayload 4 3) ∧
    decode ⟨0b00110010#8, []⟩ = .ok .resetTx ∧
    decode ⟨0b00110011#8, []⟩ = .ok .resetRx :=
  ⟨rfl, rfl, rfl, rfl⟩

theorem test_decode_transfer :
    decode ⟨0b00110100#8, []⟩ = .ok .send ∧
    decode ⟨0b00110101#8, []⟩ = .ok .receive ∧
    decode ⟨0b00110110#8, []⟩ = .ok .bytesInTx ∧
    decode ⟨0b00110111#8, []⟩ = .ok .bytesInRx ∧
    decode ⟨0b00111000#8, []⟩ = .ok .getMaxTxPayload ∧
    decode ⟨0b00111001#8, []⟩ = .ok .getMaxRxPayload ∧
    decode ⟨0b00111010#8, []⟩ = .ok .getTxBufferSize ∧
    decode ⟨0b00111011#8, []⟩ = .ok .getRxBufferSize :=
  ⟨rfl, rfl, rfl, rfl, rfl, rfl, rfl, rfl⟩

theorem test_decode_rejects :
    decode ⟨0b00010010#8, []⟩ = .error (.noSuchOperation 0x12) ∧
    decode ⟨0b00111100#8, []⟩ = .error (.noSuchOperation 0x3C) ∧
    decode ⟨0b00110001#8, [.bytes [1], .nat 3]⟩ = .error (.operandKinds 0x31) ∧
    decode ⟨0b00010000#8, [.bytes [0, 5, 9], .nat 1, .nat 256]⟩ = .error (.operandKinds 0x10) :=
  ⟨rfl, rfl, rfl, rfl⟩

/-- Every row of the operation map runs as the first operation after reset. -/
theorem test_every_row_runs_after_reset :
    ([0x10, 0x11, 0x20, 0x21, 0x22, 0x23, 0x30, 0x31, 0x32, 0x33, 0x34, 0x35, 0x36, 0x37, 0x38, 0x39, 0x3A,
      0x3B].all fun w => goesOn (step (State.reset.withFetchWord 8 w))) = true := by decide +kernel

/-! ## One operation each, on vectors of 95_test_vectors.md -/

/-- S1 -/
theorem test_cobsEncode_s1 :
    answers (.cobsEncode [0, 10, 0, 0, 20, 0, 0, 0, 143, 12, 54, 238] 10 0) (State.construct c8) (fun t =>
      returned t true 12 .payloadEncoded && t.buf.toBytes == [2, 10, 1, 2, 20, 1, 1, 4, 143, 12, 54, 0]) = true := by
  decide +kernel

/-- V-E12 -/
theorem test_cobsEncode_distance_equals_delimiter :
    answers (.cobsEncode [0, 2, 5, 238] 2 2) (State.construct c8) (fun t => t.buf.toBytes == [1, 2, 5, 2]) = true := by
  decide +kernel

/-- V-D6 -/
theorem test_cobsDecode_partial_rewrite :
    answers (.cobsDecode [2, 9, 1, 7, 0] 5 0) (State.construct c8) (fun t =>
      returned t false 0 .delimiterNotFound && t.buf.toBytes == [0, 9, 0, 0, 0]) = true := by decide +kernel

/-- V-D12: the zero jump. -/
theorem test_cobsDecode_zero_jump :
    answers (.cobsDecode [2, 7, 0, 3] 4 3) (State.construct c8) (fun t =>
      returned t false 0 .delimiterTooEarly && t.buf.toBytes == [0, 7, 3, 3]) = true := by decide +kernel

/-- V-C1, the CRC-16 and CRC-32 sets -/
theorem test_crcTableGen_entries :
    answers .crcTableGen (State.latched Config.typical) (fun t =>
      t.crcTable[127] == 0x8F78 && t.crcTable[128] == 0x9188 && t.crcTable[255] == 0x1EF0) = true ∧
    answers .crcTableGen (State.latched c32) (fun t =>
      t.crcTable[3] == 0x0D4326D9 && t.crcTable[255] == 0xB1F740B4) = true := by decide +kernel

/-- V-C8a: the bytes of "123456789" with CRC-16 and CRC-8 -/
theorem test_crcCompute_check_values :
    answers (.crcCompute [49, 50, 51, 52, 53, 54, 55, 56, 57] 0 9) State.reset (fun t =>
      returned t true 0x29B1 .checksumComputed) = true ∧
    answers (.crcCompute [49, 50, 51, 52, 53, 54, 55, 56, 57] 0 9) (State.construct c8) (fun t =>
      returned t true 0xF4 .checksumComputed) = true := by decide +kernel

/-- V-C8b: past the end, even with `len = 0` -/
theorem test_crcCompute_past_end :
    answers (.crcCompute [1, 2, 3, 4, 5, 21] 7 0) State.reset (fun t =>
      returned t false 0 .computeBufferTooSmall) = true := by decide +kernel

/-- V-C13 -/
theorem test_crcAppend_most_significant_first :
    answers (.crcAppend [9, 9, 9, 9, 9] 1 0x01020304) (State.construct c32) (fun t =>
      returned t true 5 .checksumAppended && t.buf.toBytes == [9, 1, 2, 3, 4]) = true := by decide +kernel

/-- V-C12: `start` past the end -/
theorem test_crcAppend_start_past_end :
    answers (.crcAppend [9, 9, 9, 9] 5 1) State.reset (fun t =>
      returned t false 0 .appendBufferTooSmall && t.buf.toBytes == [9, 9, 9, 9]) = true := by decide +kernel

/-- V-C14 -/
theorem test_crcExtract_most_significant_first :
    answers (.crcExtract [9, 1, 2, 3, 4] 1) (State.construct c32) (fun t =>
      returned t true 0x01020304 .checksumExtracted) = true ∧
    answers (.crcExtract [9, 1, 2, 3, 4] 2) (State.construct c32) (fun t =>
      returned t false 0 .extractBufferTooSmall) = true := by decide +kernel

/-- V-B1 -/
theorem test_writePayload_leaves_gap :
    answers (.writePayload [170, 187] 2 2) (State.construct c8) (fun t =>
      returned t true 4 .payloadWritten && t.txFilled == 4 &&
        t.txBuf.toBytes == [0, 0, 0, 170, 187, 0, 0, 0, 0, 0, 0]) = true := by decide +kernel

/-- V-B4 -/
theorem test_writePayload_past_capacity :
    answers (.writePayload [1, 2] 7 2) (State.construct c8) (fun t =>
      returned t false 0 .writePayloadTooSmall && t.txFilled == 0 && t.tx == []) = true := by decide +kernel

/-- 42_buffer_ops.md R143, on three payload bytes -/
theorem test_readPayload_delivers :
    answers (.readPayload 1 2) { State.construct small with rx := [(1, 9), (3, 7)], rxFilled := 3 } (fun t =>
      returned t true 3 .payloadRead && t.dst == [0, 7]) = true := by decide +kernel

/-- V-B8 -/
theorem test_readPayload_from_reset :
    answers (.readPayload 0 1) (State.construct c8) (fun t =>
      returned t false 0 .readPayloadTooSmall && t.dst == []) = true := by decide +kernel

/-- R145, R146: only the tracker and index 0 -/
theorem test_resets :
    answers .resetTx { staged with tx := [(0, 4), (1, 9)] } (fun t =>
      returned t true 0 .transferStandby && t.txFilled == 0 && t.tx == [(1, 9)]) = true ∧
    answers .resetRx { staged with rx := [(0, 4), (1, 9)], rxFilled := 2 } (fun t =>
      returned t true 0 .transferStandby && t.rxFilled == 0 && t.rx == [(1, 9)] && t.txFilled == 3) = true := by
  decide +kernel

/-- V-S7 -/
theorem test_send_fills_buffer :
    answers .send staged (fun t =>
      returned t true 0 .packetSent && t.outbound == [129, 3, 2, 9, 2, 7, 0, 81, 15] && t.txFilled == 0 &&
        t.txBuf.toBytes == [0, 9, 2, 7, 0, 81, 15]) = true := by decide +kernel

/-- V-S4 -/
theorem test_send_nothing_staged :
    answers .send (State.construct small) (fun t =>
      returned t false 0 .encodePayloadTooSmall && t.outbound == [] && t.cobsStatus.code == 12 &&
        t.xferStatus.code == 12) = true := by decide +kernel

/-- V-R10a, with a garbage byte before and one byte after -/
theorem test_receive_accepts :
    answers .receive (online small [7, 129, 2, 9, 2, 7, 0, 81, 15, 99] []) (fun t =>
      returned t true 0 .packetReceived && t.rxFilled == 3 && t.rxBuf.toBytes == [0, 9, 0, 7, 0, 81, 15] &&
        t.inbound == [99] && t.cobsStatus.code == 23 && t.crcStatus.code == 53) = true := by decide +kernel

/-- V-R8a (a stall right after the start byte) and V-R12 (the first byte is the delimiter) -/
theorem test_receive_failures :
    answers .receive (online small [129] (quiet 1 ++ [stall, ⟨0, [4]⟩])) (fun t =>
      returned t false 0 .packetTimeout && t.rx == [] && t.inbound == [] && t.arrivals == [⟨0, [4]⟩] &&
        t.now == 20000) = true ∧
    answers .receive (online small [129, 0, 225, 240] []) (fun t =>
      returned t false 0 .decodePacketTooSmall && t.rxBuf.slice 0 3 == [0, 225, 240] &&
        t.crcStatus.code == 53) = true := by decide +kernel

/-- R226: bytes still to arrive are not in the FIFO; they are there once they have arrived. -/
theorem test_bytes_available :
    let p := (online small [] [⟨1000000, [7]⟩]).port
    bytesAvailable p = 0 ∧ tryReadByte p = ⟨none, p⟩ ∧ bytesAvailable p.pass = 1 ∧
      tryReadByte p.pass = ⟨some 7, ⟨[], 1000000, []⟩⟩ := by decide

/-- R202, the row of code 17 -/
theorem test_kind_by_operation :
    Status.decodePacketTooSmall.kinds .cobsDecode = [.usage] ∧
      Status.decodePacketTooSmall.kinds .receive = [.integrity] := by decide

/-- V-B10 -/
theorem test_getters :
    ([.bytesInTx, .bytesInRx, .getMaxTxPayload, .getMaxRxPayload, .getTxBufferSize, .getRxBufferSize].map fun i =>
      match exec i (State.construct c8) with
      | .next t => t.okValue
      | _ => none) = [some 0, some 0, some 8, some 8, some 11, some 11] := by decide +kernel

/-! ## Witnesses: the hypotheses of each obligation can be met together

A theorem `witness_<Name>` shows, at concrete values, the hypotheses of `Obligations.<Name>`; where a
statement has several clauses, those of each clause at a boundary value. -/

theorem witness_DecodeInvertsEncode : decode ⟨0x36, []⟩ = .ok .bytesInTx := rfl

theorem witness_ReservedCodeIsRefused :
    (0x12 : Byte) ∉ ([0x10, 0x11, 0x20, 0x21, 0x22, 0x23, 0x30, 0x31, 0x32, 0x33, 0x34, 0x35, 0x36, 0x37, 0x38, 0x39,
      0x3A, 0x3B] : List Byte) ∧
    (State.construct small).cfg.legal = true ∧
    { State.construct small with commands := [⟨.host, ⟨0x12, []⟩⟩] }.commands = ⟨.host, ⟨0x12, []⟩⟩ :: [] :=
  ⟨by decide, by decide, rfl⟩

theorem witness_StepRunsDecodedOperation :
    (State.construct small).cfg.legal = true ∧ (State.construct small).commands = [] ∧
    { State.construct small with commands := [⟨.host, ⟨0x36, []⟩⟩] }.commands = ⟨.host, ⟨0x36, []⟩⟩ :: [] ∧
    decode ⟨0x36, []⟩ = .ok .bytesInTx ∧ mayIssue .host Instr.bytesInTx.opcode = true :=
  ⟨by decide, rfl, rfl, rfl, rfl⟩

theorem witness_IllegalConfigurationIsRefused :
    ∀ cfg ∈ [{ small with maxTxPayload := 255 }, { small with maxRxPayload := 0 }, { c8 with polynomial := 0x107 }],
      ¬ (1 ≤ cfg.maxTxPayload ∧ cfg.maxTxPayload ≤ 254 ∧ 1 ≤ cfg.maxRxPayload ∧ cfg.maxRxPayload ≤ 254 ∧
        cfg.polynomial.toNat < 2 ^ (8 * cfg.width.bytes) ∧ cfg.initialValue.toNat < 2 ^ (8 * cfg.width.bytes) ∧
        cfg.finalXor.toNat < 2 ^ (8 * cfg.width.bytes)) ∧
      { State.construct small with cfg := cfg }.cfg = cfg := by decide +kernel

theorem witness_TableGenIssuedByResetOnly :
    (State.latched small).cfg.legal = true ∧ (State.latched small).commands = ⟨.reset, encode .crcTableGen⟩ :: [] ∧
    { State.construct small with commands := [⟨.host, encode .crcTableGen⟩] }.commands =
      ⟨.host, encode .crcTableGen⟩ :: [] ∧
    Instr.bytesInRx ≠ .crcTableGen ∧
    { State.construct small with commands := [⟨.host, encode .bytesInRx⟩] }.commands = ⟨.host, encode .bytesInRx⟩ :: [] :=
  ⟨by decide, rfl, rfl, by decide, rfl⟩

theorem witness_OnlyIllFormedOperandsAreRefused :
    ([1, 2] : List Byte).length < 3 ∧ 2 ^ (8 * (State.construct c8).cfg.width.bytes) ≤ (0x100 : Word).toNat ∧
    Instr.wf (State.construct c8).cfg.width (.crcAppend [] 0 0xFF) = true := by decide

theorem witness_ConstructionRunsTableGen : small.legal = true ∧ c8.legal = true ∧ c32.legal = true := by decide

theorem witness_ResetMeetsInvariant :
    { Config.typical with maxTxPayload := 1, maxRxPayload := 254 }.legal = true := by decide

/-- A state of the invariant with a payload staged. -/
theorem witness_EveryStepIsSafe : staged.Inv where
  legal := by decide
  txWf := by decide
  rxWf := by decide
  bufWf := by decide
  txFilledLe := by decide
  rxFilledLe := by decide
  txOverhead := by decide
  table := rfl
  cobsLayer := rfl
  crcLayer := rfl
  fsmIdle := rfl
  bytesReadLe := by decide
  tLastLe := by decide

theorem witness_EveryOperationAnswers :
    staged.Inv ∧ Instr.wf staged.cfg.width (.crcAppend [0, 0] 0 0xFFFF) = true ∧
      Instr.wf staged.cfg.width .send = true :=
  ⟨witness_EveryStepIsSafe, by decide, rfl⟩

theorem witness_EncodePreconditions :
    (254 < 255) ∧ (1 ≤ 254 ∧ 254 ≤ 254 ∧ (List.replicate 255 (0 : Byte)).length < 254 + 2) ∧
    (1 ≤ 1 ∧ 1 ≤ 254 ∧ 1 + 2 ≤ ([3, 5, 0] : List Byte).length ∧ ([3, 5, 0] : List Byte).getD 0 0 ≠ 0) ∧
    (1 ≤ 1 ∧ 1 ≤ 254 ∧ 1 + 2 ≤ ([0, 5, 9] : List Byte).length ∧ ([0, 5, 9] : List Byte).getD 0 0 = 0) := by decide +kernel

theorem witness_EncodeBuildsPacket :
    1 ≤ 2 ∧ 2 ≤ 254 ∧ 2 + 2 ≤ ([0, 1, 0, 9] : List Byte).length ∧ ([0, 1, 0, 9] : List Byte).getD 0 0 = 0 ∧
    1 ≤ 254 ∧ 254 + 2 ≤ (List.replicate 256 (0 : Byte)).length ∧ (List.replicate 256 (0 : Byte)).getD 0 0 = 0 := by decide +kernel

theorem witness_DecodePreconditions :
    (2 < 3) ∧ (256 < 257) ∧ (3 ≤ 256 ∧ 256 ≤ 256 ∧ (List.replicate 255 (1 : Byte)).length < 256) ∧
    (3 ≤ 3 ∧ 3 ≤ 256 ∧ 3 ≤ ([0, 5, 0] : List Byte).length ∧ ([0, 5, 0] : List Byte).getD 0 0 = 0) := by decide +kernel

theorem witness_DecodeFollowsTheLoop :
    3 ≤ 5 ∧ 5 ≤ 256 ∧ 5 ≤ ([2, 9, 1, 7, 0] : List Byte).length ∧ ([2, 9, 1, 7, 0] : List Byte).getD 0 0 ≠ 0 := by decide

theorem witness_DecodeMarksTheBuffer :
    3 ≤ 3 ∧ 3 ≤ 256 ∧ 3 ≤ ([2, 5, 0, 99] : List Byte).length ∧ ([2, 5, 0, 99] : List Byte).getD 0 0 ≠ 0 := by decide

theorem witness_EncodeTwiceFails :
    answers (.cobsEncode [0, 2, 5, 238] 2 2) staged (fun t =>
      decide (t.result = some ⟨true, 2 + 2, some .payloadEncoded⟩)) = true := by decide +kernel

theorem witness_RoundTripIffNoDelimiterInside :
    1 ≤ ([2, 5] : List Byte).length ∧ ([2, 5] : List Byte).length ≤ 254 ∧
    1 ≤ (List.replicate 254 (7 : Byte)).length ∧ (List.replicate 254 (7 : Byte)).length ≤ 254 := by decide +kernel

theorem witness_ZeroDelimiterRoundTrip :
    1 ≤ 1 ∧ 1 ≤ 254 ∧ 1 + 2 ≤ ([0, 0, 7] : List Byte).length ∧ ([0, 0, 7] : List Byte).getD 0 0 = 0 := by decide

theorem witness_CrcComputeOfRange :
    6 + 0 ≤ ([1, 2, 3, 4, 5, 21] : List Byte).length ∧ ([1, 2, 3, 4, 5, 21] : List Byte).length < 7 + 0 := by decide

theorem witness_TableDrivenIsBitSerial : c8.legal = true ∧ c32.legal = true := by decide

theorem witness_AppendedCrcChecksToZero :
    staged.cfg.legal = true ∧ staged.crcTable = crcTable staged.cfg.width staged.cfg.polynomial ∧
    staged.cfg.finalXor = 0 ∧ 0 + 6 + staged.cfg.width.bytes ≤ ([1, 2, 3, 4, 5, 21, 0, 0] : List Byte).length :=
  ⟨by decide, rfl, rfl, by decide⟩

theorem witness_OneChangedByteChangesTheCrc :
    small.legal = true ∧ small.polynomial.getLsbD 0 = true ∧ 2 < ([1, 2, 3] : List Byte).length ∧
    (4 : Byte) ≠ ([1, 2, 3] : List Byte).getD 2 0 := by decide

theorem witness_CrcAppendMostSignificantFirst :
    (0xFFFF : Word).toNat < 2 ^ (8 * staged.cfg.width.bytes) ∧
    2 + staged.cfg.width.bytes ≤ ([9, 9, 9, 9] : List Byte).length ∧
    ([9, 9, 9, 9] : List Byte).length < 3 + staged.cfg.width.bytes := by decide

theorem witness_CrcExtractReadsNumber :
    0 + staged.cfg.width.bytes ≤ ([245, 78] : List Byte).length ∧
    ([1, 245] : List Byte).length < 1 + staged.cfg.width.bytes := by decide

theorem witness_ExtractInvertsAppend :
    2 + staged.cfg.width.bytes ≤ ([9, 9, 9, 9] : List Byte).length ∧
    (0xABCD : Word).toNat < 2 ^ (8 * staged.cfg.width.bytes) := by decide

theorem witness_WritePayloadEffect :
    (1 ≤ ([5] : List Byte).length ∧ 2 + 1 ≤ staged.cfg.maxTxPayload) ∧
    (1 ≤ ([5] : List Byte).length ∧ staged.cfg.maxTxPayload < 3 + 1) ∧ 10 ≤ { small with maxTxPayload := 10 }.maxTxPayload := by
  decide

theorem witness_ReadPayloadEffect :
    (1 + 2 ≤ { staged with rxFilled := 3 }.rxFilled ∧
      { staged with rxFilled := 3 }.rxFilled ≤ { staged with rxFilled := 3 }.cfg.maxRxPayload) ∧
    staged.rxFilled < 0 + 1 ∧
    (0 + 9 ≤ { staged with rxFilled := 9 }.rxFilled ∧ { staged with rxFilled := 9 }.rxBuf.size < 0 + 1 + 9) := by decide

theorem witness_SendTransmitsFrame : staged.Inv ∧ 1 ≤ staged.txFilled := ⟨witness_EveryStepIsSafe, by decide⟩

theorem witness_SendOutcomes :
    (staged.Inv ∧ 1 ≤ staged.txFilled) ∧ (State.construct small).txFilled = 0 ∧
    answers .send { staged with tx := [(0, 1)] } (fun t =>
      decide (t.result = some ⟨false, 0, some .encodeAlreadyEncoded⟩)) = true :=
  ⟨⟨witness_EveryStepIsSafe, by decide⟩, rfl, by decide +kernel⟩

theorem witness_SequencerFollowsTheTable :
    answers .receive (State.construct small) (fun t => decide (t.fsm = .idle)) = true := by decide +kernel

/-- The stream of V-R10a with two garbage bytes before and one byte after; the line pauses for just less than
TIMEOUT_US inside the packet. -/
theorem witness_ReceiveAcceptsFrame :
    let s := online small [7, 0, 129, 2, 9] (quiet 5 ++ [⟨19999, []⟩, ⟨0, [2, 7, 0, 81, 15, 99]⟩])
    s.cfg.startByte ∉ ([7, 0] : List Byte) ∧ s.cfg.delimiterByte ∉ ([2, 9, 2, 7] : List Byte) ∧
    ([2, 9, 2, 7] : List Byte).length + 1 ≤ s.cfg.maxRxPayload + 2 ∧
    ([81, 15] : List Byte).length = s.cfg.width.bytes ∧
    ∃ m, Available s.port ([7, 0] ++ [s.cfg.startByte]) m ∧
      Trickles s.cfg.timeoutUs m.now m ([2, 9, 2, 7] ++ [s.cfg.delimiterByte] ++ [81, 15]) ⟨[99], 19999, []⟩ ∧
      crcOver s.cfg s.crcTable ([2, 9, 2, 7] ++ [s.cfg.delimiterByte] ++ [81, 15]) = 0 ∧
      decodeBytes ([2, 9, 2, 7] ++ [s.cfg.delimiterByte]) s.cfg.delimiterByte = some [9, 0, 7] :=
  ⟨by decide, by decide, by decide, by decide, _, .byte rfl (.byte rfl (.byte rfl .done)),
    .byte rfl (.byte rfl (.wait (by decide) rfl (by decide)
      (.byte rfl (.byte rfl (.byte rfl (.byte rfl (.byte rfl .done))))))),
    by decide +kernel, by decide +kernel⟩

theorem witness_ReceiveOutcomes : (State.construct small).cfg.legal = true := by decide

/-- The FIFO runs empty behind two bytes; a third arrives too late for the scan. -/
theorem witness_DrainedStreamReported :
    let s := online small [1, 2] (quiet 3 ++ [⟨0, [3]⟩])
    s.cfg.startByte ∉ ([1, 2] : List Byte) ∧
    ∃ m : Port, Available s.port [1, 2] m ∧ m.poll.byte = none :=
  ⟨by decide, _, .byte rfl (.byte rfl .done), rfl⟩

/-- V-R8 -/
theorem witness_SilentPacketTimesOut :
    let s := online small [129, 4, 1, 2] (quiet 4 ++ [stall, ⟨0, [3]⟩])
    s.cfg.startByte ∉ ([] : List Byte) ∧ s.cfg.delimiterByte ∉ ([4, 1, 2] : List Byte) ∧
    ([4, 1, 2] : List Byte).length < s.cfg.maxRxPayload + 2 ∧
    ∃ a m, Available s.port ([] ++ [s.cfg.startByte]) a ∧ Trickles s.cfg.timeoutUs a.now a [4, 1, 2] m ∧
      Silent s.cfg.timeoutUs m.now m ⟨[], 20000, [⟨0, [3]⟩]⟩ :=
  ⟨by decide, by decide, by decide, _, _, .byte rfl .done, .byte rfl (.byte rfl (.byte rfl .done)),
    .out rfl (by decide)⟩

/-- V-R10 -/
theorem witness_OverlongPacketRunsOutOfSpace :
    let s := online small [129, 6, 1, 2, 3, 4, 5, 0, 1, 2] []
    s.cfg.startByte ∉ ([] : List Byte) ∧ s.cfg.delimiterByte ∉ ([6, 1, 2, 3, 4] : List Byte) ∧
    ([6, 1, 2, 3, 4] : List Byte).length = s.cfg.maxRxPayload + 2 ∧
    ∃ m, Available s.port ([] ++ [s.cfg.startByte]) m ∧
      Trickles s.cfg.timeoutUs m.now m [6, 1, 2, 3, 4] ⟨[5, 0, 1, 2], 0, []⟩ :=
  ⟨by decide, by decide, by decide, _, .byte rfl .done,
    .byte rfl (.byte rfl (.byte rfl (.byte rfl (.byte rfl .done))))⟩

/-- V-R9, with nothing left to come -/
theorem witness_SilentPostambleTimesOut :
    let s := online small [129, 2, 5, 0, 18] []
    s.cfg.startByte ∉ ([] : List Byte) ∧ s.cfg.delimiterByte ∉ ([2, 5] : List Byte) ∧
    ([2, 5] : List Byte).length + 1 ≤ s.cfg.maxRxPayload + 2 ∧ ([18] : List Byte).length < s.cfg.width.bytes ∧
    ∃ a m r, Available s.port ([] ++ [s.cfg.startByte]) a ∧
      Trickles s.cfg.timeoutUs a.now a ([2, 5] ++ [s.cfg.delimiterByte] ++ [18]) m ∧
      Silent s.cfg.timeoutUs m.now m r :=
  ⟨by decide, by decide, by decide, by decide, _, _, _, .byte rfl .done,
    .byte rfl (.byte rfl (.byte rfl (.byte rfl .done))), .ended rfl rfl (by decide)⟩

/-- V-R10a with the last byte changed -/
theorem witness_CorruptFrameFailsCrc :
    let s := online small [129, 2, 9, 2, 7, 0, 81, 16] []
    s.cfg.startByte ∉ ([] : List Byte) ∧ s.cfg.delimiterByte ∉ ([2, 9, 2, 7] : List Byte) ∧
    ([2, 9, 2, 7] : List Byte).length + 1 ≤ s.cfg.maxRxPayload + 2 ∧
    ([81, 16] : List Byte).length = s.cfg.width.bytes ∧
    (∃ m r, Available s.port ([] ++ [s.cfg.startByte]) m ∧
      Trickles s.cfg.timeoutUs m.now m ([2, 9, 2, 7] ++ [s.cfg.delimiterByte] ++ [81, 16]) r) ∧
    crcOver s.cfg s.crcTable ([2, 9, 2, 7] ++ [s.cfg.delimiterByte] ++ [81, 16]) ≠ 0 :=
  ⟨by decide, by decide, by decide, by decide, ⟨_, _, .byte rfl .done,
    .byte rfl (.byte rfl (.byte rfl (.byte rfl (.byte rfl (.byte rfl (.byte rfl .done))))))⟩, by decide +kernel⟩

/-- V-R10a with a packet byte changed -/
theorem witness_DamagedFrameIsRejected :
    let s := online small [129, 2, 9, 3, 7, 0, 81, 15] []
    s.cfg.legal = true ∧ s.crcTable = crcTable s.cfg.width s.cfg.polynomial ∧ s.cfg.polynomial.getLsbD 0 = true ∧
    crcOver s.cfg s.crcTable ([2, 9, 2, 7] ++ [s.cfg.delimiterByte] ++ [81, 15]) = 0 ∧
    2 < ([2, 9, 2, 7] : List Byte).length + 1 + ([81, 15] : List Byte).length ∧
    (3 : Byte) ≠ ([2, 9, 2, 7] ++ [s.cfg.delimiterByte] ++ [81, 15]).getD 2 0 ∧
    [2, 9, 3, 7] ++ [s.cfg.delimiterByte] ++ [81, 15] =
      ([2, 9, 2, 7] ++ [s.cfg.delimiterByte] ++ [81, 15]).set 2 3 ∧
    s.cfg.startByte ∉ ([] : List Byte) ∧ s.cfg.delimiterByte ∉ ([2, 9, 3, 7] : List Byte) ∧
    ([2, 9, 2, 7] : List Byte).length + 1 ≤ s.cfg.maxRxPayload + 2 ∧
    ([81, 15] : List Byte).length = s.cfg.width.bytes ∧
    ∃ m r, Available s.port ([] ++ [s.cfg.startByte]) m ∧
      Trickles s.cfg.timeoutUs m.now m ([2, 9, 3, 7] ++ [s.cfg.delimiterByte] ++ [81, 15]) r :=
  ⟨by decide, rfl, by decide, by decide +kernel, by decide, by decide, by decide, by decide, by decide, by decide,
    by decide, _, _, .byte rfl .done,
    .byte rfl (.byte rfl (.byte rfl (.byte rfl (.byte rfl (.byte rfl (.byte rfl .done))))))⟩

/-- The packet `[5,1,2,0]`, whose overhead byte points past its end (40_cobs.md R107), with its CRC. -/
theorem witness_UndecodablePacketSurfaced :
    let s := online small [129, 5, 1, 2, 0, 105, 215] []
    s.cfg.startByte ∉ ([] : List Byte) ∧ s.cfg.delimiterByte ∉ ([5, 1, 2] : List Byte) ∧
    ([5, 1, 2] : List Byte).length + 1 ≤ s.cfg.maxRxPayload + 2 ∧ ([105, 215] : List Byte).length = s.cfg.width.bytes ∧
    (∃ m r, Available s.port ([] ++ [s.cfg.startByte]) m ∧
      Trickles s.cfg.timeoutUs m.now m ([5, 1, 2] ++ [s.cfg.delimiterByte] ++ [105, 215]) r) ∧
    crcOver s.cfg s.crcTable ([5, 1, 2] ++ [s.cfg.delimiterByte] ++ [105, 215]) = 0 ∧
    decodeBytes ([5, 1, 2] ++ [s.cfg.delimiterByte]) s.cfg.delimiterByte = none :=
  ⟨by decide, by decide, by decide, by decide, ⟨_, _, .byte rfl .done,
    .byte rfl (.byte rfl (.byte rfl (.byte rfl (.byte rfl (.byte rfl .done)))))⟩, by decide +kernel, by decide +kernel⟩

/-- The packet `[7,0]` with its CRC: the boundary of the clause about packets too short to decode. -/
theorem witness_UndecodablePacketSurfaced_short :
    let s := online small [129, 7, 0, 132, 152] []
    s.cfg.startByte ∉ ([] : List Byte) ∧ s.cfg.delimiterByte ∉ ([7] : List Byte) ∧
    ([7] : List Byte).length + 1 ≤ s.cfg.maxRxPayload + 2 ∧ ([132, 152] : List Byte).length = s.cfg.width.bytes ∧
    (∃ m r, Available s.port ([] ++ [s.cfg.startByte]) m ∧
      Trickles s.cfg.timeoutUs m.now m ([7] ++ [s.cfg.delimiterByte] ++ [132, 152]) r) ∧
    crcOver s.cfg s.crcTable ([7] ++ [s.cfg.delimiterByte] ++ [132, 152]) = 0 ∧
    decodeBytes ([7] ++ [s.cfg.delimiterByte]) s.cfg.delimiterByte = none ∧ ([7] : List Byte).length < 2 :=
  ⟨by decide, by decide, by decide, by decide, ⟨_, _, .byte rfl .done,
    .byte rfl (.byte rfl (.byte rfl (.byte rfl .done)))⟩, by decide +kernel, by decide +kernel, by decide⟩

theorem witness_AwaitByteRule :
    (⟨[9], 30000, []⟩ : Port).poll.byte = some 9 ∧
    ((⟨[], 0, [⟨19999, []⟩]⟩ : Port).poll.byte = none ∧ (⟨[], 0, [⟨19999, []⟩]⟩ : Port).poll.port.now - 0 < 20000 ∧
      (⟨[], 0, [⟨19999, []⟩]⟩ : Port).arrivals ≠ []) ∧
    ((⟨[], 19999, []⟩ : Port).poll.byte = none ∧ (⟨[], 19999, []⟩ : Port).poll.port.now - 0 < 20000 ∧
      (⟨[], 19999, []⟩ : Port).arrivals = []) ∧
    ((⟨[], 0, [stall]⟩ : Port).poll.byte = none ∧ 20000 ≤ (⟨[], 0, [stall]⟩ : Port).poll.port.now - 0) ∧
    (awaitByte 20000 0 ⟨[], 0, []⟩).byte = none := by decide

/-- V-S7 against V-R10a: the sender is `staged`, the receiver the same engine with the frame inbound. -/
theorem witness_SentPayloadIsReceived :
    let b : State := { staged with inbound := [7, 129, 2, 9, 2, 7, 0, 81, 15] }
    ∃ (t : State) (m r : Port), exec .send staged = .next t ∧ staged.Inv ∧ b.Inv ∧
      staged.cfg.finalXor = 0 ∧ staged.cfg.delimiterByte = 0 ∧ 1 ≤ staged.txFilled ∧
      staged.txFilled ≤ staged.cfg.maxRxPayload ∧ b.cfg.startByte ∉ ([7] : List Byte) ∧
      Available b.port ([7] ++ [b.cfg.startByte]) m ∧
      Trickles b.cfg.timeoutUs m.now m (t.outbound.drop (staged.outbound.length + 2)) r := by
  have h : (match exec .send staged with
    | .next t => t.outbound.drop (staged.outbound.length + 2)
    | _ => []) = [2, 9, 2, 7, 0, 81, 15] := by decide +kernel
  exact ⟨_, _, ⟨[], 0, []⟩, rfl, witness_EveryStepIsSafe, { witness_EveryStepIsSafe with }, rfl, rfl, by decide,
    by decide, by decide, .byte rfl (.byte rfl .done), (congrArg (Trickles _ _ _ · _) h).mpr
      (.byte rfl (.byte rfl (.byte rfl (.byte rfl (.byte rfl (.byte rfl (.byte rfl .done)))))))⟩

theorem witness_ConfigurationIsImmutable :
    answers .receive staged (fun _ => true) = true ∧ Instr.receive ≠ .crcTableGen := ⟨by decide +kernel, by decide⟩

theorem witness_SpacesHaveTheirWriters :
    answers .bytesInTx staged (fun _ => true) = true ∧
    Instr.bytesInTx.opcode ∉ ([.writePayload, .resetTx, .send] : List Opcode) ∧
    Instr.bytesInTx.opcode ∉ ([.receive, .resetRx] : List Opcode) ∧ Instr.bytesInTx.opcode ≠ .receive ∧
    Instr.bytesInTx.opcode ≠ .send ∧
    Instr.bytesInTx.opcode ∉ ([.cobsEncode, .cobsDecode, .crcCompute, .crcAppend, .crcExtract] : List Opcode) ∧
    Instr.bytesInTx.opcode ≠ .readPayload := ⟨rfl, by decide, by decide, by decide, by decide, by decide, by decide⟩

theorem witness_StatusRegistersHaveTheirWriters :
    answers .bytesInTx staged (fun _ => true) = true ∧
    Instr.bytesInTx.opcode ∉ ([.cobsEncode, .cobsDecode, .send, .receive] : List Opcode) ∧
    Instr.bytesInTx.opcode ∉ ([.crcCompute, .crcAppend, .crcExtract, .send, .receive] : List Opcode) ∧
    Instr.bytesInTx.opcode ∉ ([.writePayload, .readPayload, .resetTx, .resetRx, .send, .receive] : List Opcode) :=
  ⟨rfl, by decide, by decide, by decide⟩

/-- The two states differ in every register the statement names; SEND goes on, the write is refused, and a
read past `rx` stops. -/
theorem witness_NothingReadsTheStatusRegisters :
    let s : State := { staged with rxFilled := 9 }
    SameBehind s { s with cobsStatus := .delimiterNotFound, crcStatus := .checksumAppended,
                          xferStatus := .packetTimeout, bytesRead := 4, tLast := 1, buf := ⟨1, [(0, 3)]⟩,
                          dst := [1], result := some ⟨true, 0, none⟩ } ∧
    answers .send s (fun _ => true) = true ∧ refuses (exec (.writePayload [] 0 1) s) .sourceTooShort = true ∧
    exec (.readPayload 0 9) s = .fault .bufferIndexOutOfRange :=
  ⟨rfl, by decide +kernel, by decide +kernel, rfl⟩

theorem witness_FailuresReturnTheTriple :
    answers .send (State.construct small) (fun t => decide (t.result = some ⟨false, 0, some .encodePayloadTooSmall⟩)) = true ∧
    answers .bytesInTx staged (fun t => decide (t.result = some ⟨true, 3, none⟩)) = true :=
  ⟨by decide +kernel, by decide +kernel⟩

theorem witness_StatusCodesAreDisjoint :
    Status.delimiterNotFound.code = Status.delimiterNotFound.code ∧ Status.delimiterNotFound.layer = .cobs ∧
    Status.crcStandby.layer = .crc ∧ Status.payloadRead.layer = .transfer := ⟨rfl, rfl, rfl, rfl⟩

theorem witness_TxFilledOnlyDropsToZero :
    answers .send staged (fun t => decide (t.txFilled < staged.txFilled)) = true := by decide +kernel

theorem witness_RxFilledOnlyFromReceive :
    answers .receive (online small [129, 2, 9, 2, 7, 0, 81, 15] []) (fun t => decide (t.rxFilled ≠ 0)) = true ∧
    answers .resetRx { staged with rxFilled := 3 } (fun t => decide (t.rxFilled ≠ 3)) = true :=
  ⟨by decide +kernel, by decide +kernel⟩

theorem witness_StreamPortContract :
    (tryReadByte ⟨[], 0, [⟨5, [9]⟩]⟩).byte = none ∧ (tryReadByte ⟨[7, 8], 0, []⟩).byte = some 7 := by decide

/-- A RECEIVE that fails with `D = 0`: V-R12. -/
theorem witness_FailuresHaveTheirRaisers :
    State.Inv { staged with inbound := [129, 0, 225, 240] } ∧ staged.cfg.delimiterByte = 0 ∧
    answers .receive { staged with inbound := [129, 0, 225, 240] } (fun t =>
      decide (t.result = some ⟨false, 0, some .decodePacketTooSmall⟩)) = true :=
  ⟨{ witness_EveryStepIsSafe with }, rfl, by decide +kernel⟩

end Sys2Proof.Tests
end

section
/-! SUPPORT. The packet COBS_ENCODE leaves (30_encoding.md R70): the codec's own spec lemma
`cobsEncode_ok`, carried through the operand buffer and the outcome. -/

namespace Sys2Proof.Machine

/-- COBS_ENCODE issued stand-alone reports the codec's answer on the buffer presented (R100). -/
theorem exec_cobsEncode (buf : List Byte) (p : Nat) (d : Byte) (s : State) :
    exec (.cobsEncode buf p d) s = .next (s.report .cobs (cobsEncode (Buffer.ofBytes buf) p d)) := rfl

/-- A successful codec answer changes the operand buffer, `cobs_status` and the outcome only. -/
theorem State.report_cobs_success (s : State) (v : Nat) (st : Status) (b : Buffer) :
    s.report .cobs ⟨true, v, st, b⟩ =
      { s with buf := b, cobsStatus := st, result := some ⟨true, v, some st⟩ } := rfl

/-- The bytes of the buffer presented, as a function of the index. -/
theorem Buffer.get_ofBytes_eq (l : List Byte) : (Buffer.ofBytes l).get = fun j => l.getD j 0 :=
  funext (Buffer.get_ofBytes l)

/-- The preconditions of COBS_ENCODE on the buffer presented (R101). -/
theorem encodePre_ofBytes_iff {buf : List Byte} {p : Nat} :
    EncodePre (Buffer.ofBytes buf) p ↔ 1 ≤ p ∧ p ≤ 254 ∧ p + 2 ≤ buf.length ∧ buf.getD 0 0 = 0 := by
  simp only [EncodePre, Buffer.size_ofBytes, Buffer.get_ofBytes]

/-- A jump never leaves the packet, so its distance fits the byte it is stored in: at most `P + 1 ≤ 255`. -/
theorem NextStop.toNat_distance {f : Nat → Byte} {d : Byte} {p j k : Nat} (h : NextStop f d p j k)
    (hp : p ≤ 254) : (BitVec.ofNat 8 (k - j)).toNat = k - j := by
  obtain ⟨_, hk, _, _⟩ := h
  rw [BitVec.toNat_ofNat]
  exact Nat.mod_eq_of_lt (by omega)

/-- Settles O14: the preconditions hold, so the codec builds the packet of `cobsEncode_ok`; what is left
is that each stored distance, read as a number, is the distance itself. -/
theorem encodeBuildsPacket : Obligations.EncodeBuildsPacket := by
  unfold Obligations.EncodeBuildsPacket
  intro buf p d s hpos hle hlen hzero
  obtain ⟨b, hres, hsize, -, hdelim, ⟨k, hstop, hoverhead⟩, hjump, hkeep, hbehind⟩ :=
    cobsEncode_ok d (encodePre_ofBytes_iff.2 ⟨hpos, hle, hlen, hzero⟩)
  rw [Buffer.get_ofBytes_eq] at hstop hjump hkeep hbehind
  refine ⟨_, exec_cobsEncode buf p d s, ?_⟩
  rw [hres, State.report_cobs_success]
  refine ⟨rfl, ⟨_, rfl⟩, hsize, ⟨k, hstop, ?_⟩, fun j h1 h2 hd => ?_, hkeep, hdelim, hbehind⟩
  · rw [hoverhead]
    exact hstop.toNat_distance hle
  · obtain ⟨m, hm, hbyte⟩ := hjump j h1 h2 hd
    exact ⟨m, hm, by rw [hbyte]; exact hm.toNat_distance hle⟩

end Sys2Proof.Machine
end

section
/-! SUPPORT. COBS_DECODE against the unbounded loop of 40_cobs.md R107: the model's loop over fuel is a
run of that loop, and the operation hands the run's answer to the host. -/

namespace Sys2Proof.Machine

open Sys2Proof.Claims

/-- COBS_DECODE issued stand-alone reports the codec's answer on the buffer presented (R105). -/
theorem exec_cobsDecode (buf : List Byte) (l : Nat) (d : Byte) (s : State) :
    exec (.cobsDecode buf l d) s = .next (s.report .cobs (cobsDecode (Buffer.ofBytes buf) l d)) := rfl

/-- A codec answer whose failures carry the value 0 (R17) changes the operand buffer, `cobs_status` and
the outcome only. -/
theorem State.report_cobs_eq (s : State) {r : OpResult} (h : r.ok = false → r.value = 0) :
    s.report .cobs r = { s with buf := r.buf, cobsStatus := r.status,
                                result := some ⟨r.ok, r.value, some r.status⟩ } := by
  obtain ⟨ok, value, status, b⟩ := r
  cases ok with
  | true => rfl
  | false =>
    obtain rfl : value = 0 := h rfl
    rfl

/-- The preconditions of COBS_DECODE on the buffer presented (R106). -/
theorem decodePre_ofBytes_iff {buf : List Byte} {l : Nat} :
    DecodePre (Buffer.ofBytes buf) l ↔ 3 ≤ l ∧ l ≤ 256 ∧ l ≤ buf.length ∧ buf.getD 0 0 ≠ 0 := by
  simp only [DecodePre, Buffer.size_ofBytes, Buffer.get_ofBytes]

/-- A loop of R107 that fails answers the value 0. -/
theorem decodeLoop_value_of_failed {d : Byte} {l r n : Nat} {b : Buffer} {res : OpResult}
    (h : DecodeLoop d l r n b res) : res.ok = false → res.value = 0 := by
  induction h with
  | notFound _ => exact fun _ => rfl
  | success _ _ _ _ => exact fun hok => nomatch hok
  | tooEarly _ _ _ => exact fun _ => rfl
  | follow _ _ _ ih => exact ih

/-- With `L - r` iterations left, the model's loop is a run of the unbounded loop (R108): every jump
followed is at least 1, since a jump of 0 only stands where the byte read next is `d`, which ends it. -/
theorem decodeLoop_decodeChain (d : Byte) (l fuel r n : Nat) (b : Buffer) (hfuel : l ≤ r + fuel)
    (hzero : n = 0 → b.get r = d) : DecodeLoop d l r n b (decodeChain d l fuel r n b) := by
  induction fuel generalizing r n b with
  | zero => exact .notFound (by omega)
  | succ fuel ih =>
    rw [decodeChain_succ]
    by_cases hin : r + n < l
    · rw [if_pos hin]
      by_cases hd : b.get (r + n) = d
      · rw [if_pos hd]
        by_cases hend : r + n = l - 1
        · rw [if_pos hend]
          exact .success _ hin hd hend
        · rw [if_neg hend]
          exact .tooEarly hin hd hend
      · rw [if_neg hd]
        have hjump : n ≠ 0 := fun h => hd (by subst h; exact hzero rfl)
        exact .follow hin hd (ih _ _ _ (by omega) fun _ => by simp)
    · rw [if_neg hin]
      exact .notFound hin

/-- Past its preconditions COBS_DECODE is a run of the loop of R107 from `r = 0`, `n = buf[0]`, on the
buffer marked decoded. -/
theorem decodeLoop_cobsDecode {b : Buffer} {l : Nat} (d : Byte) (h : DecodePre b l) :
    DecodeLoop d l 0 (b.get 0).toNat (b.set 0 0) (cobsDecode b l d) := by
  rw [cobsDecode_of_pre d h]
  obtain ⟨-, -, -, hfirst⟩ := h
  exact decodeLoop_decodeChain _ _ _ _ _ _ (by omega)
    fun hn => absurd (BitVec.eq_of_toNat_eq hn) hfirst

/-- Settles O16: past the preconditions the codec's answer is the loop's, and reporting it changes
nothing but the operand buffer, `cobs_status` and the outcome. -/
theorem decodeFollowsTheLoop : Obligations.DecodeFollowsTheLoop := by
  unfold Obligations.DecodeFollowsTheLoop
  intro buf l d s hmin hmax hlen hfirst
  have hloop := decodeLoop_cobsDecode d (decodePre_ofBytes_iff.2 ⟨hmin, hmax, hlen, hfirst⟩)
  rw [Buffer.get_ofBytes] at hloop
  refine ⟨_, hloop, _, exec_cobsDecode buf l d s, ?_⟩
  rw [State.report_cobs_eq s (decodeLoop_value_of_failed hloop)]

end Sys2Proof.Machine
end

section
/-! SUPPORT. The encoder and the decoder of commands (30_encoding.md R82 to R85): the decoder reads back
what the encoder presents, and reads nothing else. -/

namespace Sys2Proof

/-- An operation's own operands are those it takes (R83, R84). -/
theorem takeOperands_operands (i : Instr) : takeOperands i.opcode i.operands = some i := by
  cases i with
  | cobsEncode buf p d => simp [Instr.opcode, Instr.operands, takeOperands]
  | cobsDecode buf l d => simp [Instr.opcode, Instr.operands, takeOperands]
  | crcAppend buf start crc => simp [Instr.opcode, Instr.operands, takeOperands]
  | _ => rfl

/-- Operands an operation takes are the operands of what it makes of them, and of no other operation. -/
theorem takeOperands_some {o : Opcode} {l : List Operand} {i : Instr} (h : takeOperands o l = some i) :
    o = i.opcode ∧ l = i.operands := by
  unfold takeOperands at h
  split at h
  case h_1 =>
    obtain ⟨d, hd, rfl⟩ := Option.map_eq_some_iff.1 h
    simp [Instr.opcode, Instr.operands, byteOperand_some hd]
  case h_2 =>
    obtain ⟨d, hd, rfl⟩ := Option.map_eq_some_iff.1 h
    simp [Instr.opcode, Instr.operands, byteOperand_some hd]
  case h_5 =>
    obtain ⟨c, hc, rfl⟩ := Option.map_eq_some_iff.1 h
    simp [Instr.opcode, Instr.operands, wordOperand_some hc]
  case h_19 => cases h
  all_goals
    cases h
    exact ⟨rfl, rfl⟩

/-- Decoding what the encoder presents gives the operation back. -/
theorem decode_encode (i : Instr) : decode (encode i) = .ok i :=
  decode_ok_iff.2 ⟨i.opcode, Opcode.ofCode_code _, takeOperands_operands i⟩

/-- A command that decodes is the encoder's. -/
theorem eq_encode_of_decode {c : Cmd} {i : Instr} (h : decode c = .ok i) : c = encode i := by
  obtain ⟨o, hcode, hops⟩ := decode_ok_iff.1 h
  obtain ⟨rfl, hl⟩ := takeOperands_some hops
  obtain ⟨op, l⟩ := c
  simp only at hcode hl
  rw [encode, Opcode.code_of_ofCode hcode, hl]

/-- The eighteen codes of the operation map (R84). -/
theorem Opcode.code_mem (o : Opcode) :
    o.code ∈ ([0x10, 0x11, 0x20, 0x21, 0x22, 0x23, 0x30, 0x31, 0x32, 0x33, 0x34, 0x35, 0x36, 0x37, 0x38, 0x39,
      0x3A, 0x3B] : List Byte) := by
  cases o <;> decide

/-- Settles O1: a command decodes exactly when its code is an operation's and its operands are the ones
that operation takes, and both determine the command. -/
theorem decodeInvertsEncode : Obligations.DecodeInvertsEncode :=
  ⟨decode_encode, fun _ _ => eq_encode_of_decode⟩

/-- Settles O3. -/
theorem tableWordsDecode : Obligations.TableWordsDecode := by
  unfold Obligations.TableWordsDecode
  rfl

end Sys2Proof
end

section
/-! SUPPORT. One step, case by case of what stands at the front of the queue (00_scope.md R2, R12), and
construction (70_reset_and_hazards.md R240). -/

namespace Sys2Proof.Machine

/-! ## The step -/

/-- The legal configurations, in numbers (00_scope.md R8). -/
theorem Config.legal_iff {cfg : Config} :
    cfg.legal = true ↔
      1 ≤ cfg.maxTxPayload ∧ cfg.maxTxPayload ≤ 254 ∧ 1 ≤ cfg.maxRxPayload ∧ cfg.maxRxPayload ≤ 254 ∧
        cfg.polynomial.toNat < 2 ^ (8 * cfg.width.bytes) ∧ cfg.initialValue.toNat < 2 ^ (8 * cfg.width.bytes) ∧
        cfg.finalXor.toNat < 2 ^ (8 * cfg.width.bytes) := by
  simp only [Config.legal, Bool.and_eq_true, decide_eq_true_eq, CrcWidth.fits_iff, CrcWidth.bits, and_assoc]

/-- A configuration that is none of this hardware is refused by every step (R10). -/
theorem step_of_illegal {s : State} (h : s.cfg.legal ≠ true) : step s = .refused .illegalConfiguration := by
  simp [step, fetch, h]

section Legal

variable {s : State} {q : Issue} {rest : List Issue} (hlegal : s.cfg.legal = true)
include hlegal

/-- On an empty queue the engine waits. -/
theorem step_of_empty (h : s.commands = []) : step s = .next s := by
  simp [step, fetch, hlegal, h]

/-- A command that decodes to no operation is refused by the decoder's name for it. -/
theorem step_of_decode_error {e : DecodeError} (h : s.commands = q :: rest) (hd : decode q.cmd = .error e) :
    step s = .refused (refusalOf e) := by
  simp [step, fetch, hlegal, h, fetchIssue, hd]

/-- An operation its issuer may not issue is refused (41_crc.md R122). -/
theorem step_of_not_issuable {i : Instr} (h : s.commands = q :: rest) (hd : decode q.cmd = .ok i)
    (hm : mayIssue q.issuer i.opcode = false) : step s = .refused .notIssuable := by
  simp [step, fetch, hlegal, h, fetchIssue, hd, hm]

/-- An operation its issuer may issue is executed, the command taken off the queue. -/
theorem step_of_issuable {i : Instr} (h : s.commands = q :: rest) (hd : decode q.cmd = .ok i)
    (hm : mayIssue q.issuer i.opcode = true) : step s = exec i { s with commands := rest } := by
  simp [step, fetch, hlegal, h, fetchIssue, hd, hm]

end Legal

/-- Only CRC_TABLE_GEN is kept from the host (R122). -/
theorem mayIssue_host {i : Instr} (h : i ≠ .crcTableGen) : mayIssue .host i.opcode = true := by
  cases i with
  | crcTableGen => exact absurd rfl h
  | _ => rfl

/-- Settles O2: a code that selected an operation would be one of the eighteen. -/
theorem reservedCodeIsRefused : Obligations.ReservedCodeIsRefused := by
  unfold Obligations.ReservedCodeIsRefused
  intro op l hop
  have hnone : Opcode.ofCode op = none :=
    Option.eq_none_iff_forall_ne_some.2 fun o ho => hop (Opcode.code_of_ofCode ho ▸ Opcode.code_mem o)
  have hdecode := decode_reserved hnone l
  exact ⟨hdecode, fun s who rest hlegal hc => step_of_decode_error hlegal hc hdecode⟩

/-- Settles O4. -/
theorem stepRunsDecodedOperation : Obligations.StepRunsDecodedOperation := by
  unfold Obligations.StepRunsDecodedOperation
  exact fun s hlegal => ⟨step_of_empty hlegal, fun q rest i => step_of_issuable hlegal⟩

/-- Settles O5. -/
theorem illegalConfigurationIsRefused : Obligations.IllegalConfigurationIsRefused := by
  unfold Obligations.IllegalConfigurationIsRefused
  intro cfg h
  rw [← Config.legal_iff] at h
  exact ⟨by simp [constructOrRefuse, h], fun s hs => step_of_illegal (hs ▸ h)⟩

/-- Settles O6: what decides is `mayIssue`, since what the encoder presents decodes. -/
theorem tableGenIssuedByResetOnly : Obligations.TableGenIssuedByResetOnly := by
  unfold Obligations.TableGenIssuedByResetOnly
  intro s rest hlegal
  exact ⟨fun hc => step_of_not_issuable hlegal hc (decode_encode _) rfl,
    fun hc => step_of_issuable hlegal hc (decode_encode _) rfl,
    fun i hi hc => step_of_issuable hlegal hc (decode_encode i) (mayIssue_host hi)⟩

/-! ## Construction -/

/-- Settles O8: the table of R36, field by field; only the entries of the CRC table are computed. -/
theorem constructionState : Obligations.ConstructionState := by
  unfold Obligations.ConstructionState
  exact fun cfg => ⟨rfl, fun _ => rfl, fun _ => rfl, rfl, rfl, rfl, rfl, crcTable_get _ _, rfl, rfl, rfl, rfl⟩

/-- CRC_TABLE_GEN writes the table and the outcome (41_crc.md R121). -/
theorem exec_crcTableGen (s : State) :
    exec .crcTableGen s =
      .next { s with crcTable := crcTable s.cfg.width s.cfg.polynomial, result := some ⟨true, 0, none⟩ } := rfl

/-- Settles O9: the step runs the reset sequence's CRC_TABLE_GEN, which writes the table from the
configuration alone and no status register. -/
theorem constructionRunsTableGen : Obligations.ConstructionRunsTableGen := by
  unfold Obligations.ConstructionRunsTableGen
  intro cfg hlegal
  refine ⟨by simp [constructOrRefuse, hlegal], fun table cobs crc xfer fsm => ?_⟩
  exact ⟨_, (step_of_issuable hlegal rfl (decode_encode .crcTableGen) rfl).trans (exec_crcTableGen _),
    rfl, rfl, rfl, rfl, rfl⟩

/-- Construction with a legal configuration establishes the invariant. -/
theorem State.construct_inv {cfg : Config} (hlegal : cfg.legal = true) : (State.construct cfg).Inv where
  legal := hlegal
  txWf := rfl
  rxWf := rfl
  bufWf := rfl
  txFilledLe := Nat.zero_le _
  rxFilledLe := Nat.zero_le _
  txOverhead := rfl
  table := rfl
  cobsLayer := rfl
  crcLayer := rfl
  fsmIdle := rfl
  bytesReadLe := Nat.zero_le _
  tLastLe := Nat.le_refl _

/-- Settles O10: the model's own reset is one construction among the others. -/
theorem resetMeetsInvariant : Obligations.ResetMeetsInvariant := by
  unfold Obligations.ResetMeetsInvariant
  exact ⟨fun _ => State.construct_inv, State.construct_inv (by decide)⟩

end Sys2Proof.Machine
end

section
/-! SUPPORT. COBS_ENCODE and COBS_DECODE as operations: what each failed precondition answers
(40_cobs.md R101, R106), and that either operation fails on the buffer it left (70_reset_and_hazards.md R252). -/

namespace Sys2Proof.Machine

/-- A failed answer of the encoder on the buffer presented, as the host sees it. -/
theorem exec_cobsEncode_failed {buf : List Byte} {p : Nat} {d : Byte} {st : Status} (s : State)
    (h : cobsEncode (Buffer.ofBytes buf) p d = .failed st (Buffer.ofBytes buf)) :
    exec (.cobsEncode buf p d) s =
      .next { s with buf := Buffer.ofBytes buf, cobsStatus := st, result := some ⟨false, 0, some st⟩ } := by
  rw [exec_cobsEncode, h]; rfl

/-- A failed answer of the decoder on the buffer presented, as the host sees it. -/
theorem exec_cobsDecode_failed {buf : List Byte} {l : Nat} {d : Byte} {st : Status} (s : State)
    (h : cobsDecode (Buffer.ofBytes buf) l d = .failed st (Buffer.ofBytes buf)) :
    exec (.cobsDecode buf l d) s =
      .next { s with buf := Buffer.ofBytes buf, cobsStatus := st, result := some ⟨false, 0, some st⟩ } := by
  rw [exec_cobsDecode, h]; rfl

/-- The last precondition of COBS_ENCODE: the overhead byte is free (R101). -/
theorem cobsEncode_alreadyEncoded {b : Buffer} {p : Nat} (d : Byte) (hpos : 1 ≤ p) (hle : p ≤ 254)
    (hsize : p + 2 ≤ b.size) (hfirst : b.get 0 ≠ 0) : cobsEncode b p d = .failed .encodeAlreadyEncoded b := by
  simp only [cobsEncode]
  rw [if_neg (by omega), if_neg (by omega), if_neg (by omega), if_pos hfirst]

/-- The last precondition of COBS_DECODE: the packet is not marked decoded (R106). -/
theorem cobsDecode_alreadyDecoded {b : Buffer} {l : Nat} (d : Byte) (hmin : 3 ≤ l) (hmax : l ≤ 256)
    (hsize : l ≤ b.size) (hfirst : b.get 0 = 0) : cobsDecode b l d = .failed .decodeAlreadyDecoded b := by
  simp only [cobsDecode]
  rw [if_neg (by omega), if_neg (by omega), if_neg (by omega), if_pos hfirst]

/-- COBS_ENCODE of the buffer at hand, when its overhead byte is taken. -/
theorem exec_cobsEncode_again {s : State} {p : Nat} (d : Byte) (hwf : s.buf.wf) (hpos : 1 ≤ p) (hle : p ≤ 254)
    (hsize : p + 2 ≤ s.buf.size) (hfirst : s.buf.get 0 ≠ 0) :
    exec (.cobsEncode s.buf.toBytes p d) s =
      .next { s with cobsStatus := .encodeAlreadyEncoded, result := some ⟨false, 0, some .encodeAlreadyEncoded⟩ } := by
  rw [exec_cobsEncode, Buffer.ofBytes_toBytes hwf, cobsEncode_alreadyEncoded d hpos hle hsize hfirst]; rfl

/-- COBS_DECODE of the buffer at hand, when it is marked decoded. -/
theorem exec_cobsDecode_again {s : State} {l : Nat} (d : Byte) (hwf : s.buf.wf) (hmin : 3 ≤ l) (hmax : l ≤ 256)
    (hsize : l ≤ s.buf.size) (hfirst : s.buf.get 0 = 0) :
    exec (.cobsDecode s.buf.toBytes l d) s =
      .next { s with cobsStatus := .decodeAlreadyDecoded, result := some ⟨false, 0, some .decodeAlreadyDecoded⟩ } := by
  rw [exec_cobsDecode, Buffer.ofBytes_toBytes hwf, cobsDecode_alreadyDecoded d hmin hmax hsize hfirst]; rfl

/-- Settles O13: the four tests come in the order of R101, and past them the encoder succeeds. -/
theorem encodePreconditions : Obligations.EncodePreconditions := by
  unfold Obligations.EncodePreconditions
  intro buf p d s failsWith
  refine ⟨fun h => ?_, fun h => ?_, fun h1 h2 h3 => ?_, fun h1 h2 h3 h4 => ?_, fun h1 h2 h3 h4 => ?_⟩
  · exact exec_cobsEncode_failed s (by rw [cobsEncode, if_pos h])
  · exact exec_cobsEncode_failed s (by rw [cobsEncode, if_neg (by omega), if_pos h])
  · exact exec_cobsEncode_failed s (by rw [cobsEncode, if_neg (by omega), if_neg (by omega), if_pos (by simpa)])
  · exact exec_cobsEncode_failed s (cobsEncode_alreadyEncoded d h1 h2 h3 (by simpa using h4))
  · obtain ⟨b, hres, -⟩ := cobsEncode_ok d (encodePre_ofBytes_iff.2 ⟨h1, h2, h3, h4⟩)
    exact ⟨_, exec_cobsEncode buf p d s, by simp [hres], by simp [hres]⟩

/-- Settles O15: the four tests come in the order of R106. -/
theorem decodePreconditions : Obligations.DecodePreconditions := by
  unfold Obligations.DecodePreconditions
  intro buf l d s failsWith
  refine ⟨fun h => ?_, fun h => ?_, fun h1 h2 h3 => ?_, fun h1 h2 h3 h4 => ?_⟩
  · exact exec_cobsDecode_failed s (by rw [cobsDecode, if_pos h])
  · exact exec_cobsDecode_failed s (by rw [cobsDecode, if_neg (by omega), if_pos h])
  · exact exec_cobsDecode_failed s (by rw [cobsDecode, if_neg (by omega), if_neg (by omega), if_pos (by simpa)])
  · exact exec_cobsDecode_failed s (cobsDecode_alreadyDecoded d h1 h2 h3 (by simpa using h4))

/-- Settles O17: `cobsDecode_ok` says what the decoder leaves of the buffer; as index 0 then holds 0, a
second COBS_DECODE fails on the last precondition. -/
theorem decodeMarksTheBuffer : Obligations.DecodeMarksTheBuffer := by
  unfold Obligations.DecodeMarksTheBuffer
  intro buf l d s hmin hmax hlen hfirst
  have hpre := decodePre_ofBytes_iff.2 ⟨hmin, hmax, hlen, hfirst⟩
  obtain ⟨hsize, hwf, hzero, hbehind, hinside, houtcome⟩ := cobsDecode_ok d hpre
  refine ⟨_, exec_cobsDecode buf l d s, ?_⟩
  rw [State.report_cobs_eq s (decodeLoop_value_of_failed (decodeLoop_cobsDecode d hpre))]
  simp only [Buffer.get_ofBytes] at hbehind hinside
  refine ⟨rfl, hsize, hzero, hbehind, fun j hj _ => hinside j hj, ?_,
    exec_cobsDecode_again d (hwf (Buffer.ofBytes_wf buf)) hmin hmax (hsize ▸ hlen) hzero⟩
  obtain ⟨hok, hval, hst, hlast⟩ | ⟨hok, hval, hst | hst⟩ := houtcome
  · exact .inl ⟨by rw [hok, hval, hst], hlast⟩
  · exact .inr (.inr (by rw [hok, hval, hst]))
  · exact .inr (.inl (by rw [hok, hval, hst]))

/-- A successful COBS_ENCODE met its preconditions. -/
theorem encodePre_of_ok {b : Buffer} {p : Nat} {d : Byte} (h : (cobsEncode b p d).ok = true) : EncodePre b p := by
  obtain ⟨-, st, hf, -⟩ | hpre := cobsEncode_cases b p d
  · rw [hf] at h; cases h
  · exact hpre

/-- Settles O18: the overhead byte of a packet is a distance, at least 1, so it is not 0 and the last
precondition fails. -/
theorem encodeTwiceFails : Obligations.EncodeTwiceFails := by
  unfold Obligations.EncodeTwiceFails
  intro buf p d s t hexec hresult
  rw [exec_cobsEncode] at hexec
  obtain rfl : s.report .cobs (cobsEncode (Buffer.ofBytes buf) p d) = t := Host.Outcome.next.inj hexec
  have hok : (cobsEncode (Buffer.ofBytes buf) p d).ok = true := by
    rw [State.report_result] at hresult
    injection hresult with hresult
    injection hresult
  have hpre := encodePre_of_ok hok
  obtain ⟨b, hres, hsize, hwf, -, ⟨k, hstop, hoverhead⟩, -⟩ := cobsEncode_ok d hpre
  obtain ⟨hpos, hle, hlen, -⟩ := hpre
  have hfirst : b.get 0 ≠ 0 := fun h => by
    have hk := hstop.toNat_distance hle
    rw [Nat.sub_zero, ← hoverhead, h] at hk
    have := hstop.1
    simp at hk
    omega
  rw [hres]
  exact exec_cobsEncode_again d (hwf (Buffer.ofBytes_wf buf)) hpos hle (hsize ▸ hlen) hfirst

end Sys2Proof.Machine
end

section
/-! SUPPORT. The round trip of the codec (40_cobs.md R110, R111): the decoder's chain visits the stops of
the packet in order, so it undoes the encoder exactly when none of the distances it meets is `D` itself. -/

namespace Sys2Proof.Machine

/-- The bytes `e` are the packet of the bytes `f`, a payload of `p` bytes from index 1 on (30_encoding.md
R70): distances at index 0 and at every stop, the other payload bytes kept, the delimiter at the end. -/
structure PacketOf (f e : Nat → Byte) (d : Byte) (p : Nat) : Prop where
  overhead : ∃ k, NextStop f d p 0 k ∧ (e 0).toNat = k
  jump : ∀ j, 1 ≤ j → j ≤ p → f j = d → ∃ k, NextStop f d p j k ∧ (e j).toNat = k - j
  keep : ∀ j, 1 ≤ j → j ≤ p → f j ≠ d → e j = f j
  delimiter : e (p + 1) = d

/-- COBS_ENCODE when its preconditions hold builds a packet and touches nothing behind it. -/
theorem cobsEncode_packet {b : Buffer} {p : Nat} (d : Byte) (h : EncodePre b p) :
    ∃ b', cobsEncode b p d = ⟨true, p + 2, .payloadEncoded, b'⟩ ∧ b'.size = b.size ∧ (b.wf → b'.wf) ∧
      PacketOf b.get b'.get d p ∧ ∀ j, p + 1 < j → b'.get j = b.get j := by
  obtain ⟨b', hres, hsize, hwf, hdelim, ⟨k, hstop, hoverhead⟩, hjump, hkeep, hbehind⟩ := cobsEncode_ok d h
  obtain ⟨-, hle, -⟩ := h
  refine ⟨b', hres, hsize, hwf, ⟨⟨k, hstop, ?_⟩, fun j h1 h2 hd => ?_, hkeep, hdelim⟩, hbehind⟩
  · rw [hoverhead]; exact hstop.toNat_distance hle
  · obtain ⟨m, hm, hbyte⟩ := hjump j h1 h2 hd
    exact ⟨m, hm, by rw [hbyte]; exact hm.toNat_distance hle⟩

/-- Being a packet depends on the bytes up to the delimiter only. -/
theorem PacketOf.congr {f e e' : Nat → Byte} {d : Byte} {p : Nat} (h : PacketOf f e d p)
    (he : ∀ j, j ≤ p + 1 → e' j = e j) : PacketOf f e' d p where
  overhead := by rw [he 0 (by omega)]; exact h.overhead
  jump j h1 h2 hd := by rw [he j (by omega)]; exact h.jump j h1 h2 hd
  keep j h1 h2 hd := by rw [he j (by omega)]; exact h.keep j h1 h2 hd
  delimiter := by rw [he (p + 1) (by omega)]; exact h.delimiter

/-- A packet byte that equals `D` stands at a stop: the other payload bytes are kept, and are not `D`. -/
theorem PacketOf.stop_of_eq {f e : Nat → Byte} {d : Byte} {p j : Nat} (h : PacketOf f e d p) (hpos : 1 ≤ j)
    (hle : j ≤ p) (hd : e j = d) : f j = d := by
  by_contra hf
  exact hf (h.keep j hpos hle hf ▸ hd)

/-- With `D = 0` no byte before the delimiter is 0: distances are at least 1 (R111). -/
theorem PacketOf.ne_zero {f e : Nat → Byte} {p : Nat} (h : PacketOf f e 0 p) (j : Nat) (hj : j ≤ p) : e j ≠ 0 := by
  intro he
  have hz : (e j).toNat = 0 := by simp [he]
  rcases Nat.eq_zero_or_pos j with rfl | hpos
  · obtain ⟨k, ⟨hlt, -⟩, hk⟩ := h.overhead
    omega
  · obtain ⟨k, ⟨hlt, -⟩, hk⟩ := h.jump j hpos hj (h.stop_of_eq hpos hj he)
    omega

/-- The first byte of a packet is never 0. -/
theorem PacketOf.first_ne_zero {f e : Nat → Byte} {d : Byte} {p : Nat} (h : PacketOf f e d p) : e 0 ≠ 0 := by
  intro he
  obtain ⟨k, ⟨hlt, -⟩, hk⟩ := h.overhead
  simp [he] at hk
  omega

/-- The decoder's chain over a packet without an inner `D`, standing before the stop `r + n`: it ends at
the delimiter, every stop on its way holding `D` again. -/
theorem decodeChain_packet {f e : Nat → Byte} {d : Byte} {p : Nat} (h : PacketOf f e d p)
    (hinner : ∀ j, 1 ≤ j → j ≤ p → e j ≠ d) (fuel r n : Nat) (b : Buffer) (hfuel : p + 2 ≤ r + fuel)
    (hstop : NextStop f d p r (r + n)) (hb : ∀ j, r < j → b.get j = e j) :
    ∃ b', decodeChain d (p + 2) fuel r n b = ⟨true, p, .payloadDecoded, b'⟩ ∧ b'.size = b.size ∧
      ∀ j, b'.get j = if r < j ∧ j ≤ p ∧ f j = d then d else b.get j := by
  induction fuel generalizing r n b with
  | zero => have := hstop.1; have := hstop.2.1; omega
  | succ fuel ih =>
    obtain ⟨hlt, hle, hkind, hbetween⟩ := hstop
    rw [decodeChain_succ, if_pos (by omega), hb (r + n) hlt]
    by_cases hend : r + n = p + 1
    · rw [if_pos (hend ▸ h.delimiter), if_pos (by omega)]
      exact ⟨b, rfl, rfl, fun j => by rw [if_neg fun ⟨h1, h2, hf⟩ => hbetween j h1 (by omega) hf]⟩
    · have hf : f (r + n) = d := hkind.resolve_left hend
      obtain ⟨k, hk, hbyte⟩ := h.jump (r + n) (by omega) (by omega) hf
      have hsum : r + n + (e (r + n)).toNat = k := by have := hk.1; omega
      rw [if_neg (hinner _ (by omega) (by omega))]
      obtain ⟨b', hres, hsize, hget⟩ := ih (r + n) (e (r + n)).toNat (b.set (r + n) d) (by omega)
        (by rw [hsum]; exact hk) (fun j hj => by rw [Buffer.get_set, if_neg (by omega), hb j (by omega)])
      refine ⟨b', hres, by simpa using hsize, fun j => ?_⟩
      rw [hget j, Buffer.get_set]
      rcases Nat.lt_trichotomy j (r + n) with hj | rfl | hj
      · rw [if_neg (by omega), if_neg (by omega)]
        exact (if_neg fun ⟨h1, _, hf'⟩ => hbetween j h1 hj hf').symm
      · rw [if_neg (by omega), if_pos rfl, if_pos ⟨hlt, by omega, hf⟩]
      · rw [if_neg (show ¬ j = r + n by omega)]
        exact if_congr (by constructor <;> rintro ⟨-, h2, h3⟩ <;> exact ⟨by omega, h2, h3⟩) rfl rfl

/-- The decoder's chain fails on a packet with an inner `D` ahead: it stops there, or earlier. -/
theorem decodeChain_inner_delimiter {f e : Nat → Byte} {d : Byte} {p i : Nat} (h : PacketOf f e d p)
    (hi : i ≤ p) (hd : e i = d) (fuel r n : Nat) (b : Buffer) (hri : r < i)
    (hstop : NextStop f d p r (r + n)) (hb : ∀ j, r < j → b.get j = e j) :
    (decodeChain d (p + 2) fuel r n b).ok = false := by
  induction fuel generalizing r n b with
  | zero => rfl
  | succ fuel ih =>
    obtain ⟨hlt, hle, hkind, hbetween⟩ := hstop
    have hki : r + n ≤ i := Nat.le_of_not_lt fun hlt' =>
      hbetween i hri hlt' (h.stop_of_eq (by omega) hi hd)
    rw [decodeChain_succ, if_pos (by omega), hb (r + n) hlt]
    by_cases hbd : e (r + n) = d
    · rw [if_pos hbd, if_neg (by omega)]; rfl
    · rw [if_neg hbd]
      have hne : r + n ≠ i := fun heq => hbd (heq ▸ hd)
      obtain ⟨k, hk, hbyte⟩ := h.jump (r + n) (by omega) (by omega) (hkind.resolve_left (by omega))
      have hsum : r + n + (e (r + n)).toNat = k := by have := hk.1; omega
      exact ih _ _ _ (by omega) (by rw [hsum]; exact hk)
        (fun j hj => by rw [Buffer.get_set, if_neg (by omega), hb j (by omega)])

section Decode

variable {f : Nat → Byte} {b : Buffer} {d : Byte} {p : Nat} (h : PacketOf f b.get d p) (hpos : 1 ≤ p)
  (hle : p ≤ 254) (hsize : p + 2 ≤ b.size)
include h hpos hle hsize

/-- COBS_DECODE of a packet runs the chain from the overhead byte, a distance to the first stop. -/
theorem cobsDecode_of_packet : ∃ n, NextStop f d p 0 (0 + n) ∧
    cobsDecode b (p + 2) d = decodeChain d (p + 2) (p + 3) 0 n (b.set 0 0) := by
  obtain ⟨k, hstop, hk⟩ := h.overhead
  exact ⟨k, by rwa [Nat.zero_add], by
    rw [cobsDecode_of_pre d ⟨by omega, by omega, hsize, h.first_ne_zero⟩, hk]⟩

/-- COBS_DECODE of a packet without an inner `D` gives the payload back and keeps every other byte, but for
the overhead, now 0 (40_cobs.md R110). -/
theorem cobsDecode_packet (hinner : ∀ j, 1 ≤ j → j ≤ p → b.get j ≠ d) :
    ∃ b', cobsDecode b (p + 2) d = ⟨true, p, .payloadDecoded, b'⟩ ∧ b'.size = b.size ∧ b'.get 0 = 0 ∧
      (∀ j, 1 ≤ j → j ≤ p → b'.get j = f j) ∧ ∀ j, p < j → b'.get j = b.get j := by
  obtain ⟨n, hstop, hchain⟩ := cobsDecode_of_packet h hpos hle hsize
  obtain ⟨b', hres, hsize', hget⟩ := decodeChain_packet h hinner (p + 3) 0 n (b.set 0 0) (by omega) hstop
    (fun j hj => by rw [Buffer.get_set, if_neg (by omega)])
  refine ⟨b', hchain.trans hres, hsize', by simp [hget], fun j h1 h2 => ?_, fun j hj => ?_⟩
  · rw [hget j, Buffer.get_set, if_neg (show ¬ j = 0 by omega)]
    by_cases hf : f j = d
    · rw [if_pos ⟨h1, h2, hf⟩, hf]
    · rw [if_neg fun ⟨_, _, h'⟩ => hf h', h.keep j h1 h2 hf]
  · rw [hget j, Buffer.get_set, if_neg (by omega), if_neg (by omega)]

/-- COBS_DECODE of a packet with an inner `D` fails (R110). -/
theorem cobsDecode_packet_inner_delimiter {i : Nat} (h1 : 1 ≤ i) (h2 : i ≤ p) (hd : b.get i = d) :
    (cobsDecode b (p + 2) d).ok = false := by
  obtain ⟨n, hstop, hchain⟩ := cobsDecode_of_packet h hpos hle hsize
  rw [hchain]
  exact decodeChain_inner_delimiter h h2 hd _ _ _ _ h1 hstop
    (fun j hj => by rw [Buffer.get_set, if_neg (by omega)])

end Decode

/-- The bytes `[0][payload][0]` that `encode` presents to COBS_ENCODE (30_encoding.md R87 b), by index. -/
def payloadAt (payload : List Byte) (j : Nat) : Byte := (0 :: payload ++ [0]).getD j 0

theorem payloadAt_succ (payload : List Byte) (k : Nat) (h : k < payload.length) :
    payloadAt payload (k + 1) = payload[k] := by
  rw [payloadAt, List.getD_eq_getElem _ _ (by simp; omega)]
  simp [List.getElem_append_left h]

/-- `encode(payload, D)` is the payload's packet (30_encoding.md R87 b, R70). -/
theorem encodeBytes_packet (payload : List Byte) (d : Byte) (hpos : 1 ≤ payload.length)
    (hle : payload.length ≤ 254) :
    ∃ e, encodeBytes payload d = some e ∧ e.length = payload.length + 2 ∧
      PacketOf (payloadAt payload) (fun j => e.getD j 0) d payload.length := by
  obtain ⟨b, hres, hsize, -, hpacket, -⟩ := cobsEncode_packet d
    (encodePre_ofBytes_iff.2 ⟨hpos, hle, by simp, rfl⟩ : EncodePre (Buffer.ofBytes (0 :: payload ++ [0])) _)
  rw [Buffer.get_ofBytes_eq] at hpacket
  refine ⟨b.slice 0 (payload.length + 2), by rw [encodeBytes, hres]; rfl, by simp, hpacket.congr fun j hj => ?_⟩
  rw [List.getD_eq_getElem _ _ (by simp; omega), Buffer.getElem_slice, Nat.zero_add]

/-- `decode(e, D)` of a packet gives its payload back exactly when no byte of the encoded region is `D`. -/
theorem decodeBytes_packet_iff {payload e : List Byte} {d : Byte} (hpos : 1 ≤ payload.length)
    (hle : payload.length ≤ 254) (hlen : e.length = payload.length + 2)
    (h : PacketOf (payloadAt payload) (fun j => e.getD j 0) d payload.length) :
    decodeBytes e d = some payload ↔ ∀ j, 1 ≤ j → j ≤ payload.length → e.getD j 0 ≠ d := by
  rw [← Buffer.get_ofBytes_eq] at h
  have hsize : payload.length + 2 ≤ (Buffer.ofBytes e).size := by simp [hlen]
  constructor
  · intro hdec j h1 h2 hd
    have hfail := cobsDecode_packet_inner_delimiter h hpos hle hsize h1 h2 ((Buffer.get_ofBytes e j).trans hd)
    simp [decodeBytes, hlen, hfail] at hdec
  · intro hinner
    obtain ⟨b, hres, -, -, hpayload, -⟩ := cobsDecode_packet h hpos hle hsize
      fun j h1 h2 => (Buffer.get_ofBytes e j).symm ▸ hinner j h1 h2
    have hslice : b.slice 1 payload.length = payload := Buffer.slice_eq_of_get fun k hk => by
      rw [Nat.add_comm, hpayload _ (by omega) (by omega), payloadAt_succ payload k hk]
    rw [decodeBytes, hlen, hres]
    simp [hslice]

/-- Settles O19: `encode` builds the packet, and the encoded region's bytes are the packet's by index. -/
theorem roundTripIffNoDelimiterInside : Obligations.RoundTripIffNoDelimiterInside := by
  unfold Obligations.RoundTripIffNoDelimiterInside
  intro payload d hpos hle
  obtain ⟨e, henc, hlen, hpacket⟩ := encodeBytes_packet payload d hpos hle
  refine ⟨e, henc, hlen, (decodeBytes_packet_iff hpos hle hlen hpacket).trans ?_⟩
  rw [List.mem_iff_getElem]
  constructor
  · rintro h ⟨k, hk, hd⟩
    have hk' : k < payload.length := by simp at hk; omega
    refine h (k + 1) (by omega) (by omega) ?_
    rw [List.getD_eq_getElem _ _ (by omega), ← hd]
    simp
  · intro h j h1 h2 hd
    obtain ⟨k, rfl⟩ : ∃ k, j = k + 1 := ⟨j - 1, by omega⟩
    refine h ⟨k, by simp; omega, ?_⟩
    rw [List.getD_eq_getElem _ _ (by omega)] at hd
    simpa using hd

/-- With `D = 0` the packet of a payload is a body without 0 and the delimiter, and decodes (R110, R111). -/
theorem encodeBytes_zero {payload e : List Byte} (hpos : 1 ≤ payload.length) (hle : payload.length ≤ 254)
    (henc : encodeBytes payload 0 = some e) :
    decodeBytes e 0 = some payload ∧ ∃ body, e = body ++ [0] ∧ (0 : Byte) ∉ body ∧
      body.length = payload.length + 1 := by
  obtain ⟨e', henc', hlen, hpacket⟩ := encodeBytes_packet payload 0 hpos hle
  obtain rfl : e' = e := by rw [henc] at henc'; exact (Option.some.inj henc').symm
  refine ⟨(decodeBytes_packet_iff hpos hle hlen hpacket).2 fun j _ h2 => hpacket.ne_zero j h2, ?_⟩
  obtain rfl | ⟨body, last, rfl⟩ := List.eq_nil_or_concat' e'
  · simp at hlen
  · have hbody : body.length = payload.length + 1 := by simpa using hlen
    have hlast : last = 0 := by simpa [← hbody] using hpacket.delimiter
    refine ⟨body, by rw [hlast], fun hmem => ?_, hbody⟩
    obtain ⟨k, hk, hzero⟩ := List.mem_iff_getElem.1 hmem
    refine hpacket.ne_zero k (by omega) ?_
    rw [List.getD_eq_getElem _ _ (by simp; omega), List.getElem_append_left hk, hzero]

/-- Settles O20: with `D = 0` no packet byte is 0 before the delimiter, so the decoder's chain restores
every byte, and the overhead was 0 before. -/
theorem zeroDelimiterRoundTrip : Obligations.ZeroDelimiterRoundTrip := by
  unfold Obligations.ZeroDelimiterRoundTrip
  intro buf p s hpos hle hlen hfirst
  obtain ⟨b, hres, hsize, hwf, hpacket, hbehind⟩ :=
    cobsEncode_packet 0 (encodePre_ofBytes_iff.2 ⟨hpos, hle, hlen, hfirst⟩)
  obtain ⟨b', hres', hsize', hzero, hpayload, hrest⟩ := cobsDecode_packet hpacket hpos hle (hsize ▸ hlen)
    fun j _ h2 => hpacket.ne_zero j h2
  refine ⟨_, exec_cobsEncode buf p 0 s, ?_⟩
  rw [hres, State.report_cobs_success]
  refine ⟨hpacket.ne_zero, hpacket.delimiter, _, exec_cobsDecode _ _ _ _, ?_⟩
  rw [Buffer.ofBytes_toBytes (hwf (Buffer.ofBytes_wf buf)), hres', State.report_cobs_success]
  refine ⟨rfl, hsize'.trans hsize, (hrest _ (by omega)).trans hpacket.delimiter, fun j hj => ?_⟩
  rw [← Buffer.get_ofBytes]
  rcases Nat.eq_zero_or_pos j with rfl | hj0
  · rw [hzero, Buffer.get_ofBytes, hfirst]
  · rcases Nat.lt_or_ge p j with hp | hp
    · exact (hrest j hp).trans (hbehind j (by omega))
    · exact hpayload j hj0 hp

end Sys2Proof.Machine
end

section
/-! SUPPORT. The CRC register bit by bit (00_scope.md R16), and the shift step as a linear map of it: what
the laws of 41_crc.md R130 and R131 rest on. -/

namespace Sys2Proof.Machine

open Sys2Proof.Claims

/-! ## Bits of the register -/

theorem CrcWidth.bits_eq (w : CrcWidth) : w.bits = 8 * w.bytes := rfl

theorem CrcWidth.bits_ge (w : CrcWidth) : 8 ≤ w.bits := by cases w <;> decide

theorem CrcWidth.bits_le (w : CrcWidth) : w.bits ≤ 32 := by cases w <;> decide

@[simp] theorem getLsbD_crcTrunc (w : CrcWidth) (c : Word) (i : Nat) :
    (crcTrunc w c).getLsbD i = (decide (i < w.bits) && c.getLsbD i) := by
  have := CrcWidth.bits_le w
  simp only [crcTrunc, BitVec.getLsbD_and, BitVec.getLsbD_ofNat, Nat.testBit_two_pow_sub_one]
  by_cases h : i < w.bits
  · simp [h, show i < 32 by omega]
  · simp [h]

@[simp] theorem getLsbD_crcShl (w : CrcWidth) (c : Word) (k i : Nat) :
    (crcShl w c k).getLsbD i = (decide (i < w.bits) && (decide (k ≤ i) && c.getLsbD (i - k))) := by
  have := CrcWidth.bits_le w
  rw [crcShl, getLsbD_crcTrunc, BitVec.getLsbD_shiftLeft]
  by_cases h : i < w.bits
  · by_cases hk : k ≤ i
    · simp [h, hk, show i < 32 by omega]
    · simp [h, hk, show i < k by omega]
  · simp [h]

/-- A value fits the register when its bits above it are 0. -/
theorem fits_iff_getLsbD {w : CrcWidth} {c : Word} :
    w.fits c = true ↔ ∀ i, w.bits ≤ i → c.getLsbD i = false := by
  constructor
  · intro h i hi
    rw [← crcTrunc_of_fits h, getLsbD_crcTrunc, decide_eq_false (by omega), Bool.false_and]
  · intro h
    have : crcTrunc w c = c := BitVec.eq_of_getLsbD_eq fun i _ => by
      rw [getLsbD_crcTrunc]
      by_cases hi : i < w.bits
      · simp [hi]
      · simp [hi, h i (by omega)]
    rw [← this]
    exact crcTrunc_fits w c

theorem crcShl_zero {w : CrcWidth} {c : Word} (h : w.fits c = true) : crcShl w c 0 = c := by
  rw [crcShl, BitVec.shiftLeft_zero, crcTrunc_of_fits h]

theorem crcShl_crcShl (w : CrcWidth) (c : Word) (j k : Nat) : crcShl w (crcShl w c j) k = crcShl w c (j + k) := by
  refine BitVec.eq_of_getLsbD_eq fun i _ => ?_
  simp only [getLsbD_crcShl]
  by_cases h : i < w.bits ∧ j + k ≤ i
  · simp [h.1, show i - k < w.bits by omega, show k ≤ i by omega, show j ≤ i - k by omega, h.2,
      show i - k - j = i - (j + k) by omega]
  · by_cases hi : i < w.bits
    · by_cases hk : k ≤ i
      · simp [show ¬ j ≤ i - k by omega, show ¬ j + k ≤ i by omega]
      · simp [hk, show ¬ j + k ≤ i by omega]
    · simp [hi]

/-- Everything is shifted out of the register after `8*W` places. -/
theorem crcShl_bits (w : CrcWidth) (c : Word) {k : Nat} (h : w.bits ≤ k) : crcShl w c k = 0 := by
  refine BitVec.eq_of_getLsbD_eq fun i _ => ?_
  rw [getLsbD_crcShl]
  by_cases hi : i < w.bits
  · simp [show ¬ k ≤ i by omega]
  · simp [hi]

/-! ## The shift step is linear -/

theorem crcShiftStep_xor (w : CrcWidth) (poly a b : Word) :
    crcShiftStep w poly (a ^^^ b) = crcShiftStep w poly a ^^^ crcShiftStep w poly b := by
  simp only [crcShiftStep, crcMsb, BitVec.getLsbD_xor, crcShl_xor]
  generalize crcShl w a 1 = a', crcShl w b 1 = b'
  by_cases ha : a.getLsbD (w.bits - 1) = true <;> by_cases hb : b.getLsbD (w.bits - 1) = true <;>
    simp only [ha, hb, Bool.bne_false, Bool.bne_true, Bool.not_false, Bool.not_true, if_true, Bool.false_eq_true, if_false]
  · rw [BitVec.xor_comm b', ← BitVec.xor_assoc, BitVec.xor_assoc a', BitVec.xor_self, BitVec.xor_zero]
  · ac_rfl
  · ac_rfl

theorem repeat_crcShiftStep_xor (w : CrcWidth) (poly a b : Word) (n : Nat) :
    Nat.repeat (crcShiftStep w poly) n (a ^^^ b) =
      Nat.repeat (crcShiftStep w poly) n a ^^^ Nat.repeat (crcShiftStep w poly) n b := by
  induction n with
  | zero => rfl
  | succ n ih => simp only [Nat.repeat, ih, crcShiftStep_xor]

/-- As long as no 1 reaches the top of the register, the steps only shift. -/
theorem repeat_crcShiftStep_low {w : CrcWidth} (poly : Word) {c : Word} {n : Nat} (hn : n ≤ w.bits)
    (hc : ∀ i, w.bits - n ≤ i → c.getLsbD i = false) :
    Nat.repeat (crcShiftStep w poly) n c = crcShl w c n := by
  induction n with
  | zero => exact (crcShl_zero (fits_iff_getLsbD.2 hc)).symm
  | succ n ih =>
    rw [Nat.repeat, ih (by omega) fun i hi => hc i (by omega), crcShiftStep, crcMsb, getLsbD_crcShl,
      hc (w.bits - 1 - n) (by omega), crcShl_crcShl]
    simp

/-! ## The table -/

theorem crcTableEntry_zero (w : CrcWidth) (poly : Word) : crcTableEntry w poly 0 = 0 := by
  have hzero : ∀ k, crcShl w 0 k = 0 := fun k => BitVec.eq_of_getLsbD_eq fun i _ => by simp
  rw [crcTableEntry, show (0 : Byte).setWidth 32 = 0 from rfl, hzero,
    repeat_crcShiftStep_low poly (c := 0) (CrcWidth.bits_ge w) (fun _ _ => BitVec.getLsbD_zero), hzero]

/-- The one bit of entry 1 reaches the top after seven steps; the eighth shifts it out and leaves the
polynomial. -/
theorem crcTableEntry_one (w : CrcWidth) (poly : Word) : crcTableEntry w poly 1 = poly := by
  have h8 := CrcWidth.bits_ge w
  have hseven : Nat.repeat (crcShiftStep w poly) 7 (crcShl w ((1 : Byte).setWidth 32) (w.bits - 8)) =
      crcShl w 1 (w.bits - 1) := by
    rw [repeat_crcShiftStep_low poly (by omega) fun i hi => ?_, crcShl_crcShl]
    · rw [show w.bits - 8 + 7 = w.bits - 1 by omega]; rfl
    · simp
      omega
  have hmsb : crcMsb w (crcShl w 1 (w.bits - 1)) = true := by
    simp [crcMsb, show w.bits - 1 < w.bits by omega]
  rw [crcTableEntry, Nat.repeat, hseven, crcShiftStep, if_pos hmsb, crcShl_crcShl, crcShl_bits w 1 (by omega)]
  exact BitVec.zero_xor

/-! ## One byte -/

/-- The byte XORed into the register's top byte is the index of R123, the rest of the register stays. -/
theorem getLsbD_below_crcIndex {w : CrcWidth} {c : Word} (hc : w.fits c = true) (b : Byte) (i : Nat) :
    (c ^^^ crcShl w (b.setWidth 32) (w.bits - 8) ^^^
      crcShl w ((crcIndex w c b).setWidth 32) (w.bits - 8)).getLsbD i =
      (decide (i < w.bits - 8) && c.getLsbD i) := by
  have h8 := CrcWidth.bits_ge w
  have h32 := CrcWidth.bits_le w
  have hb := CrcWidth.bits_eq w
  simp only [BitVec.getLsbD_xor, getLsbD_crcShl, crcIndex, BitVec.getLsbD_setWidth, BitVec.getLsbD_ushiftRight]
  by_cases hi : i < w.bits
  · by_cases hlow : i < w.bits - 8
    · simp [hlow, show ¬ w.bits - 8 ≤ i by omega]
    · obtain ⟨j, rfl, hj⟩ : ∃ j, i = w.bits - 8 + j ∧ j < 8 := ⟨i - (w.bits - 8), by omega, by omega⟩
      rw [show 8 * (w.bytes - 1) = w.bits - 8 by omega]
      simp [hi, hj, show j < 32 by omega]
  · rw [fits_iff_getLsbD.1 hc i (by omega)]
    simp [hi]

/-- One byte by the table is one byte by eight shifts (41_crc.md R131). -/
theorem crcUpdate_eq_bitSerialByte {w : CrcWidth} {c : Word} (poly : Word) (hc : w.fits c = true) (b : Byte) :
    crcUpdate w (crcTable w poly) c b = bitSerialByte w poly c b := by
  have h8 := CrcWidth.bits_ge w
  have hsplit : c ^^^ crcShl w (b.setWidth 32) (w.bits - 8) =
      (c ^^^ crcShl w (b.setWidth 32) (w.bits - 8) ^^^ crcShl w ((crcIndex w c b).setWidth 32) (w.bits - 8)) ^^^
        crcShl w ((crcIndex w c b).setWidth 32) (w.bits - 8) := by
    rw [BitVec.xor_assoc, BitVec.xor_self, BitVec.xor_zero]
  have hlow := repeat_crcShiftStep_low (w := w) poly h8 fun i hi => by
    rw [getLsbD_below_crcIndex hc b i, decide_eq_false (by omega), Bool.false_and]
  rw [bitSerialByte, hsplit, repeat_crcShiftStep_xor, hlow, crcUpdate, crcTable_get, crcTableEntry]
  congr 1
  refine BitVec.eq_of_getLsbD_eq fun i _ => ?_
  simp only [getLsbD_crcShl, getLsbD_below_crcIndex hc b]
  by_cases hi : i < w.bits
  · by_cases hk : 8 ≤ i
    · simp [show i - 8 < w.bits - 8 by omega]
    · simp [hk]
  · simp [hi]

/-- The CRC of a list, byte by byte, from any value of the register. -/
theorem foldl_crcUpdate_eq_bitSerial {w : CrcWidth} {poly : Word} (hp : w.fits poly = true) (l : List Byte) {c : Word}
    (hc : w.fits c = true) :
    l.foldl (crcUpdate w (crcTable w poly)) c = l.foldl (bitSerialByte w poly) c := by
  induction l generalizing c with
  | nil => rfl
  | cons b l ih =>
    rw [List.foldl_cons, List.foldl_cons, ← crcUpdate_eq_bitSerialByte poly hc b]
    exact ih (crcUpdate_table_fits hp c b)

/-- The CRC parameters of a legal configuration fit the register (R8). -/
theorem Config.legal_fits {cfg : Config} (h : cfg.legal = true) :
    cfg.width.fits cfg.polynomial = true ∧ cfg.width.fits cfg.initialValue = true ∧
      cfg.width.fits cfg.finalXor = true := by
  obtain ⟨-, -, -, -, hp, hi, hx⟩ := Config.legal_iff.1 h
  exact ⟨CrcWidth.fits_iff.2 hp, CrcWidth.fits_iff.2 hi, CrcWidth.fits_iff.2 hx⟩

/-- Settles O23: `crcUpdate_eq_bitSerialByte` at every byte, the register staying inside `8*W` bits. -/
theorem tableDrivenIsBitSerial : Obligations.TableDrivenIsBitSerial := by
  unfold Obligations.TableDrivenIsBitSerial
  intro cfg l hlegal
  obtain ⟨hp, hi, -⟩ := Config.legal_fits hlegal
  rw [crcOver, bitSerialCrc, foldl_crcUpdate_eq_bitSerial hp l hi]

/-- Settles O21. -/
theorem tableGenWritesTheTable : Obligations.TableGenWritesTheTable := by
  unfold Obligations.TableGenWritesTheTable
  exact fun s => ⟨_, exec_crcTableGen s, rfl, fun b => crcTable_get _ _ b,
    (crcTable_get _ _ 0).trans (crcTableEntry_zero _ _), (crcTable_get _ _ 1).trans (crcTableEntry_one _ _)⟩

/-! ## An odd polynomial: no byte is lost -/

/-- With an odd polynomial the shift step only takes 0 to 0: what it shifts in at the bottom tells whether a
1 left at the top. -/
theorem eq_zero_of_crcShiftStep {w : CrcWidth} {poly c : Word} (hodd : poly.getLsbD 0 = true)
    (hc : w.fits c = true) (h : crcShiftStep w poly c = 0) : c = 0 := by
  have h8 := CrcWidth.bits_ge w
  have hbit : ∀ i, (crcShiftStep w poly c).getLsbD i = false := fun i => by rw [h]; simp
  unfold crcShiftStep at hbit
  split at hbit
  · have := hbit 0
    rw [BitVec.getLsbD_xor, getLsbD_crcShl, hodd] at this
    simp at this
  · next hmsb =>
    refine BitVec.eq_of_getLsbD_eq fun i _ => ?_
    refine Eq.trans ?_ BitVec.getLsbD_zero.symm
    rcases Nat.lt_trichotomy i (w.bits - 1) with hi | rfl | hi
    · have := hbit (i + 1)
      simpa [show i + 1 < w.bits by omega] using this
    · simpa [crcMsb] using hmsb
    · exact fits_iff_getLsbD.1 hc i (by omega)

theorem repeat_crcShiftStep_fits {w : CrcWidth} {poly c : Word} (hp : w.fits poly = true) (hc : w.fits c = true)
    (n : Nat) : w.fits (Nat.repeat (crcShiftStep w poly) n c) = true := by
  cases n with
  | zero => exact hc
  | succ n => exact crcShiftStep_fits hp _

/-- With an odd polynomial the shift steps lose nothing. -/
theorem repeat_crcShiftStep_injective {w : CrcWidth} {poly c c' : Word} (hp : w.fits poly = true)
    (hodd : poly.getLsbD 0 = true) (hc : w.fits c = true) (hc' : w.fits c' = true) {n : Nat}
    (h : Nat.repeat (crcShiftStep w poly) n c = Nat.repeat (crcShiftStep w poly) n c') : c = c' := by
  have key : ∀ (n : Nat) (e : Word), w.fits e = true → Nat.repeat (crcShiftStep w poly) n e = 0 → e = 0 := by
    intro n e he hz
    induction n with
    | zero => exact hz
    | succ n ih => exact ih (eq_zero_of_crcShiftStep hodd (repeat_crcShiftStep_fits hp he n) hz)
  rw [← BitVec.xor_eq_zero_iff]
  refine key n _ (fits_xor hc hc') ?_
  rw [repeat_crcShiftStep_xor, h]
  exact BitVec.xor_self

/-- A byte at the top of the register can be read off there. -/
theorem crcShl_top_injective {w : CrcWidth} {b b' : Byte}
    (h : crcShl w (b.setWidth 32) (w.bits - 8) = crcShl w (b'.setWidth 32) (w.bits - 8)) : b = b' := by
  have h8 := CrcWidth.bits_ge w
  refine BitVec.eq_of_getLsbD_eq fun i hi => ?_
  have := congrArg (·.getLsbD (w.bits - 8 + i)) h
  simpa [show w.bits - 8 + i < w.bits by omega, show i < 32 by omega] using this

theorem bitSerialByte_fits {w : CrcWidth} {poly c : Word} (hp : w.fits poly = true) (b : Byte) :
    w.fits (bitSerialByte w poly c b) = true := crcShiftStep_fits hp _

section Odd

variable {w : CrcWidth} {poly c c' : Word} (hp : w.fits poly = true) (hodd : poly.getLsbD 0 = true)
include hp hodd

/-- Different registers stay different under one list of bytes. -/
theorem foldl_bitSerialByte_injective (l : List Byte) (hc : w.fits c = true) (hc' : w.fits c' = true)
    (h : l.foldl (bitSerialByte w poly) c = l.foldl (bitSerialByte w poly) c') : c = c' := by
  induction l generalizing c c' with
  | nil => exact h
  | cons b l ih =>
    have := repeat_crcShiftStep_injective hp hodd (fits_xor hc (crcShl_fits ..)) (fits_xor hc' (crcShl_fits ..))
      (ih (bitSerialByte_fits hp b) (bitSerialByte_fits hp b) h)
    exact (BitVec.xor_left_inj _).1 this

/-- Different bytes leave different registers. -/
theorem bitSerialByte_injective {b b' : Byte} (hc : w.fits c = true)
    (h : bitSerialByte w poly c b = bitSerialByte w poly c b') : b = b' := by
  have := repeat_crcShiftStep_injective hp hodd (fits_xor hc (crcShl_fits ..)) (fits_xor hc (crcShl_fits ..)) h
  exact crcShl_top_injective ((BitVec.xor_right_inj _).1 this)

end Odd

/-- Settles O25: before the byte the registers agree, the byte makes them differ, and no later byte makes
them agree again. -/
theorem oneChangedByteChangesTheCrc : Obligations.OneChangedByteChangesTheCrc := by
  unfold Obligations.OneChangedByteChangesTheCrc
  intro cfg l k b hlegal hodd hk hb
  obtain ⟨hp, hi, -⟩ := Config.legal_fits hlegal
  have hpre : cfg.width.fits ((l.take k).foldl (bitSerialByte cfg.width cfg.polynomial) cfg.initialValue) = true := by
    rw [← foldl_crcUpdate_eq_bitSerial hp _ hi]
    exact foldl_crcUpdate_fits hp _ hi
  rw [tableDrivenIsBitSerial cfg _ hlegal, tableDrivenIsBitSerial cfg _ hlegal, bitSerialCrc, bitSerialCrc]
  intro h
  have hl : l = l.take k ++ l.getD k 0 :: l.drop (k + 1) := by
    rw [List.getD_eq_getElem _ _ hk, List.getElem_cons_drop, List.take_append_drop]
  rw [BitVec.xor_left_inj, List.set_eq_take_append_cons_drop, if_pos hk] at h
  conv at h => rhs; rw [hl]
  simp only [List.foldl_append, List.foldl_cons] at h
  exact hb (bitSerialByte_injective hp hodd hpre
    (foldl_bitSerialByte_injective hp hodd _ (bitSerialByte_fits hp _) (bitSerialByte_fits hp _) h))

end Sys2Proof.Machine
end

section
/-! SUPPORT. CRC values as bytes (30_encoding.md R77 d and e), and the stand-alone CRC operations. -/

namespace Sys2Proof.Machine

open Sys2Proof.Claims

/-! ## CRC values as bytes -/

theorem crcOfBytes_append_singleton (w : CrcWidth) (l : List Byte) (b : Byte) :
    crcOfBytes w (l ++ [b]) = crcShl w (crcOfBytes w l) 8 ^^^ b.setWidth 32 := by
  simp [crcOfBytes]

/-- Bit `i` of the byte `m` places from the end is bit `8*m + i` of the number. -/
theorem getLsbD_crcOfBytes {w : CrcWidth} {l : List Byte} (hl : l.length ≤ w.bytes) (m i : Nat) (hi : i < 8) :
    (crcOfBytes w l).getLsbD (8 * m + i) = (decide (m < l.length) && (l.getD (l.length - 1 - m) 0).getLsbD i) := by
  induction l using List.reverseRecOn generalizing m with
  | nil => simp [crcOfBytes]
  | append_singleton l b ih =>
    rw [List.length_append, List.length_singleton] at hl ⊢
    have hbits := CrcWidth.bits_eq w
    rw [crcOfBytes_append_singleton, BitVec.getLsbD_xor, getLsbD_crcShl, BitVec.getLsbD_setWidth]
    cases m with
    | zero => simp [show ¬ 8 ≤ i by omega, show i < 32 by omega]
    | succ m =>
      rw [show 8 * (m + 1) + i - 8 = 8 * m + i by omega, ih (by omega) m,
        BitVec.getLsbD_of_ge b _ (by omega), show l.length + 1 - 1 - (m + 1) = l.length - 1 - m by omega]
      by_cases hm : m < l.length
      · simp [hm, show 8 * (m + 1) + i < w.bits by omega, show 8 ≤ 8 * (m + 1) + i by omega,
          List.getElem?_append_left (show l.length - 1 - m < l.length by omega)]
      · simp [hm]

/-- A bit of the register is bit `i` of its byte `m`, counted from the least significant one. -/
theorem exists_byte_bit (j : Nat) : ∃ m i, j = 8 * m + i ∧ i < 8 := ⟨j / 8, j % 8, by omega, by omega⟩

theorem crcOfBytes_fits {w : CrcWidth} {l : List Byte} (hl : l.length ≤ w.bytes) :
    w.fits (crcOfBytes w l) = true := fits_iff_getLsbD.2 fun j hj => by
  obtain ⟨m, i, rfl, hi⟩ := exists_byte_bit j
  rw [getLsbD_crcOfBytes hl m i hi, decide_eq_false (by rw [CrcWidth.bits_eq] at hj; omega), Bool.false_and]

/-- CRC_EXTRACT reads back what CRC_APPEND writes (41_crc.md R128). -/
theorem crcOfBytes_crcToBytes {w : CrcWidth} {c : Word} (hc : w.fits c = true) :
    crcOfBytes w (crcToBytes w c) = c := by
  refine BitVec.eq_of_getLsbD_eq fun j _ => ?_
  obtain ⟨m, i, rfl, hi⟩ := exists_byte_bit j
  rw [getLsbD_crcOfBytes (by simp) m i hi, length_crcToBytes]
  by_cases hm : m < w.bytes
  · rw [List.getD_eq_getElem _ _ (by simp; omega), getElem_crcToBytes, BitVec.getLsbD_setWidth,
      BitVec.getLsbD_ushiftRight, show w.bytes - 1 - (w.bytes - 1 - m) = m by omega]
    simp [hm, hi]
  · rw [decide_eq_false hm, Bool.false_and, fits_iff_getLsbD.1 hc _ (by rw [CrcWidth.bits_eq]; omega)]

/-- CRC_APPEND writes back what CRC_EXTRACT reads (R128). -/
theorem crcToBytes_crcOfBytes {w : CrcWidth} {l : List Byte} (hl : l.length = w.bytes) :
    crcToBytes w (crcOfBytes w l) = l := by
  refine List.ext_getElem (by simp [hl]) fun k h1 h2 => ?_
  refine BitVec.eq_of_getLsbD_eq fun i hi => ?_
  rw [getElem_crcToBytes, BitVec.getLsbD_setWidth, BitVec.getLsbD_ushiftRight, getLsbD_crcOfBytes (by omega) _ i hi,
    show l.length - 1 - (w.bytes - 1 - k) = k by omega, List.getD_eq_getElem _ _ h2]
  simp [hi]
  omega

/-- A byte XORed in behind eight shifts meets zeros only. -/
theorem crcShl_xor_byte (w : CrcWidth) (c : Word) (b : Byte) :
    crcShl w c 8 ^^^ b.setWidth 32 = crcShl w c 8 ||| b.setWidth 32 := by
  refine BitVec.eq_of_getLsbD_eq fun i _ => ?_
  rw [BitVec.getLsbD_xor, BitVec.getLsbD_or, BitVec.getLsbD_setWidth, getLsbD_crcShl]
  by_cases hi : 8 ≤ i
  · simp [BitVec.getLsbD_of_ge b i hi]
  · simp [hi]

/-- The register as a number: one more byte is times 256 plus the byte. -/
theorem crcOfBytes_toNat {w : CrcWidth} {l : List Byte} (hl : l.length ≤ w.bytes) :
    (crcOfBytes w l).toNat = l.foldl (fun v b => v * 256 + b.toNat) 0 ∧ (crcOfBytes w l).toNat < 2 ^ (8 * l.length) := by
  induction l using List.reverseRecOn with
  | nil => simp [crcOfBytes]
  | append_singleton l b ih =>
    rw [List.length_append, List.length_singleton] at hl ⊢
    obtain ⟨hnum, hlt⟩ := ih (by omega)
    have hbits := CrcWidth.bits_eq w
    have h32 := CrcWidth.bits_le w
    have hpow : 2 ^ (8 * (l.length + 1)) = 2 ^ (8 * l.length) * 2 ^ 8 := by rw [Nat.mul_add, Nat.pow_add]
    have hfit : 2 ^ (8 * (l.length + 1)) ≤ 2 ^ w.bits := Nat.pow_le_pow_right (by omega) (by omega)
    have hword : 2 ^ w.bits ≤ 2 ^ 32 := Nat.pow_le_pow_right (by omega) h32
    have hshl : (crcShl w (crcOfBytes w l) 8).toNat = (crcOfBytes w l).toNat <<< 8 := by
      rw [crcShl, crcTrunc_toNat, BitVec.toNat_shiftLeft, Nat.shiftLeft_eq,
        Nat.mod_eq_of_lt (by omega), Nat.mod_eq_of_lt (by omega)]
    have hnat : (crcOfBytes w (l ++ [b])).toNat = (crcOfBytes w l).toNat * 2 ^ 8 + b.toNat := by
      rw [crcOfBytes_append_singleton, crcShl_xor_byte, BitVec.toNat_or, hshl, BitVec.toNat_setWidth,
        Nat.mod_eq_of_lt (by omega), ← Nat.shiftLeft_add_eq_or_of_lt b.isLt, Nat.shiftLeft_eq]
    rw [List.foldl_append, ← hnum, hnat]
    exact ⟨rfl, by omega⟩

/-! ## The operations as the host sees them -/

theorem exec_crcCompute (buf : List Byte) (start len : Nat) (s : State) :
    exec (.crcCompute buf start len) s =
      .next (s.report .crc (crcCompute s.cfg s.crcTable (Buffer.ofBytes buf) start len)) := rfl

theorem exec_crcExtract (buf : List Byte) (start : Nat) (s : State) :
    exec (.crcExtract buf start) s = .next (s.report .crc (crcExtract s.cfg.width (Buffer.ofBytes buf) start)) := rfl

/-- CRC_APPEND of an `8*W`-bit value (R125). -/
theorem exec_crcAppend {crc : Word} {s : State} (h : s.cfg.width.fits crc = true) (buf : List Byte) (start : Nat) :
    exec (.crcAppend buf start crc) s =
      .next (s.report .crc (crcAppend s.cfg.width (Buffer.ofBytes buf) start crc)) := by
  simp [exec, execCrcAppend, crcOperand, h]

/-- A wider value is no operand (30_encoding.md R83). -/
theorem exec_crcAppend_too_wide {crc : Word} {s : State} (h : s.cfg.width.fits crc = false) (buf : List Byte)
    (start : Nat) : exec (.crcAppend buf start crc) s = .refused .crcOperandTooWide := by
  simp [exec, execCrcAppend, crcOperand, h]

/-- A successful CRC answer changes the operand buffer, `crc_status` and the outcome only. -/
theorem State.report_crc_success (s : State) (v : Nat) (st : Status) (b : Buffer) :
    s.report .crc ⟨true, v, st, b⟩ =
      { s with buf := b, crcStatus := st, result := some ⟨true, v, some st⟩ } := rfl

/-- A failed CRC answer carries the value 0. -/
theorem State.report_crc_failed (s : State) (st : Status) (b : Buffer) :
    s.report .crc (.failed st b) =
      { s with buf := b, crcStatus := st, result := some ⟨false, 0, some st⟩ } := rfl

/-- CRC_COMPUTE of a range inside the buffer (R123). -/
theorem exec_crcCompute_ok {buf : List Byte} {start len : Nat} (h : start + len ≤ buf.length) (s : State) :
    exec (.crcCompute buf start len) s =
      .next { s with buf := Buffer.ofBytes buf, crcStatus := .checksumComputed,
                     result := some ⟨true, (crcOver s.cfg s.crcTable ((buf.drop start).take len)).toNat,
                       some .checksumComputed⟩ } := by
  rw [exec_crcCompute, crcCompute_ok (by simpa using h), State.report_crc_success, Buffer.slice_ofBytes _ _ _ h]

/-- CRC_APPEND of an `8*W`-bit value inside the buffer (R125). -/
theorem exec_crcAppend_ok {buf : List Byte} {start : Nat} {crc : Word} {s : State}
    (hfits : s.cfg.width.fits crc = true) (h : start + s.cfg.width.bytes ≤ buf.length) :
    exec (.crcAppend buf start crc) s =
      .next { s with buf := (Buffer.ofBytes buf).setBytes start (crcToBytes s.cfg.width crc),
                     crcStatus := .checksumAppended,
                     result := some ⟨true, start + s.cfg.width.bytes, some .checksumAppended⟩ } := by
  rw [exec_crcAppend hfits, crcAppend_ok (by simpa using h), State.report_crc_success]

/-- CRC_EXTRACT inside the buffer (R127). -/
theorem exec_crcExtract_ok {buf : List Byte} {start : Nat} {s : State} (h : start + s.cfg.width.bytes ≤ buf.length) :
    exec (.crcExtract buf start) s =
      .next { s with buf := Buffer.ofBytes buf, crcStatus := .checksumExtracted,
                     result := some ⟨true, (crcOfBytes s.cfg.width ((buf.drop start).take s.cfg.width.bytes)).toNat,
                       some .checksumExtracted⟩ } := by
  rw [exec_crcExtract, crcExtract_ok (by simpa using h), State.report_crc_success, Buffer.slice_ofBytes _ _ _ h]

/-- Settles O22. -/
theorem crcComputeOfRange : Obligations.CrcComputeOfRange := by
  unfold Obligations.CrcComputeOfRange
  intro buf start len s
  refine ⟨fun h => exec_crcCompute_ok h s, fun h => ?_, rfl, Buffer.toBytes_ofBytes buf⟩
  rw [exec_crcCompute, crcCompute_short (by simpa using h), State.report_crc_failed]

/-- Settles O26: the bytes written are those of `crcToBytes`, and `setBytes` writes nothing else. -/
theorem crcAppendMostSignificantFirst : Obligations.CrcAppendMostSignificantFirst := by
  unfold Obligations.CrcAppendMostSignificantFirst
  intro buf start crc s hcrc
  have hfits : s.cfg.width.fits crc = true := CrcWidth.fits_iff.2 hcrc
  refine ⟨fun h => ⟨_, exec_crcAppend_ok hfits h, ?_⟩, fun h => ?_⟩
  · refine ⟨rfl, by simp, fun k hk => ?_, fun j hj => ?_⟩
    · rw [Buffer.get_setBytes, if_pos (by simp; omega), Nat.add_sub_cancel_left,
        List.getD_eq_getElem _ _ (by simpa using hk), getElem_crcToBytes, BitVec.setWidth_ushiftRight_eq_extractLsb,
        Nat.sub_right_comm]
    · rw [Buffer.get_setBytes, if_neg (by rw [length_crcToBytes]; omega), Buffer.get_ofBytes]
  · rw [exec_crcAppend hfits, crcAppend_short (by simpa using h), State.report_crc_failed]

/-- Settles O27: the register holds the number of the bytes, since `W` bytes fit it. -/
theorem crcExtractReadsNumber : Obligations.CrcExtractReadsNumber := by
  unfold Obligations.CrcExtractReadsNumber
  intro buf start s
  refine ⟨fun h => ?_, fun h => ?_⟩
  · rw [exec_crcExtract_ok h, (crcOfBytes_toNat (by simp)).1]
  · rw [exec_crcExtract, crcExtract_short (by simpa using h), State.report_crc_failed]

/-- A slice in front of a run of writes is not touched by it. -/
theorem Buffer.slice_setBytes_before (b : Buffer) {start n i : Nat} (h : start + n ≤ i) (l : List Byte) :
    (b.setBytes i l).slice start n = b.slice start n :=
  Buffer.slice_congr fun k hk => by rw [Buffer.get_setBytes, if_neg (by omega)]

/-- After a run of writes: the bytes in front of it, then the run. -/
theorem Buffer.slice_setBytes_append (b : Buffer) (start n : Nat) (l : List Byte) :
    (b.setBytes (start + n) l).slice start (n + l.length) = b.slice start n ++ l := by
  rw [Buffer.slice_append, Buffer.slice_setBytes_before _ (Nat.le_refl _), Buffer.slice_setBytes]

/-- The same on the bytes of an operand buffer. -/
theorem Buffer.toBytes_setBytes (buf : List Byte) {start n : Nat} {l : List Byte}
    (h : start + n + l.length ≤ buf.length) :
    (((Buffer.ofBytes buf).setBytes (start + n) l).toBytes.drop start).take (n + l.length) =
      (buf.drop start).take n ++ l := by
  rw [← Buffer.slice_ofBytes _ _ _ (by simp; omega),
    Buffer.ofBytes_toBytes (Buffer.setBytes_wf (Buffer.ofBytes_wf buf) (by simpa using h)),
    Buffer.slice_setBytes_append, Buffer.slice_ofBytes _ _ _ (by omega)]

/-- Writing a range of a buffer over itself changes nothing. -/
theorem Buffer.setBytes_self (buf : List Byte) {start n : Nat} (h : start + n ≤ buf.length) :
    (Buffer.ofBytes buf).setBytes start ((buf.drop start).take n) = Buffer.ofBytes buf := by
  have hlen : ((buf.drop start).take n).length = n := by simp; omega
  refine Buffer.ext_get (Buffer.setBytes_wf (Buffer.ofBytes_wf buf) (by simpa [hlen] using h))
    (Buffer.ofBytes_wf buf) (by simp) fun i _ => ?_
  rw [Buffer.get_setBytes]
  split
  · next hi =>
    rw [hlen] at hi
    rw [List.getD_eq_getElem _ _ (by omega), Buffer.get_ofBytes, List.getD_eq_getElem _ _ (by omega)]
    simp [show start + (i - start) = i by omega]
  · rfl

/-- Settles O28: `crcOfBytes` and `crcToBytes` are inverse, and writing a range over itself changes nothing. -/
theorem extractInvertsAppend : Obligations.ExtractInvertsAppend := by
  unfold Obligations.ExtractInvertsAppend
  intro buf start s hlen
  refine ⟨fun crc hcrc => ?_, ?_⟩
  · have hfits : s.cfg.width.fits crc = true := CrcWidth.fits_iff.2 hcrc
    refine ⟨_, exec_crcAppend_ok hfits hlen, _, exec_crcExtract_ok (by simpa using hlen), ?_⟩
    have hbytes := Buffer.toBytes_setBytes buf (start := start) (n := 0) (l := crcToBytes s.cfg.width crc)
      (by simpa using hlen)
    rw [length_crcToBytes, Nat.add_zero, Nat.zero_add, List.take_zero, List.nil_append] at hbytes
    simp only [hbytes, crcOfBytes_crcToBytes hfits]
  · have hbytes : ((buf.drop start).take s.cfg.width.bytes).length = s.cfg.width.bytes := by simp; omega
    refine ⟨crcOfBytes s.cfg.width ((buf.drop start).take s.cfg.width.bytes), _, exec_crcExtract_ok hlen, rfl, _,
      exec_crcAppend_ok (crcOfBytes_fits (Nat.le_of_eq hbytes)) hlen, ?_⟩
    simp only [crcToBytes_crcOfBytes hbytes, Buffer.setBytes_self buf hlen]

/-! ## The self-check -/

/-- The register's own next byte indexes entry 0 of the table. -/
theorem crcIndex_own_byte {w : CrcWidth} (c : Word) {k : Nat} (hk : k < w.bytes) :
    crcIndex w (crcShl w c (8 * k)) ((c >>> (8 * (w.bytes - 1 - k))).setWidth 8) = 0 := by
  have hbits := CrcWidth.bits_eq w
  refine BitVec.eq_of_getLsbD_eq fun i hi => ?_
  have hget : (crcShl w c (8 * k)).getLsbD (8 * (w.bytes - 1) + i) = c.getLsbD (8 * (w.bytes - 1 - k) + i) := by
    rw [getLsbD_crcShl, decide_eq_true (by omega), decide_eq_true (by omega), Bool.true_and, Bool.true_and]
    congr 1
    omega
  simp [crcIndex, -getLsbD_crcShl, hget, hi, show i < 32 by omega]

/-- Fed its own bytes, most significant first, the register is shifted out. -/
theorem foldl_crcUpdate_own_bytes {w : CrcWidth} (poly : Word) {c : Word} (hc : w.fits c = true) (k : Nat)
    (hk : k ≤ w.bytes) :
    ((List.range k).map fun k => (c >>> (8 * (w.bytes - 1 - k))).setWidth 8).foldl (crcUpdate w (crcTable w poly)) c =
      crcShl w c (8 * k) := by
  induction k with
  | zero => exact (crcShl_zero hc).symm
  | succ k ih =>
    rw [List.range_succ, List.map_append, List.foldl_append, ih (by omega), List.map_singleton, List.foldl_cons,
      List.foldl_nil, crcUpdate, crcTable_get, crcIndex_own_byte c (by omega), crcTableEntry_zero, crcShl_crcShl]
    exact BitVec.xor_zero

/-- With `FINAL_XOR = 0` the CRC over data and its own CRC is 0 (41_crc.md R130). -/
theorem crcOver_append_own {cfg : Config} (hlegal : cfg.legal = true) (hxor : cfg.finalXor = 0) (l : List Byte) :
    crcOver cfg (crcTable cfg.width cfg.polynomial)
      (l ++ crcToBytes cfg.width (crcOver cfg (crcTable cfg.width cfg.polynomial) l)) = 0 := by
  obtain ⟨hp, hi, -⟩ := Config.legal_fits hlegal
  have hfits := foldl_crcUpdate_fits hp l hi
  have hover : ∀ l, crcOver cfg (crcTable cfg.width cfg.polynomial) l =
      l.foldl (crcUpdate cfg.width (crcTable cfg.width cfg.polynomial)) cfg.initialValue := fun l => by
    rw [crcOver, hxor]; exact BitVec.xor_zero
  rw [hover, hover, List.foldl_append, crcToBytes, foldl_crcUpdate_own_bytes _ hfits _ (Nat.le_refl _)]
  exact crcShl_bits _ _ (Nat.le_refl _)

/-- Settles O24: CRC_APPEND puts the CRC behind the range, so the last CRC_COMPUTE is over data and its own
CRC. -/
theorem appendedCrcChecksToZero : Obligations.AppendedCrcChecksToZero := by
  unfold Obligations.AppendedCrcChecksToZero
  intro buf start n s hlegal htable hxor hlen
  have hfits := crcOver_fits hlegal ((buf.drop start).take n)
  have hcheck := crcOver_append_own hlegal hxor ((buf.drop start).take n)
  rw [← htable] at hfits hcheck
  refine ⟨_, _, _, _, exec_crcCompute_ok (by omega) s, rfl, exec_crcAppend_ok hfits hlen, rfl,
    exec_crcCompute_ok (by simp; omega) _, ?_⟩
  have hrange := Buffer.toBytes_setBytes buf (start := start) (n := n)
    (l := crcToBytes s.cfg.width (crcOver s.cfg s.crcTable ((buf.drop start).take n))) (by simpa using hlen)
  rw [length_crcToBytes] at hrange
  simp only [hrange, hcheck]
  rfl

end Sys2Proof.Machine
end

section
/-! SUPPORT. The staging-buffer operations and the getters (42_buffer_ops.md), one equation for each way an
operation ends. -/

namespace Sys2Proof.Machine

open Sys2Proof.Claims

/-- A source shorter than `len` is refused (R140). -/
theorem exec_writePayload_short {src : List Byte} {len : Nat} (h : src.length < len) (offset : Nat) (s : State) :
    exec (.writePayload src offset len) s = .refused .sourceTooShort := by
  simp [exec, execWritePayload, sourceBytes, Nat.not_le.2 h]

/-- WRITE_PAYLOAD past MAX_TX_PAYLOAD (R141). -/
theorem exec_writePayload_failed {src : List Byte} {offset len : Nat} {s : State} (h : len ≤ src.length)
    (hcap : s.cfg.maxTxPayload < offset + len) :
    exec (.writePayload src offset len) s = .next (s.fail .transfer .writePayloadTooSmall) := by
  simp [exec, execWritePayload, sourceBytes, h, hcap]

/-- WRITE_PAYLOAD within MAX_TX_PAYLOAD (R141). -/
theorem exec_writePayload_ok {src : List Byte} {offset len : Nat} {s : State} (h : len ≤ src.length)
    (hcap : offset + len ≤ s.cfg.maxTxPayload) :
    exec (.writePayload src offset len) s =
      .next ((s.stagePayload offset len (src.take len)).succeed .transfer .payloadWritten (offset + len)) := by
  simp [exec, execWritePayload, sourceBytes, h, Nat.not_lt.2 hcap]

/-- READ_PAYLOAD past `rx_filled` (R143). -/
theorem exec_readPayload_failed {offset len : Nat} {s : State} (h : s.rxFilled < offset + len) :
    exec (.readPayload offset len) s = .next (State.fail { s with dst := [] } .transfer .readPayloadTooSmall) := by
  simp [exec, execReadPayload, h]

/-- READ_PAYLOAD within `rx_filled` and the buffer (R143). -/
theorem exec_readPayload_ok {offset len : Nat} {s : State} (h : offset + len ≤ s.rxFilled)
    (hsize : offset + 1 + len ≤ s.cfg.rxBufSize) :
    exec (.readPayload offset len) s =
      .next (State.succeed { s with dst := s.rxBuf.slice (offset + 1) len } .transfer .payloadRead (offset + len)) := by
  simp [exec, execReadPayload, Nat.not_lt.2 h, payloadIndex, Buffer.sliceChecked_some (b := s.rxBuf) hsize]

/-- READ_PAYLOAD past the end of `rx` (assumption 17). -/
theorem exec_readPayload_fault {offset len : Nat} {s : State} (h : offset + len ≤ s.rxFilled)
    (hsize : s.cfg.rxBufSize < offset + 1 + len) :
    exec (.readPayload offset len) s = .fault .bufferIndexOutOfRange := by
  simp [exec, execReadPayload, Nat.not_lt.2 h, payloadIndex, Buffer.sliceChecked_none (b := s.rxBuf) hsize]

/-- What WRITE_PAYLOAD leaves in `tx`: the source in its range, every other byte as before (R141). -/
theorem State.read_stagePayload (s : State) (offset len : Nat) (l : List Byte) (j : Nat) :
    Memory.read (s.stagePayload offset len l).tx j =
      if offset + 1 ≤ j ∧ j < offset + 1 + l.length then l.getD (j - (offset + 1)) 0 else Memory.read s.tx j :=
  Buffer.get_setBytes s.txBuf (offset + 1) l j

/-- Settles O29. -/
theorem writePayloadEffect : Obligations.WritePayloadEffect := by
  unfold Obligations.WritePayloadEffect
  refine ⟨fun src offset len s hlen => ⟨fun hcap => ?_, fun hcap => exec_writePayload_failed hlen hcap⟩,
    fun cfg hcap => ?_⟩
  · have htake : (src.take len).length = len := by simpa using hlen
    refine ⟨_, exec_writePayload_ok hlen hcap, rfl, fun k hk => ?_, fun j hj => ?_⟩
    · rw [State.txBuf_get, State.succeed_tx, State.read_stagePayload, htake, if_pos (by omega), Nat.add_sub_cancel_left,
        List.getD_eq_getElem _ _ (by omega), List.getD_eq_getElem _ _ (by omega), List.getElem_take]
    · rw [State.txBuf_get, State.succeed_tx, State.read_stagePayload, htake, if_neg (by omega), State.txBuf_get]
  · have hlen : 10 ≤ ([1, 2, 3, 0, 0, 6, 0, 8, 0, 0] : List Byte).length := Nat.le_refl _
    have hcap' : 0 + 10 ≤ (State.construct cfg).cfg.maxTxPayload := hcap
    exact ⟨_, exec_writePayload_ok hlen hcap', Buffer.slice_setBytes (State.construct cfg).txBuf 1 [1, 2, 3, 0, 0, 6, 0, 8, 0, 0],
      rfl, rfl⟩

/-- Settles O30: inside `rx_filled` the slice lies in the buffer as long as `rx_filled` is in its range. -/
theorem readPayloadEffect : Obligations.ReadPayloadEffect := by
  unfold Obligations.ReadPayloadEffect
  intro offset len s
  refine ⟨fun h hmax => ?_, fun h => exec_readPayload_failed h, fun h hsize => exec_readPayload_fault h hsize⟩
  have hsize : offset + 1 + len ≤ s.cfg.rxBufSize := by rw [Config.rxBufSize]; omega
  refine ⟨_, exec_readPayload_ok h hsize, rfl, Buffer.length_slice _ _ _, fun k hk => ?_⟩
  rw [State.succeed_dst, List.getD_eq_getElem _ _ (by simpa using hk), Buffer.getElem_slice]

/-- Settles O31: both write index 0 of their buffer and their tracker, and nothing else. -/
theorem resetOperations : Obligations.ResetOperations := by
  unfold Obligations.ResetOperations
  intro s
  refine ⟨⟨s.clearTx.succeed .transfer .transferStandby 0, rfl, rfl, ?_, fun j hj => ?_⟩,
    ⟨s.clearRx.succeed .transfer .transferStandby 0, rfl, rfl, ?_, fun j hj => ?_⟩⟩
  · simp
  · simp [show j ≠ 0 by omega]
  · simp
  · simp [show j ≠ 0 by omega]

/-- Settles O32. -/
theorem gettersAnswer : Obligations.GettersAnswer := by
  unfold Obligations.GettersAnswer
  exact fun _ => ⟨rfl, rfl, rfl, rfl, rfl, rfl⟩

end Sys2Proof.Machine
end

section
/-! SUPPORT. SEND (43_send.md): the packet `encode` builds of the payload staged, and the three ways the
operation ends. -/

namespace Sys2Proof.Machine

open Sys2Proof.Claims

/-! ## A payload has one packet -/

theorem NextStop.congr {f f' : Nat → Byte} {d : Byte} {p j k : Nat} (h : NextStop f d p j k)
    (hf : ∀ i, 1 ≤ i → i ≤ p → f' i = f i) : NextStop f' d p j k := by
  obtain ⟨hlt, hle, hkind, hbetween⟩ := h
  refine ⟨hlt, hle, ?_, fun m h1 h2 => by rw [hf m (by omega) (by omega)]; exact hbetween m h1 h2⟩
  by_cases hk : k = p + 1
  · exact .inl hk
  · exact .inr (by rw [hf k (by omega) (by omega)]; exact hkind.resolve_left hk)

theorem NextStop.unique {f : Nat → Byte} {d : Byte} {p j k k' : Nat} (h : NextStop f d p j k)
    (h' : NextStop f d p j k') : k = k' := by
  obtain ⟨hlt, hle, hkind, hbetween⟩ := h
  obtain ⟨hlt', hle', hkind', hbetween'⟩ := h'
  rcases Nat.lt_trichotomy k k' with hk | hk | hk
  · exact absurd (hkind.resolve_left (by omega)) (hbetween' k hlt hk)
  · exact hk
  · exact absurd (hkind'.resolve_left (by omega)) (hbetween k' hlt' hk)

/-- Equal payloads have equal packets. -/
theorem PacketOf.unique {f f' e e' : Nat → Byte} {d : Byte} {p : Nat} (h : PacketOf f e d p)
    (h' : PacketOf f' e' d p) (hf : ∀ i, 1 ≤ i → i ≤ p → f' i = f i) (j : Nat) (hj : j ≤ p + 1) : e' j = e j := by
  rcases Nat.eq_zero_or_pos j with rfl | hpos
  · obtain ⟨k, hk, hbyte⟩ := h.overhead
    obtain ⟨k', hk', hbyte'⟩ := h'.overhead
    obtain rfl := (hk.congr hf).unique hk'
    exact BitVec.eq_of_toNat_eq (by rw [hbyte, hbyte'])
  · rcases Nat.lt_or_ge p j with hp | hp
    · obtain rfl : j = p + 1 := by omega
      rw [h.delimiter, h'.delimiter]
    · by_cases hd : f j = d
      · obtain ⟨k, hk, hbyte⟩ := h.jump j hpos hp hd
        obtain ⟨k', hk', hbyte'⟩ := h'.jump j hpos hp ((hf j hpos hp).trans hd)
        obtain rfl := (hk.congr hf).unique hk'
        exact BitVec.eq_of_toNat_eq (by rw [hbyte, hbyte'])
      · rw [h.keep j hpos hp hd, h'.keep j hpos hp (by rw [hf j hpos hp]; exact hd), hf j hpos hp]

/-- A buffer that holds the packet of the bytes `f` holds `encode` of the payload read from them. -/
theorem encodeBytes_of_packet {f : Nat → Byte} {b : Buffer} {d : Byte} {payload : List Byte}
    (h : PacketOf f b.get d payload.length) (hf : ∀ k (hk : k < payload.length), f (k + 1) = payload[k])
    (hpos : 1 ≤ payload.length) (hle : payload.length ≤ 254) :
    encodeBytes payload d = some (b.slice 0 (payload.length + 2)) := by
  obtain ⟨e, henc, hlen, hpacket⟩ := encodeBytes_packet payload d hpos hle
  rw [henc, ← hlen, Option.some_inj, eq_comm]
  refine Buffer.slice_eq_of_get fun k hk => ?_
  rw [Nat.zero_add, ← List.getD_eq_getElem _ 0 hk]
  refine hpacket.unique h (fun i h1 h2 => ?_) k (by omega)
  obtain ⟨i, rfl⟩ : ∃ m, i = m + 1 := ⟨i - 1, by omega⟩
  rw [hf i (by omega), payloadAt_succ payload i (by omega)]

/-! ## How SEND ends -/

/-- The CRC bytes SEND puts behind a packet (43_send.md R160). -/
def State.crcBytes (s : State) (packet : List Byte) : List Byte :=
  crcToBytes s.cfg.width (crcOver s.cfg s.crcTable packet)

theorem State.length_crcBytes (s : State) (packet : List Byte) : (s.crcBytes packet).length = s.cfg.width.bytes :=
  length_crcToBytes ..

/-- The state SEND leaves when COBS_ENCODE fails with `st`: its code in both registers (R160, R203). -/
@[simp] def State.encodeFailed (s : State) (st : Status) : State :=
  { s with cobsStatus := st, xferStatus := st, result := some ⟨false, 0, some st⟩ }

/-- The state SEND leaves when `tx`, now the buffer `b`, has no room for the CRC: CRC_APPEND's code in both
registers (R160, R203). -/
@[simp] def State.appendFailed (s : State) (b : Buffer) : State :=
  { s with tx := b.cells, cobsStatus := .payloadEncoded, crcStatus := .appendBufferTooSmall,
           xferStatus := .appendBufferTooSmall, result := some ⟨false, 0, some .appendBufferTooSmall⟩ }

/-- The state SEND leaves when the packet in the buffer `b` and its CRC are sent behind the preamble: both stay in
`tx` behind a zero overhead byte (R160). -/
@[simp] def State.sent (s : State) (b : Buffer) : State :=
  { s with
    tx := Memory.write (b.setBytes (s.txFilled + 2) (s.crcBytes (b.slice 0 (s.txFilled + 2)))).cells 0 0
    txFilled := 0
    cobsStatus := .payloadEncoded
    crcStatus := .checksumAppended
    xferStatus := .packetSent
    outbound := s.outbound ++ [s.cfg.startByte, BitVec.ofNat 8 s.txFilled] ++
      (b.slice 0 (s.txFilled + 2) ++ s.crcBytes (b.slice 0 (s.txFilled + 2)))
    result := some ⟨true, 0, some .packetSent⟩ }

/-- SEND when the encoder fails: its code in both registers, nothing sent (R160, R203). -/
theorem exec_send_encode_failed {s : State} {st : Status}
    (h : cobsEncode s.txBuf s.txFilled s.cfg.delimiterByte = .failed st s.txBuf) :
    exec .send s = .next (s.encodeFailed st) := by
  simp only [exec, execSend, h]
  rfl

section Encoded

variable {s : State} {b : Buffer}
  (hres : cobsEncode s.txBuf s.txFilled s.cfg.delimiterByte = ⟨true, s.txFilled + 2, .payloadEncoded, b⟩)
  (hsize : b.size = s.cfg.txBufSize)
include hres hsize

/-- SEND past the encoder without room for the CRC: nothing sent (R160, R203). -/
theorem exec_send_append_failed (hroom : s.txFilled + 2 ≤ s.cfg.txBufSize)
    (hfull : s.cfg.txBufSize < s.txFilled + 2 + s.cfg.width.bytes) :
    exec .send s = .next (s.appendFailed b) := by
  simp only [exec, execSend, hres, if_true]
  rw [crcCompute_ok (by omega)]
  simp only [if_true]
  rw [crcAppend_short (by omega)]
  rfl

/-- SEND past the encoder with room for the CRC: packet and CRC go out behind the preamble
(R160). -/
theorem exec_send_ok (hfits : s.txFilled + 2 + s.cfg.width.bytes ≤ s.cfg.txBufSize) :
    exec .send s = .next (s.sent b) := by
  have hframe := Buffer.slice_setBytes_append b 0 (s.txFilled + 2) (s.crcBytes (b.slice 0 (s.txFilled + 2)))
  rw [State.length_crcBytes, Nat.zero_add] at hframe
  simp only [exec, execSend, hres, if_true]
  rw [crcCompute_ok (by omega)]
  simp only [if_true, BitVec.ofNat_toNat, BitVec.setWidth_eq]
  rw [crcAppend_ok (by omega), ← State.crcBytes]
  simp only [if_true]
  rw [hframe]
  rfl

end Encoded

/-- The two ways SEND ends past the encoder, with what it leaves: the packet of the payload staged, in a
buffer otherwise as before. -/
theorem exec_send_encoded {s : State} (h : EncodePre s.txBuf s.txFilled) :
    ∃ b : Buffer, cobsEncode s.txBuf s.txFilled s.cfg.delimiterByte = ⟨true, s.txFilled + 2, .payloadEncoded, b⟩ ∧
      b.size = s.cfg.txBufSize ∧ (s.txBuf.wf → b.wf) ∧
      encodeBytes (s.txBuf.slice 1 s.txFilled) s.cfg.delimiterByte = some (b.slice 0 (s.txFilled + 2)) ∧
      b.get (s.txFilled + 1) = s.cfg.delimiterByte ∧
      ∀ j, s.txFilled + 1 < j → b.get j = s.txBuf.get j := by
  obtain ⟨b, hres, hsize, hwf, hpacket, hbehind⟩ := cobsEncode_packet s.cfg.delimiterByte h
  obtain ⟨hpos, hle, -⟩ := h
  refine ⟨b, hres, hsize, hwf, ?_, hpacket.delimiter, hbehind⟩
  have hlen : (s.txBuf.slice 1 s.txFilled).length = s.txFilled := Buffer.length_slice ..
  rw [encodeBytes_of_packet (f := s.txBuf.get) (b := b) (by rwa [hlen]) (fun k hk => ?_) (by omega) (by omega), hlen]
  rw [Buffer.getElem_slice, Nat.add_comm]

/-- Between operations packet and CRC of the payload staged fit the buffer. -/
theorem State.Inv.room {s : State} (h : s.Inv) : s.txFilled + 2 + s.cfg.width.bytes ≤ s.cfg.txBufSize := by
  have hle := h.txFilledLe
  rw [Config.txBufSize]
  omega

/-- Between operations a staged payload meets the encoder's preconditions. -/
theorem State.Inv.encodePre {s : State} (h : s.Inv) (hpos : 1 ≤ s.txFilled) : EncodePre s.txBuf s.txFilled := by
  obtain ⟨-, hmax, -⟩ := Config.legal_iff.1 h.legal
  have hroom := h.room
  have hle := h.txFilledLe
  exact ⟨hpos, by omega, by rw [State.txBuf_size]; omega, h.txOverhead⟩

/-- Settles O33: the packet is `encode` of the payload, and what SEND sends is what it leaves in `tx`. -/
theorem sendTransmitsFrame : Obligations.SendTransmitsFrame := by
  unfold Obligations.SendTransmitsFrame
  intro s hinv hpos
  have hpre := hinv.encodePre hpos
  have hfits := hinv.room
  obtain ⟨b, hres, hsize, -, henc, hdelim, hbehind⟩ := exec_send_encoded hpre
  obtain ⟨-, hle, -⟩ := hpre
  have hcrc := s.length_crcBytes (b.slice 0 (s.txFilled + 2))
  have hframe := Buffer.slice_setBytes_append b 0 (s.txFilled + 2) (s.crcBytes (b.slice 0 (s.txFilled + 2)))
  rw [hcrc, Nat.zero_add] at hframe
  have hread : ∀ j, j ≠ 0 →
      Memory.read (Memory.write (b.setBytes (s.txFilled + 2) (s.crcBytes (b.slice 0 (s.txFilled + 2)))).cells 0 0) j =
        (b.setBytes (s.txFilled + 2) (s.crcBytes (b.slice 0 (s.txFilled + 2)))).get j :=
    fun j hj => Memory.read_write_other _ 0 hj
  refine ⟨b.slice 0 (s.txFilled + 2), _, henc, rfl, by simp, hcrc, ?_, _, exec_send_ok hres hsize hfits, ?_, ?_,
    ?_, rfl, ?_, ?_, fun j hj => ?_⟩
  · rw [List.getD_eq_getElem _ _ (by simp), Buffer.getElem_slice, Nat.zero_add, hdelim]
  · simp only [State.sent, State.crcBytes, List.append_assoc]
  · rw [BitVec.toNat_ofNat, Nat.mod_eq_of_lt (by omega)]
  · simp only [State.sent, List.length_append, hcrc, Buffer.length_slice, List.length_cons, List.length_nil]
    omega
  · simp [State.sent]
  · change _ = (b.slice 0 (s.txFilled + 2) ++ s.crcBytes (b.slice 0 (s.txFilled + 2))).drop 1
    rw [← hframe, show s.txFilled + 2 + s.cfg.width.bytes = (s.txFilled + 1 + s.cfg.width.bytes) + 1 by omega]
    refine Buffer.slice_congr fun k _ => ?_
    rw [Nat.zero_add]
    exact hread _ (by omega)
  · have hkept := Buffer.get_setBytes b (s.txFilled + 2) (s.crcBytes (b.slice 0 (s.txFilled + 2))) j
    rw [if_neg (by omega), hbehind j (by omega)] at hkept
    exact (hread j (by omega)).trans hkept

/-- Settles O34: the three ways SEND ends, read off for what they report. -/
theorem sendOutcomes : Obligations.SendOutcomes := by
  unfold Obligations.SendOutcomes
  intro s
  refine ⟨fun hinv hpos => ?_, fun hzero => ?_, fun t v st hexec hresult => ?_⟩
  · obtain ⟨b, hres, hsize, -⟩ := exec_send_encoded (hinv.encodePre hpos)
    exact ⟨_, exec_send_ok hres hsize hinv.room, rfl, rfl, rfl, rfl⟩
  · simp only [exec, execSend, cobsEncode, if_pos hzero]
    rfl
  · obtain ⟨-, code, hfail, -⟩ | hpre := cobsEncode_cases s.txBuf s.txFilled s.cfg.delimiterByte
    · rw [exec_send_encode_failed hfail] at hexec
      cases hexec
      cases hresult
      exact ⟨rfl, rfl, rfl, rfl, .inl rfl⟩
    · obtain ⟨b, hres, hsize, -⟩ := exec_send_encoded hpre
      by_cases hfits : s.txFilled + 2 + s.cfg.width.bytes ≤ s.cfg.txBufSize
      · rw [exec_send_ok hres hsize hfits] at hexec
        cases hexec
        cases hresult
      · obtain ⟨-, -, hroom, -⟩ := hpre
        rw [exec_send_append_failed hres hsize hroom (Nat.not_le.1 hfits)] at hexec
        cases hexec
        cases hresult
        exact ⟨rfl, rfl, rfl, rfl, .inr rfl⟩

end Sys2Proof.Machine
end

section
/-! SUPPORT. The receive sequencer (44_receive.md): the state inside a RECEIVE, each transition on the bytes
that come in, and the seven ways a RECEIVE ends. -/

namespace Sys2Proof.Machine

open Sys2Proof.Claims

/-! ## Runs of writes -/

theorem Buffer.setBytes_append (b : Buffer) (i : Nat) (l l' : List Byte) :
    b.setBytes i (l ++ l') = (b.setBytes i l).setBytes (i + l.length) l' := by
  induction l generalizing b i with
  | nil => rfl
  | cons v l ih =>
    rw [List.cons_append, Buffer.setBytes, ih, Buffer.setBytes, List.length_cons, Nat.add_assoc, Nat.add_comm 1]

/-- Which cells a run of writes leaves does not depend on the size of the buffer. -/
theorem Buffer.cells_setBytes_mk (n : Nat) (b : Buffer) (i : Nat) (l : List Byte) :
    (Buffer.setBytes ⟨n, b.cells⟩ i l).cells = (b.setBytes i l).cells := by
  induction l generalizing b i with
  | nil => rfl
  | cons v l ih => exact ih (b.set i v) (i + 1)

/-! ## The storing loops on the bytes that come in -/

section Loops

variable {timeout : Nat} {d : Byte} {room : Nat} {q : RxLoop} {body : List Byte} {m r : Port}

/-- The delimiter scanner stores a packet that ends at its first delimiter (R177). -/
theorem storePacket_delimiter (hd : d ∉ body) (hl : body.length < room)
    (h : Trickles timeout q.tLast q.port (body ++ [d]) r) :
    storePacket timeout d room q =
      (.delimiter, q.stored q.bytesRead (body ++ [d]) (q.bytesRead + (body.length + 1)) r) := by
  obtain ⟨m, hm, hlast⟩ := trickles_append.1 h
  obtain ⟨n, hn⟩ : ∃ n, room - body.length = n + 1 := ⟨room - body.length - 1, by omega⟩
  obtain ⟨hb, hdone⟩ := trickles_cons_iff.1 hlast
  cases hdone
  rw [storePacket_trickles hd (Nat.le_of_lt hl) hm, hn]
  simp only [storePacket, RxLoop.stored, hb, if_true, Buffer.setBytes_append, List.append_eq_nil_iff, reduceCtorEq,
    and_false, if_false]
  rfl

/-- The delimiter scanner times out behind the bytes that came (R177). -/
theorem storePacket_timeout (hd : d ∉ body) (hl : body.length < room) (h : Trickles timeout q.tLast q.port body m)
    (hs : Silent timeout (if body = [] then q.tLast else m.now) m r) :
    storePacket timeout d room q =
      (.timeout, { q.stored q.bytesRead body (q.bytesRead + body.length) m with port := r }) := by
  obtain ⟨n, hn⟩ : ∃ n, room - body.length = n + 1 := ⟨room - body.length - 1, by omega⟩
  rw [storePacket_trickles hd (Nat.le_of_lt hl) h, hn]
  simp only [storePacket, RxLoop.stored, silent_iff.1 hs]

/-- The delimiter scanner stops at its bound (R177). -/
theorem storePacket_full (hd : d ∉ body) (hl : body.length = room) (h : Trickles timeout q.tLast q.port body m) :
    storePacket timeout d room q = (.full, q.stored q.bytesRead body (q.bytesRead + body.length) m) := by
  rw [storePacket_trickles hd (Nat.le_of_eq hl) h, hl, Nat.sub_self]
  rfl

/-- ReceivingPostamble stores the bytes awaited (R179). -/
theorem storePostamble_full {n k : Nat} (hl : body.length = n) (h : Trickles timeout q.tLast q.port body m) :
    storePostamble timeout n k q = (true, q.stored (q.bytesRead + k) body q.bytesRead m) := by
  rw [storePostamble_trickles (Nat.le_of_eq hl) h, hl, Nat.sub_self]
  rfl

/-- ReceivingPostamble times out behind the bytes that came (R179). -/
theorem storePostamble_timeout {n k : Nat} (hl : body.length < n) (h : Trickles timeout q.tLast q.port body m)
    (hs : Silent timeout (if body = [] then q.tLast else m.now) m r) :
    storePostamble timeout n k q =
      (false, { q.stored (q.bytesRead + k) body q.bytesRead m with port := r }) := by
  obtain ⟨i, hi⟩ : ∃ i, n - body.length = i + 1 := ⟨n - body.length - 1, by omega⟩
  rw [storePostamble_trickles (Nat.le_of_lt hl) h, hi]
  simp only [storePostamble, RxLoop.stored, silent_iff.1 hs]

end Loops

/-! ## The state inside a RECEIVE -/

/-- The state inside a RECEIVE issued in `s`: the sequencer in `f`, the bytes `l` stored from `rx[0]` on, the
loop registers `n` and `tl`, and the port `p` they were taken from. -/
def State.rxAt (s : State) (f : Fsm) (l : List Byte) (n tl : Nat) (p : Port) : State :=
  { s with rx := (s.enterReceive.rxBuf.setBytes 0 l).cells, rxFilled := 0, fsm := f, bytesRead := n, tLast := tl,
           inbound := p.fifo, now := p.now, arrivals := p.arrivals }

theorem State.rxAt_rxBuf (s : State) (f : Fsm) (l : List Byte) (n tl : Nat) (p : Port) :
    (s.rxAt f l n tl p).rxBuf = s.enterReceive.rxBuf.setBytes 0 l := by
  have hsize := Buffer.size_setBytes s.enterReceive.rxBuf 0 l
  rw [State.rxBuf, State.rxAt]
  generalize s.enterReceive.rxBuf.setBytes 0 l = b at hsize
  obtain ⟨n, m⟩ := b
  obtain rfl : n = s.cfg.rxBufSize := hsize
  rfl

/-- The bytes of `rx` inside a RECEIVE: those stored, then the old ones, but index 0 was cleared (R171). -/
theorem State.rxAt_get (s : State) (f : Fsm) (l : List Byte) (n tl : Nat) (p : Port) (j : Nat) :
    (s.rxAt f l n tl p).rxBuf.get j =
      if j < l.length then l.getD j 0 else if j = 0 then 0 else s.rxBuf.get j := by
  rw [State.rxAt_rxBuf, Buffer.get_setBytes, Nat.zero_add, Nat.sub_zero]
  simp

/-- The bytes stored stand at the front of `rx`. -/
theorem State.rxAt_slice (s : State) (f : Fsm) (l : List Byte) (n tl : Nat) (p : Port) :
    (s.rxAt f l n tl p).rxBuf.slice 0 l.length = l := by
  rw [State.rxAt_rxBuf, Buffer.slice_setBytes]

/-- What a storing loop leaves, put back into the state: the port may be a later one than the timer's. -/
theorem State.putRxLoop_stored {timeout : Nat} {s : State} {f g : Fsm} {l l' : List Byte} {n n' : Nat} {m m' : Port}
    (r : Port) (h : Trickles timeout m.now m l' m') :
    { (s.rxAt f l n m.now m).putRxLoop { (s.rxAt f l n m.now m).rxLoop.stored l.length l' n' m' with port := r }
      with fsm := g } = s.rxAt g (l ++ l') n' m'.now r := by
  have hcells : ((⟨0, (s.enterReceive.rxBuf.setBytes 0 l).cells⟩ : Buffer).setBytes l.length l').cells =
      (s.enterReceive.rxBuf.setBytes 0 (l ++ l')).cells := by
    rw [Buffer.cells_setBytes_mk, Buffer.setBytes_append, Nat.zero_add]
  have htLast := h.tLast_eq
  simp only [State.putRxLoop, State.rxLoop, RxLoop.stored, State.rxAt, State.putPort, hcells, htLast]

/-- The start byte is found behind bytes that are not it, and the port is then `a` (R173). -/
def StartFound (s : State) (a : Port) : Prop :=
  ∃ garbage, s.cfg.startByte ∉ garbage ∧ Available s.port (garbage ++ [s.cfg.startByte]) a

/-! ## The transitions -/

theorem State.enterReceive_port (s : State) : s.enterReceive.port = s.port := rfl

theorem State.scanStage_drained {s : State} {garbage : List Byte} {m : Port} (hg : s.cfg.startByte ∉ garbage)
    (h : Available s.port garbage m) (hn : m.poll.byte = none) :
    s.enterReceive.scanStage = s.rxAt (.error (noStartStatus s.cfg)) [] s.bytesRead s.tLast m.poll.port := by
  have hscan := scanForStart_drained hg h hn
  simp only [State.scanStage, State.enterReceive_cfg, State.enterReceive_port, hscan]
  rfl

theorem State.scanStage_found {s : State} {a : Port} (h : StartFound s a) :
    s.enterReceive.scanStage = s.rxAt .receivingPacket [] 0 a.now a := by
  obtain ⟨garbage, hg, ha⟩ := h
  have hscan := scanForStart_found hg ha
  simp only [State.scanStage, State.enterReceive_cfg, State.enterReceive_port, hscan]
  rfl

/-- Where each end of the delimiter scanner leads (R177). -/
def PacketEnd.next : PacketEnd → Fsm
  | .delimiter => .receivingPostamble
  | .timeout => .error .packetTimeout
  | .full => .error .packetOutOfBufferSpace

theorem State.packetStage_eq {s : State} {e : PacketEnd} {q : RxLoop}
    (h : storePacket s.cfg.timeoutUs s.cfg.delimiterByte (s.cfg.rxPacketLimit - s.bytesRead) s.rxLoop = (e, q)) :
    s.packetStage = { s.putRxLoop q with fsm := e.next } := by
  simp only [State.packetStage, h]
  cases e <;> rfl

theorem State.postambleStage_eq {s : State} {ok : Bool} {q : RxLoop}
    (h : storePostamble s.cfg.timeoutUs s.cfg.width.bytes 0 s.rxLoop = (ok, q)) :
    s.postambleStage = { s.putRxLoop q with fsm := if ok then .validating else .error .postambleTimeout } := by
  simp only [State.postambleStage, h]
  cases ok <;> rfl

section Stages

variable {s : State} {f : Fsm} {body part l : List Byte} {a m r : Port}

/-- ReceivingPacket on a packet that ends at its first delimiter. -/
theorem State.packetStage_delimiter (hd : s.cfg.delimiterByte ∉ body) (hl : body.length + 1 ≤ s.cfg.maxRxPayload + 2)
    (h : Trickles s.cfg.timeoutUs a.now a (body ++ [s.cfg.delimiterByte]) m) :
    (s.rxAt f [] 0 a.now a).packetStage =
      s.rxAt .receivingPostamble (body ++ [s.cfg.delimiterByte]) (body.length + 1) m.now m := by
  rw [State.packetStage_eq (storePacket_delimiter (q := (s.rxAt f [] 0 a.now a).rxLoop) hd hl h)]
  exact (State.putRxLoop_stored m h).trans (congrArg (s.rxAt _ _ · _ _) (Nat.zero_add _))

/-- ReceivingPacket on a line that falls silent. -/
theorem State.packetStage_timeout (hd : s.cfg.delimiterByte ∉ body) (hl : body.length < s.cfg.maxRxPayload + 2)
    (h : Trickles s.cfg.timeoutUs a.now a body m) (hs : Silent s.cfg.timeoutUs m.now m r) :
    (s.rxAt f [] 0 a.now a).packetStage = s.rxAt (.error .packetTimeout) body body.length m.now r := by
  rw [State.packetStage_eq (storePacket_timeout (q := (s.rxAt f [] 0 a.now a).rxLoop) hd hl h (h.tLast_eq ▸ hs))]
  exact (State.putRxLoop_stored r h).trans (congrArg (s.rxAt _ _ · _ _) (Nat.zero_add _))

/-- ReceivingPacket on a packet that runs out of space. -/
theorem State.packetStage_full (hd : s.cfg.delimiterByte ∉ body) (hl : body.length = s.cfg.maxRxPayload + 2)
    (h : Trickles s.cfg.timeoutUs a.now a body m) :
    (s.rxAt f [] 0 a.now a).packetStage = s.rxAt (.error .packetOutOfBufferSpace) body body.length m.now m := by
  rw [State.packetStage_eq (storePacket_full (q := (s.rxAt f [] 0 a.now a).rxLoop) hd hl h)]
  exact (State.putRxLoop_stored m h).trans (congrArg (s.rxAt _ _ · _ _) (Nat.zero_add _))

/-- ReceivingPostamble on `W` bytes. -/
theorem State.postambleStage_full (hl : part.length = s.cfg.width.bytes) (h : Trickles s.cfg.timeoutUs m.now m part r) :
    (s.rxAt f l l.length m.now m).postambleStage = s.rxAt .validating (l ++ part) l.length r.now r := by
  rw [State.postambleStage_eq (storePostamble_full (q := (s.rxAt f l l.length m.now m).rxLoop) hl h)]
  exact State.putRxLoop_stored r h

/-- ReceivingPostamble on a line that falls silent. -/
theorem State.postambleStage_timeout (hl : part.length < s.cfg.width.bytes)
    (h : Trickles s.cfg.timeoutUs m.now m part a) (hs : Silent s.cfg.timeoutUs a.now a r) :
    (s.rxAt f l l.length m.now m).postambleStage =
      s.rxAt (.error .postambleTimeout) (l ++ part) l.length a.now r := by
  rw [State.postambleStage_eq
    (storePostamble_timeout (q := (s.rxAt f l l.length m.now m).rxLoop) hl h (h.tLast_eq ▸ hs))]
  exact State.putRxLoop_stored r h

end Stages

/-- Validating when packet and postamble lie in the buffer and their CRC is 0 (R180). -/
theorem State.validateStage_zero {s : State} (h : s.bytesRead + s.cfg.width.bytes ≤ s.cfg.rxBufSize)
    (hcrc : crcOver s.cfg s.crcTable (s.rxBuf.slice 0 (s.bytesRead + s.cfg.width.bytes)) = 0) :
    s.validateStage = { s with crcStatus := .checksumComputed, fsm := .decoded } := by
  have hok : crcCompute s.cfg s.crcTable s.rxBuf 0 (s.bytesRead + s.cfg.width.bytes) = _ :=
    crcCompute_ok (by rw [Nat.zero_add]; exact h)
  simp only [State.validateStage, hok, hcrc]
  rfl

/-- Validating when their CRC is not 0 (R180). -/
theorem State.validateStage_nonzero {s : State} (h : s.bytesRead + s.cfg.width.bytes ≤ s.cfg.rxBufSize)
    (hcrc : crcOver s.cfg s.crcTable (s.rxBuf.slice 0 (s.bytesRead + s.cfg.width.bytes)) ≠ 0) :
    s.validateStage = { s with crcStatus := .checksumComputed, fsm := .error .crcCheckFailed } := by
  have hok : crcCompute s.cfg s.crcTable s.rxBuf 0 (s.bytesRead + s.cfg.width.bytes) = _ :=
    crcCompute_ok (by rw [Nat.zero_add]; exact h)
  have hne : (crcOver s.cfg s.crcTable (s.rxBuf.slice 0 (s.bytesRead + s.cfg.width.bytes))).toNat ≠ 0 :=
    fun h0 => hcrc (BitVec.eq_of_toNat_eq h0)
  simp only [State.validateStage, hok, if_true, if_neg hne]
  rfl

/-- The state after COBS_DECODE in Decoded (R181). -/
def State.rxDecoded (s : State) (r : OpResult) : State := { s with rx := r.buf.cells, cobsStatus := r.status }

/-- COBS_DECODE on the packet in `rx` (R181). -/
def State.rxDecode (s : State) : OpResult := cobsDecode s.rxBuf s.bytesRead s.cfg.delimiterByte

/-- Decoded when COBS_DECODE succeeds (R181). -/
theorem State.decodeStage_ok {s : State} (h : s.rxDecode.ok = true) :
    s.decodeStage = State.succeed { s.rxDecoded s.rxDecode with rxFilled := s.rxDecode.value, fsm := .idle }
      .transfer .packetReceived 0 := by
  simp only [State.rxDecode] at h
  simp only [State.decodeStage, h, if_true]
  rfl

/-- Decoded when COBS_DECODE fails (R181). -/
theorem State.decodeStage_failed {s : State} (h : s.rxDecode.ok = false) :
    s.decodeStage = { s.rxDecoded s.rxDecode with fsm := .error s.rxDecode.status } := by
  simp only [State.rxDecode] at h
  simp only [State.decodeStage, h, Bool.false_eq_true, if_false]
  rfl

/-! ## The seven ways a RECEIVE ends -/

/-- A whole frame has come in behind the start byte: a packet that ends at its first delimiter and fits, and `W`
bytes behind it; the port is then `r` (R177, R179). -/
structure FrameCame (s : State) (body crc : List Byte) (r : Port) : Prop where
  came : ∃ a, StartFound s a ∧ Trickles s.cfg.timeoutUs a.now a (body ++ [s.cfg.delimiterByte] ++ crc) r
  first : s.cfg.delimiterByte ∉ body
  fits : body.length + 1 ≤ s.cfg.maxRxPayload + 2
  width : crc.length = s.cfg.width.bytes

/-- The state in Decoded, with the frame `l` stored, a packet of `n` bytes in it (R181). -/
def State.rxChecked (s : State) (l : List Byte) (n : Nat) (p : Port) : State :=
  { s.rxAt .decoded l n p.now p with crcStatus := .checksumComputed }

/-- RECEIVE issued in `s`, on what comes in, and the state it leaves (44_receive.md R172, R184). -/
inductive ReceiveRun (s : State) : State → Prop where
  | drained {garbage : List Byte} {m : Port} :
      s.cfg.startByte ∉ garbage → Available s.port garbage m → m.poll.byte = none →
      ReceiveRun s ((s.rxAt .idle [] s.bytesRead s.tLast m.poll.port).errorStage (noStartStatus s.cfg))
  | packetTimeout {body : List Byte} {a m r : Port} :
      StartFound s a → s.cfg.delimiterByte ∉ body → body.length < s.cfg.maxRxPayload + 2 →
      Trickles s.cfg.timeoutUs a.now a body m → Silent s.cfg.timeoutUs m.now m r →
      ReceiveRun s ((s.rxAt .idle body body.length m.now r).errorStage .packetTimeout)
  | outOfSpace {body : List Byte} {a r : Port} :
      StartFound s a → s.cfg.delimiterByte ∉ body → body.length = s.cfg.maxRxPayload + 2 →
      Trickles s.cfg.timeoutUs a.now a body r →
      ReceiveRun s ((s.rxAt .idle body body.length r.now r).errorStage .packetOutOfBufferSpace)
  | postambleTimeout {body part : List Byte} {a m r : Port} :
      StartFound s a → s.cfg.delimiterByte ∉ body → body.length + 1 ≤ s.cfg.maxRxPayload + 2 →
      part.length < s.cfg.width.bytes →
      Trickles s.cfg.timeoutUs a.now a (body ++ [s.cfg.delimiterByte] ++ part) m →
      Silent s.cfg.timeoutUs m.now m r →
      ReceiveRun s ((s.rxAt .idle (body ++ [s.cfg.delimiterByte] ++ part) (body.length + 1) m.now r).errorStage
        .postambleTimeout)
  | crcFailed {body crc : List Byte} {r : Port} :
      FrameCame s body crc r → crcOver s.cfg s.crcTable (body ++ [s.cfg.delimiterByte] ++ crc) ≠ 0 →
      ReceiveRun s ((s.rxChecked (body ++ [s.cfg.delimiterByte] ++ crc) (body.length + 1) r).errorStage .crcCheckFailed)
  | undecodable {body crc : List Byte} {r : Port} {u : State} :
      FrameCame s body crc r → crcOver s.cfg s.crcTable (body ++ [s.cfg.delimiterByte] ++ crc) = 0 →
      u = s.rxChecked (body ++ [s.cfg.delimiterByte] ++ crc) (body.length + 1) r → u.rxDecode.ok = false →
      ReceiveRun s ((u.rxDecoded u.rxDecode).errorStage u.rxDecode.status)
  | received {body crc : List Byte} {r : Port} {u : State} :
      FrameCame s body crc r → crcOver s.cfg s.crcTable (body ++ [s.cfg.delimiterByte] ++ crc) = 0 →
      u = s.rxChecked (body ++ [s.cfg.delimiterByte] ++ crc) (body.length + 1) r → u.rxDecode.ok = true →
      ReceiveRun s (State.succeed { u.rxDecoded u.rxDecode with rxFilled := u.rxDecode.value, fsm := .idle }
        .transfer .packetReceived 0)

theorem exec_receive (s : State) : exec .receive s = .next (s.enterReceive.runSequencer 6) := rfl

theorem State.runSequencer_found {s : State} {a : Port} (h : StartFound s a) :
    s.enterReceive.runSequencer 6 = (s.rxAt .receivingPacket [] 0 a.now a).packetStage.runSequencer 4 := by
  rw [State.runSequencer_succ, State.fsmStep_scanning rfl, State.scanStage_found h, State.runSequencer_succ,
    State.fsmStep_packet rfl]

/-- Behind the packet the sequencer awaits the postamble. -/
theorem State.runSequencer_packet {s : State} {body part : List Byte} {a r : Port} (h : StartFound s a)
    (hd : s.cfg.delimiterByte ∉ body) (hl : body.length + 1 ≤ s.cfg.maxRxPayload + 2)
    (ht : Trickles s.cfg.timeoutUs a.now a (body ++ [s.cfg.delimiterByte] ++ part) r) :
    ∃ m, Trickles s.cfg.timeoutUs m.now m part r ∧
      s.enterReceive.runSequencer 6 =
        (s.rxAt .receivingPostamble (body ++ [s.cfg.delimiterByte]) (body ++ [s.cfg.delimiterByte]).length m.now
          m).postambleStage.runSequencer 3 := by
  obtain ⟨m, hm, hpart⟩ := trickles_append.1 ht
  rw [hm.tLast_eq] at hpart
  refine ⟨m, hpart, ?_⟩
  rw [State.runSequencer_found h, State.packetStage_delimiter hd hl hm, State.runSequencer_succ,
    State.fsmStep_postamble rfl, List.length_append]
  rfl

/-- Behind a whole frame the sequencer validates it, with the frame in the buffer. -/
theorem State.runSequencer_frame {s : State} {body crc : List Byte} {r : Port} (h : FrameCame s body crc r) :
    ∃ u : State, u = s.rxAt .validating (body ++ [s.cfg.delimiterByte] ++ crc) (body.length + 1) r.now r ∧
      u.bytesRead + u.cfg.width.bytes ≤ u.cfg.rxBufSize ∧
      u.rxBuf.slice 0 (u.bytesRead + u.cfg.width.bytes) = body ++ [s.cfg.delimiterByte] ++ crc ∧
      s.enterReceive.runSequencer 6 = u.validateStage.runSequencer 2 := by
  obtain ⟨⟨a, ha, ht⟩, hd, hl, hw⟩ := h
  obtain ⟨m, hcrc, hrun⟩ := State.runSequencer_packet ha hd hl ht
  have hslice := s.rxAt_slice .validating (body ++ [s.cfg.delimiterByte] ++ crc) (body.length + 1) r.now r
  rw [List.length_append, List.length_append, hw] at hslice
  refine ⟨_, rfl, ?_, hslice, ?_⟩
  · change body.length + 1 + s.cfg.width.bytes ≤ s.cfg.rxBufSize
    rw [Config.rxBufSize]
    omega
  · rw [hrun, State.postambleStage_full hw hcrc, State.runSequencer_succ, State.fsmStep_validating rfl,
      List.length_append]
    rfl

/-- RECEIVE does what the ways of it say. -/
theorem ReceiveRun.exec {s t : State} (h : ReceiveRun s t) : exec .receive s = .next t := by
  rw [exec_receive]
  congr 1
  cases h with
  | drained hg ha hn =>
    rw [State.runSequencer_succ, State.fsmStep_scanning rfl, State.scanStage_drained hg ha hn,
      State.runSequencer_error rfl]
    rfl
  | packetTimeout ha hd hl ht hs =>
    rw [State.runSequencer_found ha, State.packetStage_timeout hd hl ht hs, State.runSequencer_error rfl]
    rfl
  | outOfSpace ha hd hl ht =>
    rw [State.runSequencer_found ha, State.packetStage_full hd hl ht, State.runSequencer_error rfl]
    rfl
  | postambleTimeout ha hd hl hp ht hs =>
    obtain ⟨m, hpart, hrun⟩ := State.runSequencer_packet ha hd hl ht
    rw [hrun, State.postambleStage_timeout hp hpart hs, State.runSequencer_error rfl, List.length_append]
    rfl
  | crcFailed hframe hcrc =>
    obtain ⟨u, rfl, hsize, hslice, hrun⟩ := State.runSequencer_frame hframe
    rw [hrun, State.validateStage_nonzero hsize (by rw [hslice]; exact hcrc), State.runSequencer_error rfl]
    rfl
  | undecodable hframe hcrc hu hdec =>
    obtain ⟨u, rfl, hsize, hslice, hrun⟩ := State.runSequencer_frame hframe
    subst hu
    rw [hrun, State.validateStage_zero hsize (by rw [hslice]; exact hcrc), State.runSequencer_succ,
      State.fsmStep_decoded rfl]
    refine (congrArg _ (State.decodeStage_failed hdec)).trans ?_
    rw [State.runSequencer_error rfl]
    rfl
  | received hframe hcrc hu hdec =>
    obtain ⟨u, rfl, hsize, hslice, hrun⟩ := State.runSequencer_frame hframe
    subst hu
    rw [hrun, State.validateStage_zero hsize (by rw [hslice]; exact hcrc), State.runSequencer_succ,
      State.fsmStep_decoded rfl]
    refine (congrArg _ (State.decodeStage_ok hdec)).trans ?_
    rw [State.runSequencer_idle rfl]

/-- A whole frame ends RECEIVE in Validating or in Decoded. -/
theorem FrameCame.run {s : State} {body crc : List Byte} {r : Port} (h : FrameCame s body crc r) :
    ∃ t, ReceiveRun s t := by
  by_cases hcrc : crcOver s.cfg s.crcTable (body ++ [s.cfg.delimiterByte] ++ crc) = 0
  · cases hdec : (s.rxChecked (body ++ [s.cfg.delimiterByte] ++ crc) (body.length + 1) r).rxDecode.ok with
    | true => exact ⟨_, .received h hcrc rfl hdec⟩
    | false => exact ⟨_, .undecodable h hcrc rfl hdec⟩
  · exact ⟨_, .crcFailed h hcrc⟩

/-- RECEIVE always ends in one of the seven ways (R182): the scan, the packet and the postamble each end in one of
theirs. -/
theorem exists_receiveRun (s : State) : ∃ t, ReceiveRun s t := by
  obtain ⟨garbage, hg, ha, -⟩ | ⟨garbage, m, hg, ha, hn, -⟩ := scanForStart_cases s.cfg.startByte s.port
  · have hfound : StartFound s (scanForStart s.cfg.startByte s.port).port := ⟨garbage, hg, ha⟩
    generalize (scanForStart s.cfg.startByte s.port).port = a at hfound
    obtain ⟨l, m, hl, hend⟩ := storePacket_cases s.cfg.timeoutUs s.cfg.delimiterByte (s.cfg.maxRxPayload + 2)
      ⟨[], 0, a.now, a⟩
    simp only at hl hend
    rw [hl.tLast_eq] at hend
    obtain ⟨hd, hlen, r, hs, -⟩ | ⟨hd, hlen, -⟩ | ⟨⟨body, rfl, hd⟩, hlen, -⟩ := hend
    · exact ⟨_, .packetTimeout hfound hd hlen hl hs⟩
    · exact ⟨_, .outOfSpace hfound hd hlen hl⟩
    · obtain ⟨part, r, hpart, hend⟩ := storePostamble_cases s.cfg.timeoutUs s.cfg.width.bytes 0 ⟨[], 0, m.now, m⟩
      simp only at hpart hend
      rw [hpart.tLast_eq] at hend
      have hframe : Trickles s.cfg.timeoutUs a.now a (body ++ [s.cfg.delimiterByte] ++ part) r :=
        trickles_append.2 ⟨m, hl, by rwa [hl.tLast_eq]⟩
      rw [List.length_append] at hlen
      obtain ⟨hw, r', hs, -⟩ | ⟨hw, -⟩ := hend
      · exact ⟨_, .postambleTimeout hfound hd hlen hw hframe hs⟩
      · exact FrameCame.run ⟨⟨a, hfound, hframe⟩, hd, hlen, hw⟩
  · exact ⟨_, .drained hg ha hn⟩

/-- RECEIVE is exactly one of the seven ways. -/
theorem exec_receive_iff {s t : State} : exec .receive s = .next t ↔ ReceiveRun s t := by
  refine ⟨fun h => ?_, ReceiveRun.exec⟩
  obtain ⟨u, hu⟩ := exists_receiveRun s
  cases h.symm.trans hu.exec
  exact hu

end Sys2Proof.Machine
end

section
/-! SUPPORT. COBS_DECODE inside RECEIVE: its answer depends on the packet alone, whatever stands behind it in
the buffer. -/

namespace Sys2Proof.Machine

open Sys2Proof.Claims

/-! ## What COBS_DECODE answers -/

/-- A COBS_DECODE that succeeded (R107). -/
theorem cobsDecode_success {b : Buffer} {l : Nat} {d : Byte} (h : (cobsDecode b l d).ok = true) :
    DecodePre b l ∧ (cobsDecode b l d).value = l - 2 ∧ (cobsDecode b l d).status = .payloadDecoded ∧
      (cobsDecode b l d).buf.get 0 = 0 ∧ (cobsDecode b l d).buf.get (l - 1) = d := by
  obtain ⟨-, st, hf, -⟩ | hpre := cobsDecode_cases b l d
  · rw [hf] at h; cases h
  · obtain ⟨-, -, hzero, -, -, ⟨-, hval, hst, hlast⟩ | ⟨hfail, -⟩⟩ := cobsDecode_ok d hpre
    · exact ⟨hpre, hval, hst, hzero, hlast⟩
    · rw [hfail] at h; cases h

/-- A COBS_DECODE that failed (R106, R107). -/
theorem cobsDecode_failure {b : Buffer} {l : Nat} {d : Byte} (h : (cobsDecode b l d).ok = false) :
    (cobsDecode b l d).value = 0 ∧
      ((cobsDecode b l d).status = .decodePacketTooSmall ∧ l < 3 ∨
        (cobsDecode b l d).status = .decodePacketTooLarge ∧ 256 < l ∨
        (cobsDecode b l d).status = .decodeBufferTooSmall ∧ b.size < l ∨
        (cobsDecode b l d).status = .decodeAlreadyDecoded ∧ b.get 0 = 0 ∨
        (cobsDecode b l d).status = .delimiterNotFound ∨ (cobsDecode b l d).status = .delimiterTooEarly) := by
  obtain ⟨-, st, hf, hst⟩ | hpre := cobsDecode_cases b l d
  · rw [hf]
    exact ⟨rfl, by obtain h | h | h | h := hst <;> simp [OpResult.failed, h]⟩
  · obtain ⟨-, -, -, -, -, ⟨hok, -⟩ | ⟨-, hval, hst⟩⟩ := cobsDecode_ok d hpre
    · rw [hok] at h; cases h
    · exact ⟨hval, by tauto⟩

/-- COBS_DECODE touches nothing behind the packet, whatever its answer. -/
theorem cobsDecode_behind (b : Buffer) (l : Nat) (d : Byte) {j : Nat} (hj : l ≤ j) :
    (cobsDecode b l d).buf.get j = b.get j := by
  obtain ⟨-, st, hf, -⟩ | hpre := cobsDecode_cases b l d
  · rw [hf]; rfl
  · obtain ⟨-, -, -, hbehind, -⟩ := cobsDecode_ok d hpre
    exact hbehind j hj

/-! ## What the answer depends on -/

/-- The same answer, and the same bytes below `l`. -/
def SameAnswer (l : Nat) (r r' : OpResult) : Prop :=
  r.ok = r'.ok ∧ r.value = r'.value ∧ r.status = r'.status ∧ ∀ j, j < l → r.buf.get j = r'.buf.get j

theorem decodeChain_congr (d : Byte) (l fuel r n : Nat) (b b' : Buffer) (h : ∀ j, j < l → b.get j = b'.get j) :
    SameAnswer l (decodeChain d l fuel r n b) (decodeChain d l fuel r n b') := by
  induction fuel generalizing r n b b' with
  | zero => exact ⟨rfl, rfl, rfl, h⟩
  | succ fuel ih =>
    rw [decodeChain_succ, decodeChain_succ]
    by_cases hin : r + n < l
    · rw [if_pos hin, if_pos hin, h _ hin]
      by_cases hd : b'.get (r + n) = d
      · rw [if_pos hd, if_pos hd]
        by_cases hend : r + n = l - 1
        · rw [if_pos hend, if_pos hend]; exact ⟨rfl, rfl, rfl, h⟩
        · rw [if_neg hend, if_neg hend]; exact ⟨rfl, rfl, rfl, h⟩
      · rw [if_neg hd, if_neg hd]
        exact ih _ _ _ _ fun j hj => by rw [Buffer.get_set, Buffer.get_set, h j hj]
    · rw [if_neg hin, if_neg hin]; exact ⟨rfl, rfl, rfl, h⟩

/-- COBS_DECODE depends on the bytes of the packet only. -/
theorem cobsDecode_congr {b b' : Buffer} {l : Nat} (d : Byte) (hb : l ≤ b.size) (hb' : l ≤ b'.size)
    (h : ∀ j, j < l → b.get j = b'.get j) : SameAnswer l (cobsDecode b l d) (cobsDecode b' l d) := by
  by_cases hsmall : l < 3
  · simp only [cobsDecode, if_pos hsmall]
    exact ⟨rfl, rfl, rfl, h⟩
  · by_cases hlarge : 256 < l
    · simp only [cobsDecode, if_neg hsmall, if_pos hlarge]
      exact ⟨rfl, rfl, rfl, h⟩
    · simp only [cobsDecode, if_neg hsmall, if_neg hlarge, if_neg (Nat.not_lt.2 hb), if_neg (Nat.not_lt.2 hb'),
        h 0 (by omega)]
      split
      · exact ⟨rfl, rfl, rfl, h⟩
      · exact decodeChain_congr _ _ _ _ _ _ _ fun j hj => by rw [Buffer.get_set, Buffer.get_set, h j hj]

/-- `decode(e, D)` answers exactly when COBS_DECODE of its bytes succeeds (30_encoding.md R87 b). -/
theorem decodeBytes_some_iff {e payload : List Byte} {d : Byte} :
    decodeBytes e d = some payload ↔
      (cobsDecode (Buffer.ofBytes e) e.length d).ok = true ∧
        (cobsDecode (Buffer.ofBytes e) e.length d).buf.slice 1 (e.length - 2) = payload := by
  simp only [decodeBytes]
  split
  · next h => simp [h]
  · next h => simp [h]

theorem decodeBytes_none_iff {e : List Byte} {d : Byte} :
    decodeBytes e d = none ↔ (cobsDecode (Buffer.ofBytes e) e.length d).ok = false := by
  simp [decodeBytes]

/-! ## The frame in `rx` -/

section Frame

variable {s : State} {body crc : List Byte} {r : Port}

/-- The bytes of `rx` in Decoded: the frame, then what stood there. -/
theorem State.rxChecked_get (s : State) (l : List Byte) (n : Nat) (p : Port) (j : Nat) :
    (s.rxChecked l n p).rxBuf.get j =
      if j < l.length then l.getD j 0 else if j = 0 then 0 else s.rxBuf.get j :=
  s.rxAt_get .decoded l n p.now p j

/-- RECEIVE decodes the packet of the frame, as COBS_DECODE does on the packet alone. -/
theorem FrameCame.sameAnswer (h : FrameCame s body crc r) :
    SameAnswer (body.length + 1)
      (s.rxChecked (body ++ [s.cfg.delimiterByte] ++ crc) (body.length + 1) r).rxDecode
      (cobsDecode (Buffer.ofBytes (body ++ [s.cfg.delimiterByte])) (body.length + 1) s.cfg.delimiterByte) := by
  obtain ⟨-, -, hfits, -⟩ := h
  refine cobsDecode_congr _ ?_ (by simp) fun j hj => ?_
  · change body.length + 1 ≤ s.cfg.rxBufSize
    rw [Config.rxBufSize]
    omega
  · rw [State.rxChecked_get, if_pos (by simp; omega), Buffer.get_ofBytes,
      List.getD_append _ _ _ _ (by simp; omega)]

/-- Behind the packet `rx` holds the CRC that came, then what stood there, also after COBS_DECODE. -/
theorem FrameCame.behind (h : FrameCame s body crc r) {t : State}
    (ht : t.rx = (s.rxChecked (body ++ [s.cfg.delimiterByte] ++ crc) (body.length + 1) r).rxDecode.buf.cells) :
    t.rxBuf.slice (body.length + 1) s.cfg.width.bytes = crc ∧
      ∀ j, body.length + 1 + s.cfg.width.bytes ≤ j → t.rxBuf.get j = s.rxBuf.get j := by
  obtain ⟨-, -, -, hw⟩ := h
  have hlen : (body ++ [s.cfg.delimiterByte] ++ crc).length = body.length + 1 + s.cfg.width.bytes := by
    rw [List.length_append, List.length_append, hw, List.length_singleton]
  have hget : ∀ j, body.length + 1 ≤ j → t.rxBuf.get j =
      if j < body.length + 1 + s.cfg.width.bytes then (body ++ [s.cfg.delimiterByte] ++ crc).getD j 0
      else s.rxBuf.get j := fun j hj => by
    rw [State.rxBuf_get, ht]
    refine (cobsDecode_behind _ _ _ hj).trans ?_
    rw [State.rxChecked_get, hlen, if_neg (show ¬ j = 0 by omega)]
  refine ⟨?_, fun j hj => by rw [hget j (by omega), if_neg (by omega)]⟩
  rw [← hw]
  refine Buffer.slice_eq_of_get fun k hk => ?_
  rw [hget _ (by omega), if_pos (by omega), List.getD_append_right _ _ _ _ (by simp)]
  simp [hk]

end Frame

end Sys2Proof.Machine
end

section
/-! SUPPORT. The statements about RECEIVE and the Stream Port (44_receive.md, 60_exceptions.md R224, R226),
each from the way its RECEIVE ends. -/

namespace Sys2Proof.Machine

open Sys2Proof.Claims

/-! ## The Stream Port -/

/-- Timeout is answered on an empty FIFO only (R176). -/
theorem awaitByte_none_fifo {timeout tLast : Nat} {p : Port} (h : (awaitByte timeout tLast p).byte = none) :
    (awaitByte timeout tLast p).port.fifo = [] := by
  generalize hr : awaitByte timeout tLast p = r at h
  obtain ⟨byte, port⟩ := r
  obtain rfl : byte = none := h
  induction silent_iff.2 hr with
  | out hn _ => exact (Port.poll_spec _).2.2.1 hn
  | wait _ _ _ hs ih => exact ih (silent_iff.1 hs)
  | @ended p ha hn _ =>
    simpa [Port.poll, Port.pass, ha, tryReadByte_none_iff, bytesAvailable] using hn

/-- Settles O46: the loop's equation, branch by branch. -/
theorem awaitByteRule : Obligations.AwaitByteRule := by
  unfold Obligations.AwaitByteRule
  intro timeout tLast p
  refine ⟨fun b hb => ?_, fun hn ht ha => ?_, fun hn ht ha => ?_, fun hn ht => ?_, fun hn => ⟨?_, awaitByte_none_fifo hn⟩⟩
  · rw [awaitByte_eq, hb]
  · rw [awaitByte_eq, hn]; simp only [if_neg (Nat.not_le.2 ht), if_neg ha]
  · rw [awaitByte_eq, hn]; simp only [if_neg (Nat.not_le.2 ht), if_pos ha]
  · rw [awaitByte_eq, hn]; simp only [if_pos ht]
  · obtain ⟨-, -, ⟨b, hb⟩ | ⟨-, ht⟩⟩ := awaitByte_cases timeout tLast p
    · rw [hn] at hb; cases hb
    · exact ht

/-- Settles O56. -/
theorem streamPortContract : Obligations.StreamPortContract := by
  unfold Obligations.StreamPortContract
  refine ⟨tryReadByte_none_iff, fun p h => ?_, fun p b h => ?_, fun p later => rfl, fun p => ⟨p.stream_pass, ?_, p.now_le_pass⟩,
    fun s l => rfl⟩
  · obtain ⟨-, h'⟩ | ⟨b, bs, -, h'⟩ := tryReadByte_cases p
    · rw [h']
    · rw [h'] at h; cases h
  · obtain ⟨-, h'⟩ | ⟨b', bs, hfifo, h'⟩ := tryReadByte_cases p
    · rw [h'] at h; cases h
    · rw [h'] at h ⊢
      cases h
      exact ⟨hfifo, by simp [bytesAvailable, hfifo], rfl⟩
  · obtain ⟨fifo, now, _ | ⟨a, as⟩⟩ := p
    · exact List.prefix_rfl
    · exact List.prefix_append _ _

/-! ## Entry and transitions -/

/-- Settles O35. -/
theorem receiveEntry : Obligations.ReceiveEntry := by
  unfold Obligations.ReceiveEntry
  intro s
  exact ⟨rfl, rfl, by simp, fun j hj => by simp [show j ≠ 0 by omega]⟩

/-- RECEIVE ends in Idle. -/
theorem ReceiveRun.fsm_idle {s t : State} (h : ReceiveRun s t) : t.fsm = .idle := by
  cases h <;> rfl

/-- The state after a storing loop that stored `l` from index `i` on, the port then `r` and the loop left to `f`. -/
def State.afterStore (s : State) (i : Nat) (l : List Byte) (n : Nat) (m r : Port) (f : Fsm) : State :=
  { s.putRxLoop { s.rxLoop.stored i l n m with port := r } with fsm := f }

/-- It holds the bytes stored. -/
theorem State.afterStore_slice (s : State) (i : Nat) (l : List Byte) (n : Nat) (m r : Port) (f : Fsm) :
    (s.afterStore i l n m r f).rxBuf.slice i l.length = l := by
  refine Eq.trans (Buffer.slice_congr fun k _ => ?_) (Buffer.slice_setBytes ⟨0, s.rx⟩ i l)
  rfl

/-- After the delimiter scanner those are the bytes by which `bytes_read` has grown. -/
theorem State.afterStore_slice_read (s : State) (l : List Byte) (m r : Port) (f : Fsm) :
    (s.afterStore s.bytesRead l (s.bytesRead + l.length) m r f).rxBuf.slice s.bytesRead
      ((s.afterStore s.bytesRead l (s.bytesRead + l.length) m r f).bytesRead - s.bytesRead) = l := by
  rw [show (s.afterStore s.bytesRead l (s.bytesRead + l.length) m r f).bytesRead - s.bytesRead = l.length from
    Nat.add_sub_cancel_left .., State.afterStore_slice]

/-- The scan is left on the condition of its two rows (R173). -/
theorem fsmEdge_scanStage {s : State} (h : s.fsm = .scanningForStart) : FsmEdge s s.scanStage := by
  obtain ⟨garbage, hg, ha, hb⟩ | ⟨garbage, m, hg, ha, hn, hscan⟩ := scanForStart_cases s.cfg.startByte s.port
  · refine .startFound garbage h hg ?_ ?_ <;> simp only [State.scanStage, hb]
    exact ha
  · refine .drained garbage m h hg ha hn ?_ ?_ <;> simp only [State.scanStage, hscan]
    · rfl
    · rfl

/-- ReceivingPacket is left on the condition of its three rows (R177). -/
theorem fsmEdge_packetStage {s : State} (h : s.fsm = .receivingPacket) : FsmEdge s s.packetStage := by
  obtain ⟨l, m, ht, hend⟩ :=
    storePacket_cases s.cfg.timeoutUs s.cfg.delimiterByte (s.cfg.rxPacketLimit - s.bytesRead) s.rxLoop
  have hslice := s.afterStore_slice_read l m
  obtain ⟨-, -, r, hs, hend⟩ | ⟨-, hl, hend⟩ | ⟨⟨body, rfl, -⟩, -, hend⟩ := hend
  · rw [State.packetStage_eq hend]
    exact .packetTimeout m h ((hslice r _).symm ▸ ht) hs rfl
  · rw [State.packetStage_eq hend]
    refine .packetFull h ((hslice m _).symm ▸ ht) ?_ rfl
    change s.cfg.maxRxPayload + 2 ≤ s.bytesRead + l.length
    rw [hl, Config.rxPacketLimit]
    omega
  · rw [State.packetStage_eq hend]
    have hlen : (body ++ [s.cfg.delimiterByte]).length = body.length + 1 := by simp
    refine .delimiterStored h ?_ ((hslice m _).symm ▸ ht) ?_ rfl
    · change s.bytesRead < s.bytesRead + _
      omega
    · have hget := Buffer.get_of_slice_eq (s.afterStore_slice s.bytesRead (body ++ [s.cfg.delimiterByte])
        (s.bytesRead + (body ++ [s.cfg.delimiterByte]).length) m m .receivingPostamble) body.length (by omega)
      rw [List.getElem_append_right (Nat.le_refl _)] at hget
      have hlast : s.bytesRead + (body ++ [s.cfg.delimiterByte]).length - 1 = s.bytesRead + body.length := by omega
      change Buffer.get _ (s.bytesRead + (body ++ [s.cfg.delimiterByte]).length - 1) = _
      rw [hlast]
      exact hget.trans (by simp)

/-- ReceivingPostamble is left on the condition of its two rows (R179). -/
theorem fsmEdge_postambleStage {s : State} (h : s.fsm = .receivingPostamble) : FsmEdge s s.postambleStage := by
  obtain ⟨l, m, ht, hend⟩ := storePostamble_cases s.cfg.timeoutUs s.cfg.width.bytes 0 s.rxLoop
  have hslice := s.afterStore_slice s.bytesRead l s.bytesRead m
  obtain ⟨hl, r, hs, hend⟩ | ⟨hl, hend⟩ := hend
  · rw [State.postambleStage_eq hend]
    exact .postambleTimeout l m h rfl hl (hslice r _) ht hs rfl
  · rw [State.postambleStage_eq hend]
    exact .postambleStored h rfl ((hl ▸ hslice m _).symm ▸ ht) rfl

/-- Validating is left on the condition of its rows (R180). -/
theorem fsmEdge_validateStage {s : State} (h : s.fsm = .validating) : FsmEdge s s.validateStage := by
  by_cases hsize : s.bytesRead + s.cfg.width.bytes ≤ s.cfg.rxBufSize
  · by_cases hcrc : crcOver s.cfg s.crcTable (s.rxBuf.slice 0 (s.bytesRead + s.cfg.width.bytes)) = 0
    · rw [State.validateStage_zero hsize hcrc]
      exact .crcZero h hcrc rfl
    · rw [State.validateStage_nonzero hsize hcrc]
      exact .crcNotZero h hcrc rfl
  · have hshort : crcCompute s.cfg s.crcTable s.rxBuf 0 (s.bytesRead + s.cfg.width.bytes) = _ :=
      crcCompute_short (by rw [Nat.zero_add]; exact Nat.not_le.1 hsize)
    refine .crcPastBuffer h (Nat.not_le.1 hsize) ?_
    simp only [State.validateStage, hshort]
    rfl

/-- Decoded is left on the condition of its two rows (R181). -/
theorem fsmEdge_decodeStage {s : State} (h : s.fsm = .decoded) : FsmEdge s s.decodeStage := by
  cases hok : s.rxDecode.ok with
  | true =>
    rw [State.decodeStage_ok hok]
    exact .decoded h hok rfl
  | false =>
    rw [State.decodeStage_failed hok]
    obtain ⟨-, hst⟩ := cobsDecode_failure hok
    refine .decodeError _ h hok rfl ?_ rfl
    obtain ⟨hst, -⟩ | ⟨hst, -⟩ | ⟨hst, -⟩ | ⟨hst, -⟩ | hst | hst := hst <;> rw [hst] <;> decide

/-- Every transition of the sequencer is a row of the table of R172. -/
theorem fsmEdge_fsmStep (s : State) : FsmEdge s s.fsmStep := by
  cases h : s.fsm with
  | idle => exact .rest h (State.fsmStep_idle h)
  | scanningForStart => rw [State.fsmStep_scanning h]; exact fsmEdge_scanStage h
  | receivingPacket => rw [State.fsmStep_packet h]; exact fsmEdge_packetStage h
  | receivingPostamble => rw [State.fsmStep_postamble h]; exact fsmEdge_postambleStage h
  | validating => rw [State.fsmStep_validating h]; exact fsmEdge_validateStage h
  | decoded => rw [State.fsmStep_decoded h]; exact fsmEdge_decodeStage h
  | error k => rw [State.fsmStep_error h]; exact .errorLeft k h rfl

/-- No row of the table leads backward (R172). -/
theorem stageOf_lt_of_fsmEdge {s t : State} (h : FsmEdge s t) : t.fsm = .idle ∨ stageOf s.fsm < stageOf t.fsm := by
  cases h with
  | rest h ht => exact .inl (ht ▸ h)
  | decoded _ _ ht => exact .inl ht
  | errorLeft _ _ ht => exact .inl ht
  | startFound _ h _ _ ht => rw [h, ht]; exact .inr (by decide)
  | drained _ _ h _ _ _ _ ht => rw [h, ht]; exact .inr (by simp [stageOf])
  | delimiterStored h _ _ _ ht => rw [h, ht]; exact .inr (by decide)
  | packetTimeout _ h _ _ ht => rw [h, ht]; exact .inr (by decide)
  | packetFull h _ _ ht => rw [h, ht]; exact .inr (by decide)
  | postambleStored h _ _ ht => rw [h, ht]; exact .inr (by decide)
  | postambleTimeout _ _ h _ _ _ _ _ ht => rw [h, ht]; exact .inr (by decide)
  | crcZero h _ ht => rw [h, ht]; exact .inr (by decide)
  | crcNotZero h _ ht => rw [h, ht]; exact .inr (by decide)
  | crcPastBuffer h _ ht => rw [h, ht]; exact .inr (by decide)
  | decodeError _ h _ _ _ ht => rw [h, ht]; exact .inr (by simp [stageOf])

/-- Settles O36. -/
theorem sequencerFollowsTheTable : Obligations.SequencerFollowsTheTable := by
  unfold Obligations.SequencerFollowsTheTable
  exact ⟨fun s => ⟨exec_receive s, rfl⟩, fsmEdge_fsmStep, fun s => stageOf_lt_of_fsmEdge (fsmEdge_fsmStep s),
    fun s t h => (exec_receive_iff.1 h).fsm_idle⟩

/-! ## The failures before the CRC check -/

/-- A failure inside RECEIVE keeps everything but what RECEIVE works on, and of `rx` what was not stored. -/
theorem receiveFailed_errorStage (s : State) (f : Fsm) (l : List Byte) (n tl : Nat) (p : Port) (crc st : Status) :
    ReceiveFailed s (State.errorStage { s.rxAt f l n tl p with crcStatus := crc } st) st l p := by
  have hget := s.rxAt_get f l n tl p
  refine ⟨rfl, fun k hk => ?_, fun hl => ?_, fun k h1 h2 => ?_⟩
  · exact (hget k).trans (if_pos hk)
  · exact (hget 0).trans (by rw [hl]; rfl)
  · exact (hget k).trans (by rw [if_neg (by omega), if_neg (by omega)])

/-- Settles O39. -/
theorem drainedStreamReported : Obligations.DrainedStreamReported := by
  unfold Obligations.DrainedStreamReported
  intro s garbage m hg ha hn
  exact ⟨_, (ReceiveRun.drained hg ha hn).exec, receiveFailed_errorStage s .idle [] _ _ _ s.crcStatus _,
    (Port.poll_spec m).2.2.1 hn, rfl, rfl⟩

/-- Settles O40. -/
theorem silentPacketTimesOut : Obligations.SilentPacketTimesOut := by
  unfold Obligations.SilentPacketTimesOut
  intro s garbage body a m r hg hd hl ha ht hs
  exact ⟨_, (ReceiveRun.packetTimeout ⟨garbage, hg, ha⟩ hd hl ht hs).exec,
    receiveFailed_errorStage s .idle body _ _ _ s.crcStatus _, rfl, rfl, rfl⟩

/-- Settles O41. -/
theorem overlongPacketRunsOutOfSpace : Obligations.OverlongPacketRunsOutOfSpace := by
  unfold Obligations.OverlongPacketRunsOutOfSpace
  intro s garbage body m r hg hd hl ha ht
  exact ⟨_, (ReceiveRun.outOfSpace ⟨garbage, hg, ha⟩ hd hl ht).exec,
    receiveFailed_errorStage s .idle body _ _ _ s.crcStatus _, rfl, rfl⟩

/-- Settles O42. -/
theorem silentPostambleTimesOut : Obligations.SilentPostambleTimesOut := by
  unfold Obligations.SilentPostambleTimesOut
  intro s garbage body part a m r hg hd hl hp ha ht hs
  exact ⟨_, (ReceiveRun.postambleTimeout ⟨garbage, hg, ha⟩ hd hl hp ht hs).exec,
    receiveFailed_errorStage s .idle _ _ _ _ s.crcStatus _, rfl, rfl⟩

/-- Settles O43. -/
theorem corruptFrameFailsCrc : Obligations.CorruptFrameFailsCrc := by
  unfold Obligations.CorruptFrameFailsCrc
  intro s garbage body crc m r hg hd hl hw ha ht hcrc
  exact ⟨_, (ReceiveRun.crcFailed ⟨⟨m, ⟨garbage, hg, ha⟩, ht⟩, hd, hl, hw⟩ hcrc).exec,
    receiveFailed_errorStage s .decoded _ _ _ _ .checksumComputed _, rfl, rfl⟩

/-- Settles O44: the damaged frame's CRC differs from the valid frame's, which is 0. -/
theorem damagedFrameIsRejected : Obligations.DamagedFrameIsRejected := by
  unfold Obligations.DamagedFrameIsRejected
  intro s garbage body crc body' crc' k b m r hlegal htable hodd hvalid hbody hcrc hk hb hdamaged hg hd hl hw ha ht
  have hchanged := oneChangedByteChangesTheCrc s.cfg (body ++ [s.cfg.delimiterByte] ++ crc) k b hlegal hodd
    (by simp; omega) hb
  rw [← htable, hvalid, ← hdamaged] at hchanged
  exact ⟨_, (ReceiveRun.crcFailed ⟨⟨m, ⟨garbage, hg, ha⟩, ht⟩, hd, by omega, by omega⟩ hchanged).exec, rfl, rfl, rfl, rfl⟩

/-! ## Behind the CRC check -/

/-- Settles O45: the answer is COBS_DECODE's on the packet alone. -/
theorem undecodablePacketSurfaced : Obligations.UndecodablePacketSurfaced := by
  unfold Obligations.UndecodablePacketSurfaced
  intro s garbage body crc m r hg hd hl hw ha ht hcrc hnone res
  have hframe : FrameCame s body crc r := ⟨⟨m, ⟨garbage, hg, ha⟩, ht⟩, hd, hl, hw⟩
  obtain ⟨hok, -, hstatus, hbytes⟩ := hframe.sameAnswer
  have hfail : res.ok = false := by simpa using decodeBytes_none_iff.1 hnone
  refine ⟨fun hshort => ?_, ?_⟩
  · simp only [res, cobsDecode, if_pos (show body.length + 1 < 3 by omega)]
    rfl
  · have hrun := ReceiveRun.undecodable hframe hcrc rfl (hok.trans hfail)
    rw [hstatus] at hrun
    refine ⟨_, hrun.exec, ?_, hbytes, hframe.behind rfl⟩
    rw [State.rxDecoded, hstatus]
    rfl

/-- Settles O37: COBS_DECODE on the packet alone gives the payload, and the CRC stays behind it. -/
theorem receiveAcceptsFrame : Obligations.ReceiveAcceptsFrame := by
  unfold Obligations.ReceiveAcceptsFrame
  intro s garbage body crc payload m r hg hd hl hw ha ht hcrc hdec
  have hframe : FrameCame s body crc r := ⟨⟨m, ⟨garbage, hg, ha⟩, ht⟩, hd, hl, hw⟩
  obtain ⟨hok, hvalue, hstatus, hbytes⟩ := hframe.sameAnswer
  obtain ⟨hsuccess, hpayload⟩ := decodeBytes_some_iff.1 hdec
  rw [List.length_append, List.length_singleton] at hsuccess hpayload
  obtain ⟨⟨hmin, -⟩, hlen, hdecoded, hzero, hlast⟩ := cobsDecode_success hsuccess
  have hplen : payload.length = body.length + 1 - 2 := by rw [← hpayload, Buffer.length_slice]
  have hrun := ReceiveRun.received hframe hcrc rfl (hok.trans hsuccess)
  rw [State.rxDecoded, hvalue.trans (hlen.trans hplen.symm), hstatus.trans hdecoded] at hrun
  have hbehind : payload.length + 2 = body.length + 1 := by omega
  refine ⟨_, hrun.exec, rfl, by omega, (hbytes 0 (by omega)).trans hzero, ?_, ?_, ?_, fun j hj => ?_⟩
  · rw [hplen]
    refine Eq.trans (Buffer.slice_congr fun k hk => ?_) hpayload
    exact hbytes (1 + k) (by omega)
  · rw [show payload.length + 1 = body.length by omega]
    exact (hbytes _ (by omega)).trans hlast
  · rw [hbehind]
    exact (hframe.behind rfl).1
  · exact (hframe.behind rfl).2 j (by omega)

/-! ## Every outcome -/

/-- A silence takes nothing off the stream. -/
theorem stream_of_silent {timeout tLast : Nat} {p r : Port} (h : Silent timeout tLast p r) : p.stream = r.stream := by
  obtain ⟨-, hst, -⟩ := awaitByte_cases timeout tLast p
  rw [silent_iff.1 h] at hst
  simpa using hst

theorem stream_of_startFound {s : State} {a : Port} (h : StartFound s a) : ∃ used, s.port.stream = used ++ a.stream := by
  obtain ⟨garbage, -, ha⟩ := h
  exact ⟨_, ha.spec.1⟩

/-- RECEIVE takes its bytes off the front of what the port holds and brings (R185). -/
theorem ReceiveRun.stream {s t : State} (h : ReceiveRun s t) : ∃ used, s.port.stream = used ++ t.port.stream := by
  have hframe : ∀ {a m : Port} {l : List Byte}, StartFound s a → Trickles s.cfg.timeoutUs a.now a l m →
      ∃ used, s.port.stream = used ++ m.stream := fun ha ht => by
    obtain ⟨used, hused⟩ := stream_of_startFound ha
    exact ⟨used ++ _, by rw [hused, ht.spec.1, List.append_assoc]⟩
  cases h with
  | @drained garbage m hg ha hn =>
    obtain ⟨-, hst, -⟩ := m.poll_spec
    rw [hn] at hst
    exact ⟨garbage, by rw [ha.spec.1, hst]; rfl⟩
  | packetTimeout ha _ _ ht hs =>
    obtain ⟨used, hused⟩ := hframe ha ht
    exact ⟨used, by rw [hused, stream_of_silent hs]; rfl⟩
  | outOfSpace ha _ _ ht => exact hframe ha ht
  | postambleTimeout ha _ _ _ ht hs =>
    obtain ⟨used, hused⟩ := hframe ha ht
    exact ⟨used, by rw [hused, stream_of_silent hs]; rfl⟩
  | crcFailed hf _ => obtain ⟨a, ha, ht⟩ := hf.came; exact hframe ha ht
  | undecodable hf _ hu _ => subst hu; obtain ⟨a, ha, ht⟩ := hf.came; exact hframe ha ht
  | received hf _ hu _ => subst hu; obtain ⟨a, ha, ht⟩ := hf.came; exact hframe ha ht

/-- RECEIVE of any kind touches only `rx`, its tracker, the status and sequencer registers, the inbound side, the
time and the outcome (R170). -/
theorem ReceiveRun.frame {s t : State} (h : ReceiveRun s t) :
    t = { s with rx := t.rx, rxFilled := t.rxFilled, cobsStatus := t.cobsStatus, crcStatus := t.crcStatus,
                 xferStatus := t.xferStatus, fsm := .idle, bytesRead := t.bytesRead, tLast := t.tLast,
                 inbound := t.inbound, now := t.now, arrivals := t.arrivals, result := t.result } := by
  cases h with
  | undecodable _ _ hu _ => subst hu; rfl
  | received _ _ hu _ => subst hu; rfl
  | _ => rfl

/-- How COBS_DECODE can fail on a packet inside RECEIVE: the packet lies in the buffer. -/
theorem FrameCame.decode_failure {s : State} {body crc : List Byte} {r : Port} (h : FrameCame s body crc r) {u : State}
    (hu : u = s.rxChecked (body ++ [s.cfg.delimiterByte] ++ crc) (body.length + 1) r) (hfail : u.rxDecode.ok = false) :
    u.rxDecode.status ∈ [Status.decodePacketTooSmall, .decodeAlreadyDecoded, .delimiterTooEarly, .delimiterNotFound] ∨
      u.rxDecode.status = .decodePacketTooLarge ∧ 254 < s.cfg.maxRxPayload := by
  subst hu
  have hfits := h.fits
  obtain ⟨-, ⟨hst, -⟩ | ⟨hst, hlarge⟩ | ⟨-, hsize⟩ | ⟨hst, -⟩ | hst | hst⟩ := cobsDecode_failure hfail
  · exact .inl (by rw [State.rxDecode, hst]; decide)
  · have hlarge : 256 < body.length + 1 := hlarge
    exact .inr ⟨hst, by omega⟩
  · have hsize : s.cfg.rxBufSize < body.length + 1 := hsize
    rw [Config.rxBufSize] at hsize
    omega
  · exact .inl (by rw [State.rxDecode, hst]; decide)
  · exact .inl (by rw [State.rxDecode, hst]; decide)
  · exact .inl (by rw [State.rxDecode, hst]; decide)

/-- Settles O38: the seven ways, each with what it reports. -/
theorem receiveOutcomes : Obligations.ReceiveOutcomes := by
  unfold Obligations.ReceiveOutcomes
  intro s hlegal
  obtain ⟨t, hrun⟩ := exists_receiveRun s
  refine ⟨t, hrun.exec, hrun.frame, hrun.stream, ?_⟩
  cases hrun with
  | drained _ _ _ =>
    refine .inr ⟨noStartStatus s.cfg, ?_, rfl, rfl, rfl⟩
    rw [noStartStatus]
    split <;> decide
  | packetTimeout _ _ _ _ _ => exact .inr ⟨_, by decide, rfl, rfl, rfl⟩
  | outOfSpace _ _ _ _ => exact .inr ⟨_, by decide, rfl, rfl, rfl⟩
  | postambleTimeout _ _ _ _ _ _ => exact .inr ⟨_, by decide, rfl, rfl, rfl⟩
  | crcFailed _ _ => exact .inr ⟨_, by decide, rfl, rfl, rfl⟩
  | undecodable hf _ hu hfail =>
    obtain ⟨-, -, -, hmax, -⟩ := Config.legal_iff.1 hlegal
    refine .inr ⟨_, ?_, rfl, rfl, by subst hu; rfl⟩
    obtain hst | ⟨-, hlarge⟩ := hf.decode_failure hu hfail
    · have hsub : ∀ st ∈ [Status.decodePacketTooSmall, .decodeAlreadyDecoded, .delimiterTooEarly, .delimiterNotFound],
          st ∈ receiveFailures := by decide
      exact hsub _ hst
    · omega
  | @received body crc r u hf _ hu hok =>
    subst hu
    have hfits := hf.fits
    obtain ⟨⟨hmin, -⟩, hvalue, -, hzero, hlast⟩ := cobsDecode_success hok
    have hmin : 3 ≤ body.length + 1 := hmin
    have hvalue : _ = body.length + 1 - 2 := hvalue
    refine .inl ⟨rfl, rfl, ?_, ?_, hzero, ?_⟩
    · exact Nat.le_trans (by omega) (Nat.le_of_eq hvalue.symm)
    · exact Nat.le_trans (Nat.le_of_eq hvalue) (by omega)
    · refine (congrArg (Buffer.get _) ?_).trans hlast
      exact (congrArg (· + 1) hvalue).trans (show body.length + 1 - 2 + 1 = body.length + 1 - 1 by omega)

end Sys2Proof.Machine
end

section
/-! SUPPORT. From one engine to another (30_encoding.md R73, R75): the frame SEND sends is one RECEIVE
accepts, once the size byte is taken out. -/

namespace Sys2Proof.Machine

open Sys2Proof.Claims

/-- Engines with the same CRC parameters compute the same CRC. -/
theorem crcOver_congr {cfg cfg' : Config} (hw : cfg.width = cfg'.width) (hi : cfg.initialValue = cfg'.initialValue)
    (hx : cfg.finalXor = cfg'.finalXor) (table : Vector Word 256) (l : List Byte) :
    crcOver cfg table l = crcOver cfg' table l := by
  rw [crcOver, crcOver, hw, hi, hx]

/-- Settles O47: SEND sends the packet of the payload and its CRC; with `D = 0` the packet ends at its first
delimiter and decodes, and with `FINAL_XOR = 0` the CRC over both is 0, so RECEIVE accepts the frame. -/
theorem sentPayloadIsReceived : Obligations.SentPayloadIsReceived := by
  unfold Obligations.SentPayloadIsReceived
  intro a b t garbage m r ha hb hwidth hpoly hinit hxa hxb hda hdb hstart hpos hfits hsend hg havail htrickle
  obtain ⟨packet, crc, henc, hcrc, -, hcrclen, -, t', hsend', hout, -⟩ := sendTransmitsFrame a ha hpos
  obtain rfl : t = t' := Host.Outcome.next.inj (hsend.symm.trans hsend')
  have hmax := (ha.encodePre hpos).2.1
  have hlen : (a.txBuf.slice 1 a.txFilled).length = a.txFilled := Buffer.length_slice ..
  rw [hda] at henc
  obtain ⟨hdec, body, rfl, hbody, hbodylen⟩ := encodeBytes_zero (by omega) (by omega) henc
  have hframe : t.outbound.drop (a.outbound.length + 2) = body ++ [b.cfg.delimiterByte] ++ crc := by
    rw [hout, List.drop_length_add_append, hdb]
    rfl
  have hzero : crcOver b.cfg b.crcTable (body ++ [b.cfg.delimiterByte] ++ crc) = 0 := by
    rw [hcrc, ha.table, hwidth, hpoly, crcOver_congr hwidth hinit (hxa.trans hxb.symm), hdb, hb.table]
    exact crcOver_append_own hb.legal hxb _
  rw [hframe] at htrickle
  obtain ⟨u, hexec, hu, -, -, hslice, -⟩ := receiveAcceptsFrame b garbage body crc (a.txBuf.slice 1 a.txFilled) m r hg
    (hdb ▸ hbody) (by omega) (hcrclen.trans (congrArg _ hwidth)) havail htrickle hzero (by rw [hdb]; exact hdec)
  rw [hlen] at hu hslice
  have hfilled : u.rxFilled = a.txFilled := by rw [hu]
  have hsize : 0 + 1 + a.txFilled ≤ u.cfg.rxBufSize := by rw [hu, Config.rxBufSize]; simp only; omega
  exact ⟨u, hexec, by rw [hu], by rw [hu]; rfl, hfilled, hslice, _, exec_readPayload_ok (by omega) hsize, hslice⟩

end Sys2Proof.Machine
end

section
/-! SUPPORT. One operation (30_encoding.md R84): every way it completes, is refused or faults. -/

namespace Sys2Proof.Machine

open Sys2Proof.Claims

/-! ## The three ways an operation ends -/

/-- An operation executed in `s` that completes, and the state it leaves. -/
inductive OpRun (s : State) : Instr → State → Prop where
  | cobsEncode (buf : List Byte) (p : Nat) (d : Byte) :
      OpRun s (.cobsEncode buf p d) (s.report .cobs (cobsEncode (Buffer.ofBytes buf) p d))
  | cobsDecode (buf : List Byte) (l : Nat) (d : Byte) :
      OpRun s (.cobsDecode buf l d) (s.report .cobs (cobsDecode (Buffer.ofBytes buf) l d))
  | crcTableGen : OpRun s .crcTableGen (State.answer { s with crcTable := crcTable s.cfg.width s.cfg.polynomial } 0)
  | crcCompute (buf : List Byte) (start len : Nat) :
      OpRun s (.crcCompute buf start len) (s.report .crc (crcCompute s.cfg s.crcTable (Buffer.ofBytes buf) start len))
  | crcAppend (buf : List Byte) (start : Nat) {crc : Word} : s.cfg.width.fits crc = true →
      OpRun s (.crcAppend buf start crc) (s.report .crc (crcAppend s.cfg.width (Buffer.ofBytes buf) start crc))
  | crcExtract (buf : List Byte) (start : Nat) :
      OpRun s (.crcExtract buf start) (s.report .crc (crcExtract s.cfg.width (Buffer.ofBytes buf) start))
  | writeFailed {src : List Byte} {offset len : Nat} : len ≤ src.length → s.cfg.maxTxPayload < offset + len →
      OpRun s (.writePayload src offset len) (s.fail .transfer .writePayloadTooSmall)
  | written {src : List Byte} {offset len : Nat} : len ≤ src.length → offset + len ≤ s.cfg.maxTxPayload →
      OpRun s (.writePayload src offset len)
        ((s.stagePayload offset len (src.take len)).succeed .transfer .payloadWritten (offset + len))
  | readFailed {offset len : Nat} : s.rxFilled < offset + len →
      OpRun s (.readPayload offset len) (State.fail { s with dst := [] } .transfer .readPayloadTooSmall)
  | read {offset len : Nat} : offset + len ≤ s.rxFilled → offset + 1 + len ≤ s.cfg.rxBufSize →
      OpRun s (.readPayload offset len)
        (State.succeed { s with dst := s.rxBuf.slice (offset + 1) len } .transfer .payloadRead (offset + len))
  | resetTx : OpRun s .resetTx (s.clearTx.succeed .transfer .transferStandby 0)
  | resetRx : OpRun s .resetRx (s.clearRx.succeed .transfer .transferStandby 0)
  | encodeFailed {st : Status} :
      Machine.cobsEncode s.txBuf s.txFilled s.cfg.delimiterByte = .failed st s.txBuf →
      OpRun s .send (s.encodeFailed st)
  | appendFailed {b : Buffer} :
      Machine.cobsEncode s.txBuf s.txFilled s.cfg.delimiterByte = ⟨true, s.txFilled + 2, .payloadEncoded, b⟩ →
      b.size = s.cfg.txBufSize → s.txFilled + 2 ≤ s.cfg.txBufSize →
      s.cfg.txBufSize < s.txFilled + 2 + s.cfg.width.bytes → OpRun s .send (s.appendFailed b)
  | sent {b : Buffer} :
      Machine.cobsEncode s.txBuf s.txFilled s.cfg.delimiterByte = ⟨true, s.txFilled + 2, .payloadEncoded, b⟩ →
      b.size = s.cfg.txBufSize → s.txFilled + 2 + s.cfg.width.bytes ≤ s.cfg.txBufSize → OpRun s .send (s.sent b)
  | receive {t : State} : ReceiveRun s t → OpRun s .receive t
  | bytesInTx : OpRun s .bytesInTx (s.answer s.txFilled)
  | bytesInRx : OpRun s .bytesInRx (s.answer s.rxFilled)
  | getMaxTxPayload : OpRun s .getMaxTxPayload (s.answer s.cfg.maxTxPayload)
  | getMaxRxPayload : OpRun s .getMaxRxPayload (s.answer s.cfg.maxRxPayload)
  | getTxBufferSize : OpRun s .getTxBufferSize (s.answer s.cfg.txBufSize)
  | getRxBufferSize : OpRun s .getRxBufferSize (s.answer s.cfg.rxBufSize)

/-- An operation that is refused: an operand is none of its kind (R83). -/
inductive OpRefused (s : State) : Instr → Refusal → Prop where
  | shortSource {src : List Byte} {offset len : Nat} : src.length < len →
      OpRefused s (.writePayload src offset len) .sourceTooShort
  | wideCrc {buf : List Byte} {start : Nat} {crc : Word} : s.cfg.width.fits crc = false →
      OpRefused s (.crcAppend buf start crc) .crcOperandTooWide

/-- An operation that faults: `rx_filled` is past the end of `rx` (assumption 17). -/
inductive OpFaults (s : State) : Instr → Fault → Prop where
  | readPast {offset len : Nat} : offset + len ≤ s.rxFilled → s.cfg.rxBufSize < offset + 1 + len →
      OpFaults s (.readPayload offset len) .bufferIndexOutOfRange

theorem OpRun.exec {s t : State} {i : Instr} (h : OpRun s i t) : exec i s = .next t := by
  cases h with
  | crcAppend buf start hfits => exact exec_crcAppend hfits buf start
  | writeFailed hlen hcap => exact exec_writePayload_failed hlen hcap
  | written hlen hcap => exact exec_writePayload_ok hlen hcap
  | readFailed h => exact exec_readPayload_failed h
  | read h hsize => exact exec_readPayload_ok h hsize
  | encodeFailed h => exact exec_send_encode_failed h
  | appendFailed hres hsize hroom hfull => exact exec_send_append_failed hres hsize hroom hfull
  | sent hres hsize hfits => exact exec_send_ok hres hsize hfits
  | receive h => exact h.exec
  | _ => rfl

theorem OpRefused.exec {s : State} {i : Instr} {r : Refusal} (h : OpRefused s i r) : exec i s = .refused r := by
  cases h with
  | shortSource h => exact exec_writePayload_short h _ s
  | wideCrc h => exact exec_crcAppend_too_wide h _ _

theorem OpFaults.exec {s : State} {i : Instr} {f : Fault} (h : OpFaults s i f) : exec i s = .fault f := by
  cases h with
  | readPast h hsize => exact exec_readPayload_fault h hsize

/-- SEND completes in every state (R160): the encoder fails, there is no room for the CRC, or the frame is sent. -/
theorem exists_send_run (s : State) : ∃ t, OpRun s .send t := by
  obtain ⟨-, st, hfail, -⟩ | hpre := cobsEncode_cases s.txBuf s.txFilled s.cfg.delimiterByte
  · exact ⟨_, .encodeFailed hfail⟩
  · obtain ⟨b, hres, hsize, -⟩ := exec_send_encoded hpre
    obtain ⟨-, -, hroom, -⟩ := hpre
    rcases Nat.lt_or_ge s.cfg.txBufSize (s.txFilled + 2 + s.cfg.width.bytes) with hfull | hfits
    · exact ⟨_, .appendFailed hres hsize hroom hfull⟩
    · exact ⟨_, .sent hres hsize hfits⟩

/-- Every operation ends in one of the three ways, in every state. -/
theorem exec_cases (i : Instr) (s : State) :
    (∃ t, OpRun s i t) ∨ (∃ r, OpRefused s i r) ∨ (∃ f, OpFaults s i f) := by
  cases i with
  | cobsEncode buf p d => exact .inl ⟨_, .cobsEncode buf p d⟩
  | cobsDecode buf l d => exact .inl ⟨_, .cobsDecode buf l d⟩
  | crcTableGen => exact .inl ⟨_, .crcTableGen⟩
  | crcCompute buf start len => exact .inl ⟨_, .crcCompute buf start len⟩
  | crcAppend buf start crc =>
    cases hfits : s.cfg.width.fits crc with
    | true => exact .inl ⟨_, .crcAppend buf start hfits⟩
    | false => exact .inr (.inl ⟨_, .wideCrc hfits⟩)
  | crcExtract buf start => exact .inl ⟨_, .crcExtract buf start⟩
  | writePayload src offset len =>
    rcases Nat.lt_or_ge src.length len with hshort | hlen
    · exact .inr (.inl ⟨_, .shortSource hshort⟩)
    · rcases Nat.lt_or_ge s.cfg.maxTxPayload (offset + len) with hcap | hcap
      · exact .inl ⟨_, .writeFailed hlen hcap⟩
      · exact .inl ⟨_, .written hlen hcap⟩
  | readPayload offset len =>
    rcases Nat.lt_or_ge s.rxFilled (offset + len) with h | h
    · exact .inl ⟨_, .readFailed h⟩
    · rcases Nat.lt_or_ge s.cfg.rxBufSize (offset + 1 + len) with hsize | hsize
      · exact .inr (.inr ⟨_, .readPast h hsize⟩)
      · exact .inl ⟨_, .read h hsize⟩
  | resetTx => exact .inl ⟨_, .resetTx⟩
  | resetRx => exact .inl ⟨_, .resetRx⟩
  | send => exact .inl (exists_send_run s)
  | receive => exact .inl ((exists_receiveRun s).imp fun _ h => .receive h)
  | bytesInTx => exact .inl ⟨_, .bytesInTx⟩
  | bytesInRx => exact .inl ⟨_, .bytesInRx⟩
  | getMaxTxPayload => exact .inl ⟨_, .getMaxTxPayload⟩
  | getMaxRxPayload => exact .inl ⟨_, .getMaxRxPayload⟩
  | getTxBufferSize => exact .inl ⟨_, .getTxBufferSize⟩
  | getRxBufferSize => exact .inl ⟨_, .getRxBufferSize⟩

section Inversion

variable {s t : State} {i : Instr} {r : Refusal} {f : Fault}

theorem exec_next_iff : exec i s = .next t ↔ OpRun s i t := by
  refine ⟨fun h => ?_, OpRun.exec⟩
  obtain ⟨u, hu⟩ | ⟨r, hr⟩ | ⟨f, hf⟩ := exec_cases i s
  · cases h.symm.trans hu.exec
    exact hu
  · cases h.symm.trans hr.exec
  · cases h.symm.trans hf.exec

theorem exec_refused_iff : exec i s = .refused r ↔ OpRefused s i r := by
  refine ⟨fun h => ?_, OpRefused.exec⟩
  obtain ⟨u, hu⟩ | ⟨r, hr⟩ | ⟨f, hf⟩ := exec_cases i s
  · cases h.symm.trans hu.exec
  · cases h.symm.trans hr.exec
    exact hr
  · cases h.symm.trans hf.exec

theorem exec_fault_iff : exec i s = .fault f ↔ OpFaults s i f := by
  refine ⟨fun h => ?_, OpFaults.exec⟩
  obtain ⟨u, hu⟩ | ⟨r, hr⟩ | ⟨f, hf⟩ := exec_cases i s
  · cases h.symm.trans hu.exec
  · cases h.symm.trans hr.exec
  · cases h.symm.trans hf.exec
    exact hf

/-- A well-formed operation is not refused. -/
theorem OpRefused.not_wf (h : OpRefused s i r) : i.wf s.cfg.width = false := by
  cases h with
  | shortSource h => exact decide_eq_false (Nat.not_le.2 h)
  | wideCrc h => exact h

/-- Between operations nothing faults: the payload received lies in `rx`. -/
theorem OpFaults.not_inv (h : OpFaults s i f) : ¬ s.Inv := by
  intro hinv
  have hle := hinv.rxFilledLe
  cases h with
  | readPast h hsize =>
    rw [Config.rxBufSize] at hsize
    omega

end Inversion

/-- Settles O7: the two operands that can be none of their kind are the two ways to be refused. -/
theorem onlyIllFormedOperandsAreRefused : Obligations.OnlyIllFormedOperandsAreRefused := by
  unfold Obligations.OnlyIllFormedOperandsAreRefused
  refine ⟨fun _ offset _ s h => exec_writePayload_short h offset s, fun buf start crc s h => ?_, fun i s r hwf h => ?_⟩
  · refine exec_crcAppend_too_wide (Bool.eq_false_iff.2 fun hfits => ?_) buf start
    exact absurd (CrcWidth.fits_iff.1 hfits) (Nat.not_lt.2 h)
  · exact absurd hwf (by simp [(exec_refused_iff.1 h).not_wf])

/-- Settles O12: of the three ways to end, a well-formed operation is not refused, and nothing faults. -/
theorem everyOperationAnswers : Obligations.EveryOperationAnswers := by
  unfold Obligations.EveryOperationAnswers
  intro i s hinv hwf
  obtain ⟨t, ht⟩ | ⟨r, hr⟩ | ⟨f, hf⟩ := exec_cases i s
  · exact ⟨t, ht.exec⟩
  · exact absurd hwf (by simp [hr.not_wf])
  · exact absurd hinv hf.not_inv

end Sys2Proof.Machine
end

section
/-! SUPPORT. Which operations write what (20_memory.md R50, R57, 10_state.md R25, R26, R31). -/

namespace Sys2Proof.Machine

open Sys2Proof.Claims

/-- RECEIVE leaves the transmit side, the configuration and the host's buffers alone (R170). -/
theorem ReceiveRun.same {s t : State} (h : ReceiveRun s t) : s.RxSame t := by
  cases (exec_receive s).symm.trans h.exec
  exact s.receive_same

/-- Settles O48. -/
theorem configurationIsImmutable : Obligations.ConfigurationIsImmutable := by
  unfold Obligations.ConfigurationIsImmutable
  intro i s t hexec
  cases exec_next_iff.1 hexec with
  | receive h => exact ⟨h.same.cfg, fun _ => h.same.crcTable⟩
  | crcTableGen => exact ⟨rfl, fun h => absurd rfl h⟩
  | encodeFailed | appendFailed | sent => exact ⟨rfl, fun _ => rfl⟩
  | _ => simp

/-- Settles O49: of the ways an operation completes, only SEND's and RECEIVE's write more than one space. -/
theorem spacesHaveTheirWriters : Obligations.SpacesHaveTheirWriters := by
  unfold Obligations.SpacesHaveTheirWriters
  intro i s t hexec
  cases exec_next_iff.1 hexec with
  | receive h =>
    obtain ⟨-, htx, hfilled, -, hbuf, hdst, hout, hcmd⟩ := h.same
    exact ⟨fun _ => ⟨htx, hfilled⟩, fun h => absurd h (by decide), fun h => absurd rfl h, fun _ => hout,
      ⟨[], by rw [hout, List.append_nil]⟩, fun _ => hbuf, fun _ => hdst, hcmd⟩
  | encodeFailed | appendFailed => simp [Instr.opcode, State.encodeFailed, State.appendFailed]
  | sent => simp [Instr.opcode, State.sent]
  | _ => simp [Instr.opcode]

/-- Settles O50. -/
theorem statusRegistersHaveTheirWriters : Obligations.StatusRegistersHaveTheirWriters := by
  unfold Obligations.StatusRegistersHaveTheirWriters
  intro i s t hexec
  cases exec_next_iff.1 hexec <;> simp [Instr.opcode]

/-- Settles O54: WRITE_PAYLOAD takes a maximum, every other operation keeps the tracker or sets it to 0. -/
theorem txFilledOnlyDropsToZero : Obligations.TxFilledOnlyDropsToZero := by
  unfold Obligations.TxFilledOnlyDropsToZero
  intro i s t hexec hlt
  cases exec_next_iff.1 hexec with
  | resetTx => exact ⟨rfl, .inl rfl⟩
  | sent => exact ⟨rfl, .inr ⟨rfl, rfl⟩⟩
  | written => exact absurd hlt (by simp)
  | receive h => exact absurd hlt (by simp [h.same.txFilled])
  | encodeFailed | appendFailed => exact absurd hlt (Nat.lt_irrefl _)
  | _ => exact absurd hlt (by simp)

/-- Settles O55: of the ways RECEIVE ends, only the one that received a packet leaves the tracker non-zero. -/
theorem rxFilledOnlyFromReceive : Obligations.RxFilledOnlyFromReceive := by
  unfold Obligations.RxFilledOnlyFromReceive
  intro i s t hexec hne
  cases exec_next_iff.1 hexec with
  | resetRx => exact .inr ⟨rfl, .inr rfl⟩
  | receive h =>
    cases h with
    | received => exact .inl ⟨rfl, rfl⟩
    | undecodable _ _ hu => subst hu; exact .inr ⟨rfl, .inl rfl⟩
    | _ => exact .inr ⟨rfl, .inl rfl⟩
  | encodeFailed | appendFailed | sent => exact absurd rfl hne
  | _ => exact absurd (by simp) hne

end Sys2Proof.Machine
end

section
/-! SUPPORT. What operations report (30_encoding.md R80, R81, 60_exceptions.md R200, R202, R203). -/

namespace Sys2Proof.Machine

open Sys2Proof.Claims

/-! ## Codes and kinds -/

/-- The status of a code; the code of no status gives an idle one. -/
def Status.ofCode (c : Byte) : Status :=
  match c.toNat with
  | 11 => .cobsStandby
  | 12 => .encodePayloadTooSmall
  | 13 => .encodePayloadTooLarge
  | 14 => .encodeBufferTooSmall
  | 15 => .encodeAlreadyEncoded
  | 16 => .payloadEncoded
  | 17 => .decodePacketTooSmall
  | 18 => .decodePacketTooLarge
  | 19 => .decodeBufferTooSmall
  | 20 => .delimiterNotFound
  | 21 => .delimiterTooEarly
  | 22 => .decodeAlreadyDecoded
  | 23 => .payloadDecoded
  | 51 => .crcStandby
  | 52 => .computeBufferTooSmall
  | 53 => .checksumComputed
  | 54 => .appendBufferTooSmall
  | 55 => .checksumAppended
  | 56 => .extractBufferTooSmall
  | 57 => .checksumExtracted
  | 102 => .packetSent
  | 103 => .packetReceived
  | 104 => .noBytesToParse
  | 105 => .startByteNotFound
  | 106 => .packetTimeout
  | 107 => .packetOutOfBufferSpace
  | 108 => .postambleTimeout
  | 109 => .crcCheckFailed
  | 110 => .writePayloadTooSmall
  | 111 => .readPayloadTooSmall
  | 112 => .payloadWritten
  | 113 => .payloadRead
  | _ => .transferStandby

theorem Status.ofCode_code (st : Status) : Status.ofCode st.code = st := by cases st <;> rfl

/-- Settles O53: the status can be read back from its code. -/
theorem statusCodesAreDisjoint : Obligations.StatusCodesAreDisjoint := by
  unfold Obligations.StatusCodesAreDisjoint
  refine ⟨Function.LeftInverse.injective Status.ofCode_code, fun a => ?_⟩
  cases a <;> decide

/-- A status has a kind as a failure exactly when some operation raises it (R202). -/
theorem Status.kinds_eq_nil_iff (o : Opcode) (st : Status) : st.kinds o = [] ↔ st.raisers = [] := by
  cases st with
  | decodePacketTooSmall => rw [Status.kinds]; split <;> simp [Status.raisers]
  | _ => simp [Status.kinds, Status.raisers]

/-! ## The codec and the CRC engine -/

/-- What a codec or CRC operation answers: a status of its layer, raised by it when it failed, by nothing when it
succeeded. -/
structure OpResult.Proper (r : OpResult) (l : Layer) (o : Opcode) : Prop where
  layer : r.status.layer = l
  failed : r.ok = false → o ∈ r.status.raisers
  succeeded : r.ok = true → r.status.raisers = []

theorem OpResult.proper_failed {st : Status} {o : Opcode} (b : Buffer) (h : o ∈ st.raisers) :
    (OpResult.failed st b).Proper st.layer o := ⟨rfl, fun _ => h, nofun⟩

theorem cobsEncode_proper (b : Buffer) (p : Nat) (d : Byte) : (cobsEncode b p d).Proper .cobs .cobsEncode := by
  obtain ⟨-, st, hres, hst⟩ | hpre := cobsEncode_cases b p d
  · rw [hres]
    obtain ⟨rfl, -⟩ | ⟨rfl, -⟩ | ⟨rfl, -⟩ | ⟨rfl, -⟩ := hst <;> exact OpResult.proper_failed b (by decide)
  · obtain ⟨b', hres, -⟩ := cobsEncode_ok d hpre
    rw [hres]
    exact ⟨rfl, nofun, fun _ => rfl⟩

theorem cobsDecode_proper (b : Buffer) (l : Nat) (d : Byte) : (cobsDecode b l d).Proper .cobs .cobsDecode := by
  cases hok : (cobsDecode b l d).ok with
  | true =>
    obtain ⟨-, -, hst, -⟩ := cobsDecode_success hok
    exact ⟨by rw [hst]; rfl, by simp [hok], by rw [hst]; exact fun _ => rfl⟩
  | false =>
    obtain ⟨-, hst⟩ := cobsDecode_failure hok
    have hst : (cobsDecode b l d).status.layer = .cobs ∧ .cobsDecode ∈ (cobsDecode b l d).status.raisers := by
      obtain ⟨h, -⟩ | ⟨h, -⟩ | ⟨h, -⟩ | ⟨h, -⟩ | h | h := hst <;> rw [h] <;> decide
    exact ⟨hst.1, fun _ => hst.2, by simp [hok]⟩

theorem crcCompute_proper (cfg : Config) (table : Vector Word 256) (b : Buffer) (start len : Nat) :
    (crcCompute cfg table b start len).Proper .crc .crcCompute := by
  rcases Nat.lt_or_ge b.size (start + len) with h | h
  · rw [crcCompute_short h]; exact OpResult.proper_failed b (by decide)
  · rw [crcCompute_ok h]; exact ⟨rfl, nofun, fun _ => rfl⟩

theorem crcAppend_proper (w : CrcWidth) (b : Buffer) (start : Nat) (crc : Word) :
    (crcAppend w b start crc).Proper .crc .crcAppend := by
  rcases Nat.lt_or_ge b.size (start + w.bytes) with h | h
  · rw [crcAppend_short h]; exact OpResult.proper_failed b (by decide)
  · rw [crcAppend_ok h]; exact ⟨rfl, nofun, fun _ => rfl⟩

theorem crcExtract_proper (w : CrcWidth) (b : Buffer) (start : Nat) : (crcExtract w b start).Proper .crc .crcExtract := by
  rcases Nat.lt_or_ge b.size (start + w.bytes) with h | h
  · rw [crcExtract_short h]; exact OpResult.proper_failed b (by decide)
  · rw [crcExtract_ok h]; exact ⟨rfl, nofun, fun _ => rfl⟩

/-! ## The outcome -/

/-- The layer an operation belongs to (10_state.md R31). -/
@[simp] def layerOf : Opcode → Layer
  | .cobsEncode | .cobsDecode => .cobs
  | .crcCompute | .crcAppend | .crcExtract => .crc
  | _ => .transfer

/-- The outcome an operation leaves: that of a success, or a failure with its code latched (R200, R203). -/
inductive Returned (o : Opcode) (t : State) : Prop where
  | succeeded (v : Nat) (st : Option Status) : t.result = some ⟨true, v, st⟩ →
      (∀ code, st = some code → code.raisers = []) → Returned o t
  | failed (st : Status) : t.result = some ⟨false, 0, some st⟩ → st.raisers ≠ [] →
      t.statusOf (layerOf o) = st → t.statusOf st.layer = st → Returned o t

theorem Returned.report {r : OpResult} {l : Layer} {o : Opcode} (h : r.Proper l o) (hl : layerOf o = l) (s : State) :
    Returned o (s.report l r) := by
  obtain ⟨ok, v, st, b⟩ := r
  obtain ⟨hlayer, hfailed, hsucceeded⟩ := h
  have hlatched : (s.report l ⟨ok, v, st, b⟩).statusOf l = st := by cases l <;> simp [State.statusOf]
  cases ok with
  | true => exact .succeeded v (some st) (by simp) fun code hcode => by cases hcode; exact hsucceeded rfl
  | false =>
    exact .failed st (by simp) (List.ne_nil_of_mem (hfailed rfl)) (by rw [hl, hlatched]) (by rw [hlayer, hlatched])

theorem Returned.receive {s t : State} (h : ReceiveRun s t) : Returned .receive t := by
  cases h with
  | drained =>
    refine .failed (noStartStatus s.cfg) rfl ?_ rfl ?_ <;> unfold noStartStatus <;> split
    · decide
    · decide
    · rfl
    · rfl
  | received => exact .succeeded 0 _ rfl fun code hcode => by cases hcode; rfl
  | @undecodable _ _ _ u _ _ _ hfail =>
    have hproper : u.rxDecode.Proper .cobs .cobsDecode := cobsDecode_proper ..
    exact .failed _ rfl (List.ne_nil_of_mem (hproper.failed hfail)) rfl (by rw [hproper.layer]; rfl)
  | _ => exact .failed _ rfl (by decide) rfl rfl

/-- Every operation that completes leaves such an outcome. -/
theorem OpRun.returned {s t : State} {i : Instr} (h : OpRun s i t) : Returned i.opcode t := by
  cases h with
  | cobsEncode => exact .report (cobsEncode_proper ..) rfl s
  | cobsDecode => exact .report (cobsDecode_proper ..) rfl s
  | crcCompute => exact .report (crcCompute_proper ..) rfl s
  | crcAppend => exact .report (crcAppend_proper ..) rfl s
  | crcExtract => exact .report (crcExtract_proper ..) rfl s
  | writeFailed | readFailed => exact .failed _ rfl (by decide) rfl rfl
  | @encodeFailed st hres =>
    have hproper := cobsEncode_proper s.txBuf s.txFilled s.cfg.delimiterByte
    rw [hres] at hproper
    have hlayer : st.layer = .cobs := hproper.layer
    exact .failed _ rfl (List.ne_nil_of_mem (hproper.failed rfl)) rfl (by rw [hlayer]; rfl)
  | appendFailed => exact .failed _ rfl (by decide) rfl rfl
  | receive h => exact .receive h
  | written | read | resetTx | resetRx | sent =>
    exact .succeeded _ _ rfl fun code hcode => by cases hcode; rfl
  | _ => exact .succeeded _ none rfl nofun

/-- Settles O52. -/
theorem failuresReturnTheTriple : Obligations.FailuresReturnTheTriple := by
  unfold Obligations.FailuresReturnTheTriple
  intro i s t hexec
  cases (exec_next_iff.1 hexec).returned with
  | succeeded v st hres hst =>
    exact ⟨_, hres, nofun, fun _ code hcode => (code.kinds_eq_nil_iff _).2 (hst code hcode)⟩
  | failed st hres hst hlayer hown =>
    refine ⟨_, hres, fun _ => ⟨rfl, st, rfl, fun hnil => hst ((st.kinds_eq_nil_iff _).1 hnil), ?_, hown⟩, nofun⟩
    cases i <;> exact hlayer

end Sys2Proof.Machine
end

section
/-! SUPPORT. Which operations raise which failure (60_exceptions.md R202, 44_receive.md R184). -/

namespace Sys2Proof.Machine

open Sys2Proof.Claims

/-! ## RECEIVE with `D = 0` -/

/-- With `D = 0` the decoder's jumps go forward, so it meets a delimiter too early only where one stands. -/
theorem decodeChain_too_early {l fuel r n : Nat} {b : Buffer} (hn : 1 ≤ n)
    (h : (decodeChain 0 l fuel r n b).status = .delimiterTooEarly) : ∃ j, r < j ∧ j < l - 1 ∧ b.get j = 0 := by
  induction fuel generalizing r n b with
  | zero => cases h
  | succ fuel ih =>
    rw [decodeChain_succ] at h
    by_cases hlt : r + n < l
    · rw [if_pos hlt] at h
      by_cases hd : b.get (r + n) = 0
      · rw [if_pos hd] at h
        by_cases hlast : r + n = l - 1
        · rw [if_pos hlast] at h; cases h
        · exact ⟨r + n, by omega, by omega, hd⟩
      · rw [if_neg hd] at h
        have hjump : 1 ≤ (b.get (r + n)).toNat :=
          Nat.one_le_iff_ne_zero.2 fun hzero => hd (BitVec.eq_of_toNat_eq hzero)
        obtain ⟨j, hrj, hjl, hj⟩ := ih hjump h
        exact ⟨j, by omega, hjl, by rwa [Buffer.get_set, if_neg (by omega)] at hj⟩
    · rw [if_neg hlt] at h; cases h

theorem cobsDecode_too_early {b : Buffer} {l : Nat} (h : (cobsDecode b l 0).status = .delimiterTooEarly) :
    ∃ j, j < l - 1 ∧ b.get j = 0 := by
  obtain ⟨-, st, hres, hst⟩ | ⟨hmin, hmax, hsize, hover⟩ := cobsDecode_cases b l 0
  · rw [hres] at h
    obtain rfl : st = .delimiterTooEarly := h
    obtain ⟨h, -⟩ | ⟨h, -⟩ | ⟨h, -⟩ | ⟨h, -⟩ := hst <;> cases h
  · unfold cobsDecode at h
    rw [if_neg (by omega), if_neg (by omega), if_neg (by omega), if_neg hover] at h
    have hjump : 1 ≤ (b.get 0).toNat := Nat.one_le_iff_ne_zero.2 fun hzero => hover (BitVec.eq_of_toNat_eq hzero)
    obtain ⟨j, hpos, hjl, hj⟩ := decodeChain_too_early hjump h
    exact ⟨j, hjl, by rwa [Buffer.get_set, if_neg (by omega)] at hj⟩

theorem cobsDecode_already_decoded {b : Buffer} {l : Nat} {d : Byte}
    (h : (cobsDecode b l d).status = .decodeAlreadyDecoded) : 3 ≤ l ∧ b.get 0 = 0 := by
  rcases Nat.lt_or_ge l 3 with hl | hl
  · rw [cobsDecode, if_pos hl] at h; cases h
  · obtain ⟨-, st, hres, hst⟩ | hpre := cobsDecode_cases b l d
    · rw [hres] at h
      obtain rfl : st = .decodeAlreadyDecoded := h
      obtain ⟨h, -⟩ | ⟨h, -⟩ | ⟨h, -⟩ | ⟨-, hzero⟩ := hst
      · cases h
      · cases h
      · cases h
      · exact ⟨hl, hzero⟩
    · obtain ⟨-, -, -, -, -, ⟨-, -, hst, -⟩ | ⟨-, -, hst⟩⟩ := cobsDecode_ok d hpre
      · rw [hst] at h; cases h
      · obtain hst | hst := hst <;> rw [hst] at h <;> cases h

section Receive

variable {s t u : State} {body crc : List Byte} {r : Port}

/-- Before the last byte of a packet there is no delimiter. -/
theorem FrameCame.get_ne (h : FrameCame s body crc r)
    (hu : u = s.rxChecked (body ++ [s.cfg.delimiterByte] ++ crc) (body.length + 1) r) {j : Nat} (hj : j < body.length) :
    u.rxBuf.get j ≠ s.cfg.delimiterByte := by
  subst hu
  have hbyte := s.rxChecked_get (body ++ [s.cfg.delimiterByte] ++ crc) (body.length + 1) r j
  rw [if_pos (by simp; omega), List.getD_append _ _ _ _ (by simp; omega), List.getD_append _ _ _ _ hj,
    List.getD_eq_getElem _ _ hj] at hbyte
  rw [hbyte]
  exact fun heq => h.first (heq ▸ List.getElem_mem hj)

/-- With `D = 0` a packet that came never ends too early, and never looks decoded (R184). -/
theorem FrameCame.zero_status (h : FrameCame s body crc r)
    (hu : u = s.rxChecked (body ++ [s.cfg.delimiterByte] ++ crc) (body.length + 1) r) (hd : s.cfg.delimiterByte = 0)
    (hfail : u.rxDecode.ok = false) :
    u.rxDecode.status ≠ .delimiterTooEarly ∧ u.rxDecode.status ≠ .decodeAlreadyDecoded := by
  have hl : u.bytesRead = body.length + 1 := by subst hu; rfl
  have hdu : u.cfg.delimiterByte = 0 := by subst hu; exact hd
  refine ⟨fun hst => ?_, fun hst => ?_⟩
  · rw [State.rxDecode, hdu, hl] at hst
    obtain ⟨j, hj, hzero⟩ := cobsDecode_too_early hst
    exact h.get_ne hu hj (by rw [hd, hzero])
  · obtain ⟨hmin, hzero⟩ := cobsDecode_already_decoded hst
    exact h.get_ne hu (j := 0) (by omega) (by rw [hd, hzero])

/-- A failed RECEIVE reports one of the failures of R184. -/
theorem ReceiveRun.raisers {v : Nat} {st : Status} (h : ReceiveRun s t) (hlegal : s.cfg.legal = true)
    (hres : t.result = some ⟨false, v, some st⟩) :
    .receive ∈ st.raisers ∧
      (s.cfg.delimiterByte = 0 → st ≠ .delimiterTooEarly ∧ st ≠ .decodeAlreadyDecoded) := by
  cases h with
  | drained =>
    obtain rfl : noStartStatus s.cfg = st := by cases hres; rfl
    unfold noStartStatus
    split <;> exact ⟨by decide, fun _ => by decide⟩
  | received => cases hres
  | @undecodable _ _ _ u hframe _ hu hfail =>
    obtain rfl : u.rxDecode.status = st := by cases hres; rfl
    refine ⟨?_, fun hd => hframe.zero_status hu hd hfail⟩
    obtain ⟨-, -, -, hmax, -⟩ := Config.legal_iff.1 hlegal
    obtain hst | ⟨-, hlarge⟩ := hframe.decode_failure hu hfail
    · have hraised : ∀ code ∈ [Status.decodePacketTooSmall, .decodeAlreadyDecoded, .delimiterTooEarly,
          .delimiterNotFound], .receive ∈ code.raisers := by decide
      exact hraised _ hst
    · omega
  | _ => cases hres; exact ⟨by decide, fun _ => by decide⟩

end Receive

/-! ## Every operation -/

theorem OpResult.Proper.raisers {r : OpResult} {l : Layer} {o : Opcode} {s : State} {v : Nat} {st : Status}
    (h : r.Proper l o) (hres : (s.report l r).result = some ⟨false, v, some st⟩) : o ∈ st.raisers := by
  rw [State.report_result] at hres
  cases hok : r.ok with
  | true => rw [hok] at hres; cases hres
  | false =>
    have hfailed := h.failed hok
    rw [hok] at hres
    cases hres
    exact hfailed

/-- Between operations SEND fails only for want of a payload (R163). -/
theorem State.Inv.send_failure {s : State} (hinv : s.Inv) {st : Status}
    (h : cobsEncode s.txBuf s.txFilled s.cfg.delimiterByte = .failed st s.txBuf) : st = .encodePayloadTooSmall := by
  rcases Nat.eq_zero_or_pos s.txFilled with hzero | hpos
  · rw [cobsEncode, if_pos hzero] at h
    cases h
    rfl
  · obtain ⟨b, hres, -⟩ := cobsEncode_ok s.cfg.delimiterByte (hinv.encodePre hpos)
    rw [hres] at h
    cases h

/-- Settles O57: the codec's and the CRC engine's answers are their own; SEND and RECEIVE surface only what can
happen between operations of the invariant. -/
theorem failuresHaveTheirRaisers : Obligations.FailuresHaveTheirRaisers := by
  unfold Obligations.FailuresHaveTheirRaisers
  intro i s t v st hinv hexec hres
  cases exec_next_iff.1 hexec with
  | cobsEncode => exact ⟨(cobsEncode_proper ..).raisers hres, nofun⟩
  | cobsDecode => exact ⟨(cobsDecode_proper ..).raisers hres, nofun⟩
  | crcCompute => exact ⟨(crcCompute_proper ..).raisers hres, nofun⟩
  | crcAppend => exact ⟨(crcAppend_proper ..).raisers hres, nofun⟩
  | crcExtract => exact ⟨(crcExtract_proper ..).raisers hres, nofun⟩
  | encodeFailed hfail =>
    obtain rfl := hinv.send_failure hfail
    cases hres
    exact ⟨by decide, nofun⟩
  | appendFailed _ _ _ hfull => exact absurd hinv.room (Nat.not_le.2 hfull)
  | receive h =>
    obtain ⟨hraised, hzero⟩ := h.raisers hinv.legal hres
    exact ⟨hraised, fun _ => hzero⟩
  | writeFailed | readFailed => cases hres; exact ⟨List.mem_singleton.2 rfl, nofun⟩
  | _ => cases hres

end Sys2Proof.Machine
end

section
/-! SUPPORT. The invariant between operations (Safety.lean): every operation keeps it. -/

namespace Sys2Proof.Machine

open Sys2Proof.Claims

/-! ## What a codec or CRC operation leaves -/

theorem cobsEncode_wf {b : Buffer} (h : b.wf) (p : Nat) (d : Byte) : (cobsEncode b p d).buf.wf := by
  obtain ⟨-, st, hres, -⟩ | hpre := cobsEncode_cases b p d
  · rw [hres]; exact h
  · obtain ⟨b', hres, -, hwf, -⟩ := cobsEncode_ok d hpre
    rw [hres]; exact hwf h

theorem cobsDecode_wf {b : Buffer} (h : b.wf) (l : Nat) (d : Byte) : (cobsDecode b l d).buf.wf := by
  obtain ⟨-, st, hres, -⟩ | hpre := cobsDecode_cases b l d
  · rw [hres]; exact h
  · obtain ⟨-, hwf, -⟩ := cobsDecode_ok d hpre
    exact hwf h

theorem cobsDecode_size (b : Buffer) (l : Nat) (d : Byte) : (cobsDecode b l d).buf.size = b.size := by
  obtain ⟨-, st, hres, -⟩ | hpre := cobsDecode_cases b l d
  · rw [hres]; rfl
  · exact (cobsDecode_ok d hpre).1

theorem crcCompute_buf (cfg : Config) (table : Vector Word 256) (b : Buffer) (start len : Nat) :
    (crcCompute cfg table b start len).buf = b := by
  rcases Nat.lt_or_ge b.size (start + len) with h | h
  · rw [crcCompute_short h]; rfl
  · rw [crcCompute_ok h]

theorem crcExtract_buf (w : CrcWidth) (b : Buffer) (start : Nat) : (crcExtract w b start).buf = b := by
  rcases Nat.lt_or_ge b.size (start + w.bytes) with h | h
  · rw [crcExtract_short h]; rfl
  · rw [crcExtract_ok h]

section Inv

variable {s t : State}

/-! ## The parts of a change that keep the invariant -/

/-- A codec or CRC operation keeps the invariant: only the operand buffer, its layer's register and the outcome
change. -/
theorem State.Inv.report {r : OpResult} {l : Layer} {o : Opcode} (h : s.Inv) (hr : r.Proper l o) (hwf : r.buf.wf) :
    (s.report l r).Inv := by
  have hlayer := hr.layer
  exact {
    legal := by simpa using h.legal
    txWf := by simpa using h.txWf
    rxWf := by simpa using h.rxWf
    bufWf := by simpa using hwf
    txFilledLe := by simpa using h.txFilledLe
    rxFilledLe := by simpa using h.rxFilledLe
    txOverhead := by simpa using h.txOverhead
    table := by simpa using h.table
    cobsLayer := by
      rw [State.report_cobsStatus]
      split
      · next hl => rw [hlayer, hl]
      · exact h.cobsLayer
    crcLayer := by
      rw [State.report_crcStatus]
      split
      · next hl => rw [hlayer, hl]
      · exact h.crcLayer
    fsmIdle := by simpa using h.fsmIdle
    bytesReadLe := by simpa using h.bytesReadLe
    tLastLe := by simpa using h.tLastLe }

/-- The payload staged lies in `tx` behind the overhead byte (R141). -/
theorem State.Inv.stagePayload {offset len : Nat} {l : List Byte} (h : s.Inv) (hl : l.length = len)
    (hcap : offset + len ≤ s.cfg.maxTxPayload) : (s.stagePayload offset len l).Inv :=
  { h with
    txWf := by
      have hwf := Buffer.setBytes_wf (b := s.txBuf) (start := payloadIndex offset) (l := l) h.txWf
        (by rw [State.txBuf_size, Config.txBufSize, payloadIndex]; omega)
      rwa [Buffer.wf, Buffer.size_setBytes] at hwf
    txFilledLe := Nat.max_le.2 ⟨h.txFilledLe, hcap⟩
    txOverhead := by
      rw [State.read_stagePayload, if_neg (by omega)]
      exact h.txOverhead }

/-- A SEND that transmits leaves packet and CRC in `tx` behind a zero overhead byte (R160, R165). -/
theorem State.Inv.sent {b : Buffer} (h : s.Inv)
    (hres : cobsEncode s.txBuf s.txFilled s.cfg.delimiterByte = ⟨true, s.txFilled + 2, .payloadEncoded, b⟩)
    (hsize : b.size = s.cfg.txBufSize) (hfits : s.txFilled + 2 + s.cfg.width.bytes ≤ s.cfg.txBufSize) :
    (s.sent b).Inv :=
  { h with
    txWf := by
      have hwf : b.wf := by
        have hwf := cobsEncode_wf (b := s.txBuf) h.txWf s.txFilled s.cfg.delimiterByte
        rwa [hres] at hwf
      have hwf := Buffer.setBytes_wf (start := s.txFilled + 2)
        (l := s.crcBytes (b.slice 0 (s.txFilled + 2))) hwf (by rw [State.length_crcBytes]; omega)
      rw [Buffer.wf, Buffer.size_setBytes, hsize] at hwf
      exact Memory.write_zero_wf 0 hwf
    txFilledLe := Nat.zero_le _
    txOverhead := by simp [State.sent]
    cobsLayer := rfl
    crcLayer := rfl }

/-- Inside RECEIVE the bytes stored lie in `rx`, and the timer's start in the past. -/
theorem State.Inv.rxAt {l : List Byte} {n tl : Nat} {p : Port} (h : s.Inv) (hl : l.length ≤ s.cfg.rxBufSize)
    (hn : n ≤ s.cfg.rxPacketLimit) (htl : tl ≤ p.now) : (s.rxAt .idle l n tl p).Inv :=
  { h with
    rxWf := by
      have hwf := Buffer.setBytes_wf (b := s.enterReceive.rxBuf) (start := 0) (l := l) (Memory.write_zero_wf 0 h.rxWf)
        (by simpa using hl)
      rwa [Buffer.wf, Buffer.size_setBytes] at hwf
    rxFilledLe := Nat.zero_le _
    fsmIdle := rfl
    bytesReadLe := hn
    tLastLe := htl }

theorem State.Inv.errorStage (h : s.Inv) (st : Status) : (s.errorStage st).Inv := { h with fsmIdle := rfl }

/-! ## The operations -/

theorem Silent.now_le {timeout tLast : Nat} {p r : Port} (h : Silent timeout tLast p r) : p.now ≤ r.now := by
  obtain ⟨hnow, -⟩ := awaitByte_cases timeout tLast p
  rwa [silent_iff.1 h] at hnow

/-- A whole frame fits `rx`. -/
theorem State.Inv.frame {body crc : List Byte} {r : Port} (h : s.Inv) (hframe : FrameCame s body crc r) :
    (s.rxAt .idle (body ++ [s.cfg.delimiterByte] ++ crc) (body.length + 1) r.now r).Inv := by
  obtain ⟨-, -, hfits, hwidth⟩ := hframe
  refine h.rxAt ?_ (by rw [Config.rxPacketLimit]; omega) (Nat.le_refl _)
  rw [List.length_append, List.length_append, hwidth, Config.rxBufSize, List.length_singleton]
  omega

/-- COBS_DECODE in `rx` keeps the invariant (R181). -/
theorem State.Inv.decoded {u : State} (h : s.Inv)
    (hu : u = { s with fsm := .decoded, crcStatus := .checksumComputed }) :
    State.Inv { u.rxDecoded u.rxDecode with fsm := .idle } := by
  subst hu
  exact { h with
    rxWf := by
      have hwf := cobsDecode_wf (b := s.rxBuf) h.rxWf s.bytesRead s.cfg.delimiterByte
      rwa [Buffer.wf, cobsDecode_size] at hwf
    fsmIdle := rfl
    cobsLayer := (cobsDecode_proper ..).layer
    crcLayer := rfl }

theorem ReceiveRun.inv (h : ReceiveRun s t) (hinv : s.Inv) : t.Inv := by
  have hsize : s.cfg.rxBufSize = s.cfg.maxRxPayload + 2 + s.cfg.width.bytes := rfl
  have hlimit : s.cfg.rxPacketLimit = s.cfg.maxRxPayload + 2 := rfl
  cases h with
  | @drained garbage m _ ha _ =>
    obtain ⟨-, hnow⟩ := ha.spec
    obtain ⟨hpoll, -⟩ := m.poll_spec
    refine (hinv.rxAt (Nat.zero_le _) hinv.bytesReadLe ?_).errorStage _
    exact hinv.tLastLe.trans (hnow.trans hpoll)
  | packetTimeout _ _ hl _ hs => exact (hinv.rxAt (by omega) (by omega) hs.now_le).errorStage _
  | outOfSpace _ _ hl _ => exact (hinv.rxAt (by omega) (by omega) (Nat.le_refl _)).errorStage _
  | postambleTimeout _ _ hl hp _ hs =>
    refine (hinv.rxAt ?_ (by omega) hs.now_le).errorStage _
    rw [List.length_append, List.length_append, List.length_singleton]
    omega
  | crcFailed hframe _ => exact { hinv.frame hframe with crcLayer := rfl }
  | @undecodable _ _ _ u hframe _ hu _ => exact ((hinv.frame hframe).decoded hu).errorStage u.rxDecode.status
  | @received body _ _ u hframe _ hu hok =>
    obtain ⟨-, hvalue, -⟩ := cobsDecode_success hok
    have hvalue : u.rxDecode.value = body.length + 1 - 2 := by subst hu; exact hvalue
    have hfits := hframe.fits
    have hfilled : u.rxDecode.value ≤ s.cfg.maxRxPayload := by omega
    exact { (hinv.frame hframe).decoded hu with rxFilledLe := by subst hu; exact hfilled }

/-- Every operation keeps the invariant. -/
theorem OpRun.inv {i : Instr} (h : OpRun s i t) (hinv : s.Inv) : t.Inv := by
  cases h with
  | cobsEncode buf => exact hinv.report (cobsEncode_proper ..) (cobsEncode_wf (Buffer.ofBytes_wf buf) ..)
  | cobsDecode buf => exact hinv.report (cobsDecode_proper ..) (cobsDecode_wf (Buffer.ofBytes_wf buf) ..)
  | crcTableGen => exact { hinv with table := rfl }
  | crcCompute buf => exact hinv.report (crcCompute_proper ..) (by rw [crcCompute_buf]; exact Buffer.ofBytes_wf buf)
  | crcAppend buf => exact hinv.report (crcAppend_proper ..) (crcAppend_wf (Buffer.ofBytes_wf buf))
  | crcExtract buf => exact hinv.report (crcExtract_proper ..) (by rw [crcExtract_buf]; exact Buffer.ofBytes_wf buf)
  | written hlen hcap => exact { hinv.stagePayload (List.length_take_of_le hlen) hcap with }
  | resetTx =>
    exact { hinv with
      txWf := Memory.write_zero_wf 0 hinv.txWf
      txFilledLe := Nat.zero_le _
      txOverhead := by simp }
  | resetRx =>
    exact { hinv with
      rxWf := Memory.write_zero_wf 0 hinv.rxWf
      rxFilledLe := Nat.zero_le _ }
  | encodeFailed hfail =>
    obtain rfl := hinv.send_failure hfail
    exact { hinv with cobsLayer := rfl }
  | appendFailed _ _ _ hfull => exact absurd hinv.room (Nat.not_le.2 hfull)
  | sent hres hsize hfits => exact hinv.sent hres hsize hfits
  | receive h => exact h.inv hinv
  | _ => exact { hinv with }

end Inv

/-- Settles O11: a step is idle, an operation run on the state with the command taken off, or one of the refusals. -/
theorem everyStepIsSafe : Obligations.EveryStepIsSafe := by
  unfold Obligations.EveryStepIsSafe
  intro s hinv
  cases hc : s.commands with
  | nil => rw [step_of_empty hinv.legal hc]; exact hinv
  | cons q rest =>
    cases hd : decode q.cmd with
    | error e =>
      rw [step_of_decode_error hinv.legal hc hd]
      cases e <;> exact trivial
    | ok i =>
      cases hm : mayIssue q.issuer i.opcode with
      | false => rw [step_of_not_issuable hinv.legal hc hd hm]; exact trivial
      | true =>
        rw [step_of_issuable hinv.legal hc hd hm]
        have hrest : State.Inv { s with commands := rest } := { hinv with }
        obtain ⟨t, ht⟩ | ⟨r, hr⟩ | ⟨f, hf⟩ := exec_cases i { s with commands := rest }
        · rw [ht.exec]; exact ht.inv hrest
        · rw [hr.exec]; cases hr <;> exact trivial
        · exact absurd hrest hf.not_inv

end Sys2Proof.Machine
end

section
/-! SUPPORT. Two runs of one operation (10_state.md R31, R33): what no operation reads has no influence. -/

namespace Sys2Proof.Machine

open Sys2Proof.Claims

/-- The state with the registers no operation reads as they are in `d`: what `SameBehind` leaves open. -/
def State.behind (s d : State) : State :=
  { s with cobsStatus := d.cobsStatus, crcStatus := d.crcStatus, xferStatus := d.xferStatus,
           bytesRead := d.bytesRead, tLast := d.tLast, buf := d.buf, dst := d.dst, result := d.result }

@[simp] theorem State.behind_cfg (s d : State) : (s.behind d).cfg = s.cfg := rfl
@[simp] theorem State.behind_txFilled (s d : State) : (s.behind d).txFilled = s.txFilled := rfl
@[simp] theorem State.behind_rxFilled (s d : State) : (s.behind d).rxFilled = s.rxFilled := rfl
@[simp] theorem State.behind_rxBuf (s d : State) : (s.behind d).rxBuf = s.rxBuf := rfl

/-- What two runs of an operation, from `s` and from `s'`, have in common: the same outcome, and each register that
may differ written alike in both or kept in both. For most operations and registers this is what the laws of the
state say of both runs, so it is left to them unless a proof gives it. -/
structure Alike (o : Opcode) (s s' t t' : State) : Prop where
  behind : SameBehind t t'
  result : t'.result = t.result := by simp
  cobsStatus : SameOrKept s.cobsStatus s'.cobsStatus t.cobsStatus t'.cobsStatus := by simp [SameOrKept]
  crcStatus : SameOrKept s.crcStatus s'.crcStatus t.crcStatus t'.crcStatus := by simp [SameOrKept]
  xferStatus : SameOrKept s.xferStatus s'.xferStatus t.xferStatus t'.xferStatus := by simp [SameOrKept]
  bytesRead : SameOrKept s.bytesRead s'.bytesRead t.bytesRead t'.bytesRead := by simp [SameOrKept]
  tLast : SameOrKept s.tLast s'.tLast t.tLast t'.tLast := by simp [SameOrKept]
  buf : SameOrKept s.buf s'.buf t.buf t'.buf := by simp [SameOrKept]
  dst : SameOrKept s.dst s'.dst t.dst t'.dst := by simp [SameOrKept]
  sink : o = .readPayload → t'.dst = t.dst := by simp [Instr.opcode]
  operand : o ∈ [Opcode.cobsEncode, .cobsDecode, .crcCompute, .crcAppend, .crcExtract] → t'.buf = t.buf := by simp [Instr.opcode]
  cobsLatched : o ∈ [Opcode.cobsEncode, .cobsDecode, .send] → t'.cobsStatus = t.cobsStatus := by simp [Instr.opcode]
  crcLatched : o ∈ [Opcode.crcCompute, .crcAppend, .crcExtract] → t'.crcStatus = t.crcStatus := by simp [Instr.opcode]
  xferLatched : o ∈ [Opcode.writePayload, .readPayload, .resetTx, .resetRx, .send, .receive] →
    t'.xferStatus = t.xferStatus := by simp [Instr.opcode]

/-- A codec or CRC operation reports the same in both runs. -/
theorem alike_report (s d : State) (r : OpResult) {o : Opcode} {l : Layer} (hl : layerOf o = l) (h : l ≠ .transfer) :
    Alike o s (s.behind d) (s.report l r) ((s.behind d).report l r) := by
  have hbehind : SameBehind (s.report l r) ((s.behind d).report l r) := by
    obtain ⟨ok, v, st, b⟩ := r
    cases ok <;> cases l <;> rfl
  subst hl
  cases o with
  | cobsEncode | cobsDecode | crcCompute | crcAppend | crcExtract => exact { behind := hbehind }
  | _ => exact absurd rfl h

section Receive

variable {s s' t t' : State}

/-- RECEIVE keeps the operand buffer and the sink, and latches its outcome's code. -/
theorem Alike.receive (h : ReceiveRun s t) (h' : ReceiveRun s' t') (hbehind : SameBehind t t')
    (hresult : t'.result = t.result) (hxfer : t'.xferStatus = t.xferStatus)
    (hcobs : SameOrKept s.cobsStatus s'.cobsStatus t.cobsStatus t'.cobsStatus)
    (hcrc : SameOrKept s.crcStatus s'.crcStatus t.crcStatus t'.crcStatus)
    (hread : SameOrKept s.bytesRead s'.bytesRead t.bytesRead t'.bytesRead)
    (hlast : SameOrKept s.tLast s'.tLast t.tLast t'.tLast) : Alike .receive s s' t t' where
  behind := hbehind
  result := hresult
  cobsStatus := hcobs
  crcStatus := hcrc
  xferStatus := .inl hxfer
  bytesRead := hread
  tLast := hlast
  buf := .inr ⟨h.same.buf, h'.same.buf⟩
  dst := .inr ⟨h.same.dst, h'.same.dst⟩
  xferLatched := fun _ => hxfer

/-- A frame that comes in does so whatever the registers no operation reads hold. -/
theorem FrameCame.of_behind {body crc : List Byte} {r : Port} (h : FrameCame s body crc r) (d : State) :
    FrameCame (s.behind d) body crc r := ⟨h.came, h.first, h.fits, h.width⟩

/-- RECEIVE ends alike in both runs: only a scan that finds no start byte keeps `bytes_read` and `t_last`, only the
last stages write the registers of the sub-layers. -/
theorem ReceiveRun.alike (h : ReceiveRun s t) (d : State) :
    ∃ t', ReceiveRun (s.behind d) t' ∧ Alike .receive s (s.behind d) t t' := by
  have hrun := h
  cases h with
  | drained hg ha hn =>
    have hrun' : ReceiveRun (s.behind d) _ := .drained hg ha hn
    exact ⟨_, hrun', .receive hrun hrun' rfl rfl rfl (.inr ⟨rfl, rfl⟩) (.inr ⟨rfl, rfl⟩) (.inr ⟨rfl, rfl⟩)
      (.inr ⟨rfl, rfl⟩)⟩
  | packetTimeout ha hd hl ht hs =>
    have hrun' : ReceiveRun (s.behind d) _ := .packetTimeout ha hd hl ht hs
    exact ⟨_, hrun', .receive hrun hrun' rfl rfl rfl (.inr ⟨rfl, rfl⟩) (.inr ⟨rfl, rfl⟩) (.inl rfl) (.inl rfl)⟩
  | outOfSpace ha hd hl ht =>
    have hrun' : ReceiveRun (s.behind d) _ := .outOfSpace ha hd hl ht
    exact ⟨_, hrun', .receive hrun hrun' rfl rfl rfl (.inr ⟨rfl, rfl⟩) (.inr ⟨rfl, rfl⟩) (.inl rfl) (.inl rfl)⟩
  | postambleTimeout ha hd hl hp ht hs =>
    have hrun' : ReceiveRun (s.behind d) _ := .postambleTimeout ha hd hl hp ht hs
    exact ⟨_, hrun', .receive hrun hrun' rfl rfl rfl (.inr ⟨rfl, rfl⟩) (.inr ⟨rfl, rfl⟩) (.inl rfl) (.inl rfl)⟩
  | crcFailed hframe hcrc =>
    have hrun' : ReceiveRun (s.behind d) _ := .crcFailed (hframe.of_behind d) hcrc
    exact ⟨_, hrun', .receive hrun hrun' rfl rfl rfl (.inr ⟨rfl, rfl⟩) (.inl rfl) (.inl rfl) (.inl rfl)⟩
  | undecodable hframe hcrc hu hfail =>
    subst hu
    have hrun' : ReceiveRun (s.behind d) _ := .undecodable (hframe.of_behind d) hcrc rfl hfail
    exact ⟨_, hrun', .receive hrun hrun' rfl rfl rfl (.inl rfl) (.inl rfl) (.inl rfl) (.inl rfl)⟩
  | received hframe hcrc hu hok =>
    subst hu
    have hrun' : ReceiveRun (s.behind d) _ := .received (hframe.of_behind d) hcrc rfl hok
    exact ⟨_, hrun', .receive hrun hrun' rfl rfl rfl (.inl rfl) (.inl rfl) (.inl rfl) (.inl rfl)⟩

end Receive

/-- Every operation that completes does so alike in both runs. -/
theorem OpRun.alike {s t : State} {i : Instr} (h : OpRun s i t) (d : State) :
    ∃ t', OpRun (s.behind d) i t' ∧ Alike i.opcode s (s.behind d) t t' := by
  cases h with
  | cobsEncode buf p d' => exact ⟨_, .cobsEncode buf p d', alike_report s d _ rfl (by decide)⟩
  | cobsDecode buf l d' => exact ⟨_, .cobsDecode buf l d', alike_report s d _ rfl (by decide)⟩
  | crcCompute buf start len => exact ⟨_, .crcCompute buf start len, alike_report s d _ rfl (by decide)⟩
  | crcAppend buf start hfits => exact ⟨_, .crcAppend buf start hfits, alike_report s d _ rfl (by decide)⟩
  | crcExtract buf start => exact ⟨_, .crcExtract buf start, alike_report s d _ rfl (by decide)⟩
  | writeFailed hlen hcap => exact ⟨_, .writeFailed hlen hcap, { behind := rfl }⟩
  | written hlen hcap => exact ⟨_, .written hlen hcap, { behind := rfl }⟩
  | readFailed hlt => exact ⟨_, .readFailed hlt, { behind := rfl }⟩
  | read hle hsize => exact ⟨_, .read hle hsize, { behind := rfl }⟩
  | encodeFailed hres => exact ⟨_, .encodeFailed hres, { behind := rfl }⟩
  | appendFailed hres hsize hroom hfull => exact ⟨_, .appendFailed hres hsize hroom hfull, { behind := rfl }⟩
  | sent hres hsize hfits => exact ⟨_, .sent hres hsize hfits, { behind := rfl }⟩
  | receive h =>
    obtain ⟨t', ht', halike⟩ := h.alike d
    exact ⟨t', .receive ht', halike⟩
  | crcTableGen => exact ⟨_, .crcTableGen, { behind := rfl }⟩
  | resetTx => exact ⟨_, .resetTx, { behind := rfl }⟩
  | resetRx => exact ⟨_, .resetRx, { behind := rfl }⟩
  | bytesInTx => exact ⟨_, .bytesInTx, { behind := rfl }⟩
  | bytesInRx => exact ⟨_, .bytesInRx, { behind := rfl }⟩
  | getMaxTxPayload => exact ⟨_, .getMaxTxPayload, { behind := rfl }⟩
  | getMaxRxPayload => exact ⟨_, .getMaxRxPayload, { behind := rfl }⟩
  | getTxBufferSize => exact ⟨_, .getTxBufferSize, { behind := rfl }⟩
  | getRxBufferSize => exact ⟨_, .getRxBufferSize, { behind := rfl }⟩

/-- Settles O51: the two runs go the same way, and end alike. -/
theorem nothingReadsTheStatusRegisters : Obligations.NothingReadsTheStatusRegisters := by
  unfold Obligations.NothingReadsTheStatusRegisters
  intro i s s' hs
  have hs : s' = s.behind s' := hs
  rw [hs]
  refine ⟨fun t ht => ?_, fun r hr => ?_, fun f hf => ?_⟩
  · obtain ⟨t', hrun, h⟩ := (exec_next_iff.1 ht).alike s'
    exact ⟨t', hrun.exec, h.result, h.behind, h.cobsStatus, h.crcStatus, h.xferStatus, h.bytesRead, h.tLast, h.buf,
      h.dst, h.sink, h.operand, h.cobsLatched, h.crcLatched, h.xferLatched⟩
  · cases exec_refused_iff.1 hr with
    | shortSource h => exact OpRefused.exec (.shortSource h)
    | wideCrc h => exact OpRefused.exec (s := s.behind s') (.wideCrc h)
  · cases exec_fault_iff.1 hf with
    | readPast h hsize => exact OpFaults.exec (s := s.behind s') (.readPast h hsize)

end Sys2Proof.Machine
end
